-- ==== Sys2Proof/Word.lean ====
section
/-!
DEFINITION. The word types of the block: the unsigned integers of 00_scope.md R8.
-/

namespace Sys2Proof

/-- `u8` of R8: one byte of a frame, of DATA or of the wire stream. -/
abbrev Byte := BitVec 8

/-- `u32` of R8: a host-visible register, a device address, a length. -/
abbrev Word := BitVec 32

/-- `u64` of R8: a count of milliseconds (`TIME_W` of R6). -/
abbrev Time := BitVec 64

end Sys2Proof
end

