-- ==== Sys2Proof/Config.lean ====
section
/-!
DEFINITION. What is fixed for one machine (the parameters of 00_scope.md R6), the choices that belong to
the environment (10_state.md R20, R21), and the free values the spec leaves to an oracle.
-/

namespace Sys2Proof

/-- The parameters of R6, which a model takes as arguments (93_implementation_defined.md I1, D9). They stand in
State, no step writes them, and PARAMS and BUFSIZE show three of them (R43, R44). FRAME_MAX and TEST_MAX are functions of
CHUNK_MAX (R6), and BLOCK_BASE is open (assumption 22). -/
structure Params where
  /-- `ADDR_W`: the bits of a device address, held by ADDR. -/
  addrW : Nat
  /-- `LEN_W`: the bits that LEN holds. -/
  lenW : Nat
  /-- `CHUNK_MAX`: the largest transaction, in bytes. -/
  chunkMax : Nat
  /-- `ZERO_LIMIT`: the consecutive zero reads a Read transaction survives. -/
  zeroLimit : Nat
  /-- `MS_PER_S`: the milliseconds of a second. -/
  msPerS : Nat
  /-- `BUF_BYTES`: the size of the DATA buffer. -/
  bufBytes : Nat
  /-- `TIME_W`: the bits that NOW counts in. -/
  timeW : Nat
  deriving DecidableEq, Repr

/-- The values of this hardware (R6). -/
def Params.srwp : Params where
  addrW := 32
  lenW := 32
  chunkMax := 32
  zeroLimit := 10
  msPerS := 1000
  bufBytes := 4096
  timeW := 64

/-- `FRAME_MAX = 10 + CHUNK_MAX` (R6, R7). -/
def Params.frameMax (p : Params) : Nat := 10 + p.chunkMax

/-- `TEST_MAX = CHUNK_MAX` (R6, D10). -/
def Params.testMax (p : Params) : Nat := p.chunkMax

/-- The legal parameters: `CHUNK_MAX ≤ BUF_BYTES ≤ 2^32 − 256` is R6's; that FRAME_MAX fits FLEN's u8, that
`ZERO_LIMIT + 1` fits ZERO_CNT's u8, that a chunk is not empty, that MINDUR fits its u32 and that the widths fit the words
that hold them follow from R22, R28, R29, R43 and R207 (assumption 1). -/
abbrev Params.wf (p : Params) : Prop :=
  0 < p.chunkMax ∧ 10 + p.chunkMax < 256 ∧ p.zeroLimit < 255 ∧
    p.chunkMax ≤ p.bufBytes ∧ p.bufBytes ≤ 2 ^ 32 - 256 ∧
    p.msPerS * p.chunkMax < 2 ^ 32 ∧ p.addrW ≤ 32 ∧ p.lenW ≤ 32 ∧ p.timeW ≤ 64

/-- A completion of the transport port (30_encoding.md R109): the `ok` bit, the count (`k` of a WRITE, `n` of a
READ) and the bytes of a READ. Nothing makes `count` agree with `bytes`: R151 classifies that as ERR. -/
structure Resp where
  ok : Bool
  count : Word
  bytes : List Byte
  deriving DecidableEq, Repr, Inhabited

/-- One choice of the environment: which agent moves next (R20, R11), with what that agent chooses.
A choice whose agent has no enabled step is dropped (assumption 7). -/
inductive Act where
  /-- The next encoded instruction is presented: a host line, or a word at another encoded interface. -/
  | fetch
  /-- The sequencer takes its step. -/
  | seq
  /-- The transport completes the outstanding request with this response (R21, R150). -/
  | complete (r : Resp)
  /-- The clock raises NOW by `n` milliseconds (R22). -/
  | tick (n : Nat)
  /-- The RESET input is applied (R26). -/
  | reset
  deriving DecidableEq, Repr, Inhabited

/-- The oracle's byte number `n`: every "any value" of the spec that is read as a byte (R50, R64, R69, I7, I8). No
body: nothing can be proved of it. Assumptions 4 and 5. -/
opaque Config.freeByte : Nat → Byte

/-- The environment's choice number `n`, taken when no choice is written in State (R11, R20, R21). No body.
Assumption 6. -/
opaque Config.freeAct : Nat → Act

/-- `BLOCK_BASE`, OPEN (R6, R62, D2): the host-bus address of offset 0. No rule computes with it: every access is
given by its offset (R63). Assumption 22. -/
opaque Config.blockBase : Nat

end Sys2Proof
end

