-- ==== Sys2Proof/Syntax.lean ====
section
/-!
DEFINITION. The instructions of spec/opcode_table.json, one constructor a row, and the encoded forms they take at
the block's encoded interfaces (30_encoding.md R100).
-/

namespace Sys2Proof

/-- The operations a START pseudo-instruction may name (R111). -/
inductive Op where
  | test | read | write
  deriving DecidableEq, Repr

/-- The pseudo-instruction names of R111. -/
inductive Pseudo where
  | start | starti | poll | waitdone | ack | load
  deriving DecidableEq, Repr

/-- The sizes of a host access (20_memory.md R63). -/
inductive Size where
  | b1 | b2 | b4
  deriving DecidableEq, Repr

/-- The instructions, in the order of the opcode table. -/
inductive Instr where
  -- WIRE_FRAME (R101)
  | frameTest (payload : List Byte)
  | frameRead (addr len : Word)
  | frameWrite (addr : Word) (payload : List Byte)
  | frameInvalidOpcode (opc : Byte)
  | frameInvalidPrefix (cls opc : Byte)
  -- CTRL_WORD (R106) and STATUS_WORD (R36)
  | startTest (irqEn : Bool)
  | startRead (irqEn : Bool)
  | startWrite (irqEn : Bool)
  | startReserved (irqEn : Bool)
  | ctrlSet (op : BitVec 2) (irqEn : Bool)
  | statusW1c (done cmdrej : Bool)
  -- TRANSPORT_REQ (R108)
  | tClear
  | tSetDtr (val : Bool)
  | tSetRts (val : Bool)
  | tWrite (data : List Byte)
  | tFlush
  | tRead (max : Word)
  | tWaitC
  | tReserved
  -- HOST_BUS (R110)
  | wr32 (off value : Word)
  | wr16 (off : Word) (value : BitVec 16)
  | wr8 (off : Word) (value : Byte)
  | rd32 (off : Word)
  | rd16 (off : Word)
  | rd8 (off : Word)
  -- HOST_PSEUDO (R111)
  | start (op : Op)
  | starti (op : Op)
  | poll (off mask value : Word)
  | waitdone
  | ack
  | load (i : Nat) (bytes : List Byte)
  deriving DecidableEq, Repr

/-- What stands at an encoded interface of the block (R100): one constructor an interface, its fields those the spec
gives that interface (assumption 9). -/
inductive Code where
  /-- Bytes on the wire, the first sent first (R101). -/
  | frame (bytes : List Byte)
  /-- A CTRL write word (R105, R106). -/
  | ctrl (w : Word)
  /-- A STATUS write word (R36). -/
  | status (w : Word)
  /-- A transport request: `top`, `val`, `data`, `max` (R108). -/
  | request (top : BitVec 3) (val : Bool) (data : List Byte) (max : Word)
  /-- The script tuple `W off size value` (R112). -/
  | busWrite (off : Word) (size : Size) (value : Word)
  /-- The script tuple `R off size` (R112). -/
  | busRead (off : Word) (size : Size)
  /-- A pseudo-instruction's line: its name and its numbers (R111). -/
  | line (name : Pseudo) (args : List Nat)
  deriving DecidableEq, Repr

/-- The verdicts of the reference decoder (40_frame_codec.md R135, R136). -/
inductive Verdict where
  | test (payload : List Byte)
  | read (addr len : Word)
  | write (addr : Word) (payload : List Byte)
  | incomplete
  | invalidPrefix
  | invalidOpcode
  deriving DecidableEq, Repr

/-- Why a code is no instruction. -/
inductive DecodeError where
  /-- A frame with too few bytes (R136). -/
  | incomplete
  /-- A WRITE request with no data byte: `data` is 1 to FRAME_MAX bytes (R108). -/
  | requestData
  /-- A line whose numbers are not those R111 gives its name. -/
  | operands
  deriving DecidableEq, Repr

/-- What the decoder answers. -/
inductive Decoded where
  | instr (i : Instr)
  | bad (e : DecodeError)
  deriving DecidableEq, Repr

end Sys2Proof
end

