-- ==== Sys2Proof/WellFormed.lean ====
section
/-!
DEFINITION. The checks an instruction passes: what its encoding can carry, and the range of the frames the block emits.
-/

namespace Sys2Proof

/-- What the encoding of an instruction can carry: a frame's length field holds its payload's length ("length-fits-in-u32",
R103); the reserved frames are those of R107; a request's operands are those of R108; a LOAD has at least one byte (R111). -/
def Instr.wellFormed (p : Params) : Instr → Bool
  | .frameTest payload => decide (payload.length < 2 ^ 32)
  | .frameRead _ _ => true
  | .frameWrite _ payload => decide (payload.length < 2 ^ 32)
  | .frameInvalidOpcode opc => decide (3 ≤ opc.toNat)
  | .frameInvalidPrefix cls _ => decide (cls ≠ 0)
  | .startTest _ => true
  | .startRead _ => true
  | .startWrite _ => true
  | .startReserved _ => true
  | .ctrlSet _ _ => true
  | .statusW1c _ _ => true
  | .tClear => true
  | .tSetDtr _ => true
  | .tSetRts _ => true
  | .tWrite data => decide (1 ≤ data.length) && decide (data.length ≤ p.frameMax)
  | .tFlush => true
  | .tRead max => decide (max.toNat ≤ p.chunkMax)
  | .tWaitC => true
  | .tReserved => true
  | .wr32 _ _ => true
  | .wr16 _ _ => true
  | .wr8 _ _ => true
  | .rd32 _ => true
  | .rd16 _ => true
  | .rd8 _ => true
  | .start _ => true
  | .starti _ => true
  | .poll _ _ _ => true
  | .waitdone => true
  | .ack => true
  | .load _ bytes => decide (1 ≤ bytes.length)

/-- The range of the frames the block emits (40_frame_codec.md R138). -/
def Verdict.emitted (p : Params) : Verdict → Bool
  | .test payload => decide (payload.length ≤ p.testMax)
  | .read addr len =>
    decide (1 ≤ len.toNat) && decide (len.toNat ≤ p.chunkMax) && decide (addr.toNat + len.toNat ≤ 2 ^ 32)
  | .write addr payload =>
    decide (1 ≤ payload.length) && decide (payload.length ≤ p.chunkMax) &&
      decide (addr.toNat + payload.length ≤ 2 ^ 32)
  | .incomplete => false
  | .invalidPrefix => false
  | .invalidOpcode => false

end Sys2Proof
end

