-- ==== Sys2Proof/Decode.lean ====
section
/-!
DEFINITION. Byte order, the frame codec, the decoder of every encoded interface and, after it, the encoder
(20_memory.md section 3, 30_encoding.md, 40_frame_codec.md).
-/

namespace Sys2Proof

/-! ## Byte order (R9, R70, R71) -/

/-- `LEE(v, n)` of R68: the `n`-byte little-endian sequence of v's low `8*n` bits. -/
def leBytes : Nat → Word → List Byte
  | 0, _ => []
  | n + 1, v => v.extractLsb' 0 8 :: leBytes n (v >>> 8)

/-- `fromLE` of R9 and R67: the first byte is the lowest. -/
def fromLE : List Byte → Word
  | [] => 0
  | b :: bs => BitVec.ofNat 32 (b.toNat + 256 * (fromLE bs).toNat)

/-- `LE32` of R9. -/
def le32 (v : Word) : List Byte := leBytes 4 v

/-- A size in bytes (R63). -/
def Size.bytes : Size → Nat
  | .b1 => 1
  | .b2 => 2
  | .b4 => 4

/-- The value of a field whose only bit is `b`. -/
def bit (b : Bool) (at_ : Nat) : Nat := if b then 2 ^ at_ else 0

/-! ## The encoders of the frame codec (R131 to R133) -/

/-- ENC_READ (R131). -/
def encRead (a l : Word) : List Byte := [0x00, 0x01] ++ le32 a ++ le32 l

/-- ENC_WRITE (R132): the length field is the payload's length. -/
def encWrite (a : Word) (payload : List Byte) : List Byte :=
  [0x00, 0x02] ++ le32 a ++ le32 (BitVec.ofNat 32 payload.length) ++ payload

/-- ENC_TEST (R133): there is no address field. -/
def encTest (payload : List Byte) : List Byte :=
  [0x00, 0x00] ++ le32 (BitVec.ofNat 32 payload.length) ++ payload

/-! ## DECODE, the reference frame decoder (R135) -/

/-- DECODE's case 0x00, on the bytes after the opcode. -/
def decodeTestBody : List Byte → Verdict × Nat
  | l0 :: l1 :: l2 :: l3 :: body =>
    let n := (fromLE [l0, l1, l2, l3]).toNat
    if body.length < n then (.incomplete, 0) else (.test (body.take n), 6 + n)
  | _ => (.incomplete, 0)

/-- DECODE's case 0x01, on the bytes after the opcode. -/
def decodeReadBody : List Byte → Verdict × Nat
  | a0 :: a1 :: a2 :: a3 :: l0 :: l1 :: l2 :: l3 :: _ =>
    (.read (fromLE [a0, a1, a2, a3]) (fromLE [l0, l1, l2, l3]), 10)
  | _ => (.incomplete, 0)

/-- DECODE's case 0x02, on the bytes after the opcode. -/
def decodeWriteBody : List Byte → Verdict × Nat
  | a0 :: a1 :: a2 :: a3 :: l0 :: l1 :: l2 :: l3 :: body =>
    let n := (fromLE [l0, l1, l2, l3]).toNat
    if body.length < n then (.incomplete, 0)
    else (.write (fromLE [a0, a1, a2, a3]) (body.take n), 10 + n)
  | _ => (.incomplete, 0)

/-- DECODE(s) of R135: the verdict and the number of bytes consumed. -/
def decodeFrame : List Byte → Verdict × Nat
  | b0 :: b1 :: rest =>
    if b0 ≠ 0x00 then (.invalidPrefix, 0)
    else if b1 = 0x00 then decodeTestBody rest
    else if b1 = 0x01 then decodeReadBody rest
    else if b1 = 0x02 then decodeWriteBody rest
    else (.invalidOpcode, 0)
  | _ => (.incomplete, 0)

/-! ## The decoder -/

/-- A frame's instruction, by the reference decoder's verdict (R135, R136). -/
def decodeWire (bytes : List Byte) : Decoded :=
  match (decodeFrame bytes).1 with
  | .test payload => .instr (.frameTest payload)
  | .read addr len => .instr (.frameRead addr len)
  | .write addr payload => .instr (.frameWrite addr payload)
  | .incomplete => .bad .incomplete
  | .invalidPrefix => .instr (.frameInvalidPrefix (bytes.getD 0 0) (bytes.getD 1 0))
  | .invalidOpcode => .instr (.frameInvalidOpcode (bytes.getD 1 0))

/-- `w[1:0]`, the field OP of CTRL (R35). -/
def ctrlOp (w : Word) : BitVec 2 := w.extractLsb' 0 2

/-- `w[4]`, the field IRQ_EN of CTRL (R35). -/
def ctrlIrqEn (w : Word) : Bool := w.getLsbD 4

/-- `w[8]`, the field START of CTRL (R35). -/
def ctrlStart (w : Word) : Bool := w.getLsbD 8

/-- A CTRL write word (R105, R106): bits [3:2], [7:5] and [31:9] are ignored. -/
def decodeCtrl (w : Word) : Instr :=
  if ctrlStart w then
    if ctrlOp w = 0 then .startTest (ctrlIrqEn w)
    else if ctrlOp w = 1 then .startRead (ctrlIrqEn w)
    else if ctrlOp w = 2 then .startWrite (ctrlIrqEn w)
    else .startReserved (ctrlIrqEn w)
  else .ctrlSet (ctrlOp w) (ctrlIrqEn w)

/-- A STATUS write word (R36, R66): only bits [1] and [2] act. -/
def decodeStatus (w : Word) : Instr := .statusW1c (w.getLsbD 1) (w.getLsbD 2)

/-- A transport request (R108): the fields a request does not use are ignored. -/
def decodeRequest (top : BitVec 3) (val : Bool) (data : List Byte) (max : Word) : Decoded :=
  if top = 0 then .instr .tClear
  else if top = 1 then .instr (.tSetDtr val)
  else if top = 2 then .instr (.tSetRts val)
  else if top = 3 then (if data = [] then .bad .requestData else .instr (.tWrite data))
  else if top = 4 then .instr .tFlush
  else if top = 5 then .instr (.tRead max)
  else if top = 6 then .instr .tWaitC
  else .instr .tReserved

/-- `W off size value` (R112): v's low `8*size` bits are written (R68). -/
def decodeBusWrite (off : Word) (value : Word) : Size → Instr
  | .b1 => .wr8 off (value.extractLsb' 0 8)
  | .b2 => .wr16 off (value.extractLsb' 0 16)
  | .b4 => .wr32 off value

/-- `R off size` (R112). -/
def decodeBusRead (off : Word) : Size → Instr
  | .b1 => .rd8 off
  | .b2 => .rd16 off
  | .b4 => .rd32 off

/-- The operand of START and STARTI: TEST = 0, READ = 1 or WRITE = 2 (R111). -/
def opOfNat (n : Nat) : Option Op :=
  if n = 0 then some .test else if n = 1 then some .read else if n = 2 then some .write else none

/-- The bytes `b0 b1 ... bm` of a LOAD line, none if a number is no byte. -/
def bytesOfNats : List Nat → Option (List Byte)
  | [] => some []
  | n :: ns => if n < 256 then (bytesOfNats ns).map (BitVec.ofNat 8 n :: ·) else none

/-- START and STARTI lines (R111). -/
def decodeStartLine (mk : Op → Instr) : List Nat → Decoded
  | [n] => match opOfNat n with
    | some op => .instr (mk op)
    | none => .bad .operands
  | _ => .bad .operands

/-- A POLL line (R111). -/
def decodePollLine : List Nat → Decoded
  | [off, mask, value] =>
    if off < 2 ^ 32 ∧ mask < 2 ^ 32 ∧ value < 2 ^ 32 then
      .instr (.poll (BitVec.ofNat 32 off) (BitVec.ofNat 32 mask) (BitVec.ofNat 32 value))
    else .bad .operands
  | _ => .bad .operands

/-- A LOAD line (R111): at least one byte. -/
def decodeLoadLine : List Nat → Decoded
  | i :: b :: bs => match bytesOfNats (b :: bs) with
    | some bytes => .instr (.load i bytes)
    | none => .bad .operands
  | _ => .bad .operands

/-- A pseudo-instruction's line (R111). -/
def decodeLine (name : Pseudo) (args : List Nat) : Decoded :=
  match name with
  | .start => decodeStartLine .start args
  | .starti => decodeStartLine .starti args
  | .poll => decodePollLine args
  | .waitdone => if args = [] then .instr .waitdone else .bad .operands
  | .ack => if args = [] then .instr .ack else .bad .operands
  | .load => decodeLoadLine args

/-- The decoder, total on every code. -/
def decode : Code → Decoded
  | .frame bytes => decodeWire bytes
  | .ctrl w => .instr (decodeCtrl w)
  | .status w => .instr (decodeStatus w)
  | .request top val data max => decodeRequest top val data max
  | .busWrite off size value => .instr (decodeBusWrite off value size)
  | .busRead off size => .instr (decodeBusRead off size)
  | .line name args => decodeLine name args

/-- What is left of a code once its instruction is taken: "Bytes after `consumed` belong to the next frame" (R135). A
verdict that consumes nothing drops the bytes (assumption 29). -/
def codeRest : Code → List Code
  | .frame bytes =>
    let n := (decodeFrame bytes).2
    if n = 0 ∨ bytes.length ≤ n then [] else [.frame (bytes.drop n)]
  | .ctrl _ => []
  | .status _ => []
  | .request _ _ _ _ => []
  | .busWrite _ _ _ => []
  | .busRead _ _ => []
  | .line _ _ => []

/-! ## The encoder -/

/-- CTRL.OP of an operation (R105). -/
def Op.code : Op → BitVec 2
  | .test => 0
  | .read => 1
  | .write => 2

/-- The start word of R106: `0x00000100 | (irq_en << 4) | op`. -/
def startWord (op : BitVec 2) (irqEn : Bool) : Word := BitVec.ofNat 32 (0x100 + bit irqEn 4 + op.toNat)

/-- A CTRL write word with bit 8 = 0 (R106). -/
def setWord (op : BitVec 2) (irqEn : Bool) : Word := BitVec.ofNat 32 (bit irqEn 4 + op.toNat)

/-- A STATUS write word with the W1C bits given (R36). -/
def w1cWord (done cmdrej : Bool) : Word := BitVec.ofNat 32 (bit done 1 + bit cmdrej 2)

/-- The encoder: the words of a well-formed instruction, from the same tables. -/
def encode : Instr → Code
  | .frameTest payload => .frame (encTest payload)
  | .frameRead addr len => .frame (encRead addr len)
  | .frameWrite addr payload => .frame (encWrite addr payload)
  | .frameInvalidOpcode opc => .frame [0x00, opc]
  | .frameInvalidPrefix cls opc => .frame [cls, opc]
  | .startTest irqEn => .ctrl (startWord 0 irqEn)
  | .startRead irqEn => .ctrl (startWord 1 irqEn)
  | .startWrite irqEn => .ctrl (startWord 2 irqEn)
  | .startReserved irqEn => .ctrl (startWord 3 irqEn)
  | .ctrlSet op irqEn => .ctrl (setWord op irqEn)
  | .statusW1c done cmdrej => .status (w1cWord done cmdrej)
  | .tClear => .request 0 false [] 0
  | .tSetDtr val => .request 1 val [] 0
  | .tSetRts val => .request 2 val [] 0
  | .tWrite data => .request 3 false data 0
  | .tFlush => .request 4 false [] 0
  | .tRead max => .request 5 false [] max
  | .tWaitC => .request 6 false [] 0
  | .tReserved => .request 7 false [] 0
  | .wr32 off value => .busWrite off .b4 value
  | .wr16 off value => .busWrite off .b2 (value.setWidth 32)
  | .wr8 off value => .busWrite off .b1 (value.setWidth 32)
  | .rd32 off => .busRead off .b4
  | .rd16 off => .busRead off .b2
  | .rd8 off => .busRead off .b1
  | .start op => .line .start [op.code.toNat]
  | .starti op => .line .starti [op.code.toNat]
  | .poll off mask value => .line .poll [off.toNat, mask.toNat, value.toNat]
  | .waitdone => .line .waitdone []
  | .ack => .line .ack []
  | .load i bytes => .line .load (i :: bytes.map BitVec.toNat)

/-! ## The opcode table's words -/

/-- The code whose table bits are `w` (spec/opcode_table.json), every bit above `nbits` zero. The table gives four
interfaces one numbering; which one a width and a word mean is assumption 10:
8 bits are a request code (R108); 16 bits with bit 8 set are a start word (R106); other 16 bits are a frame's first two
bytes, `(byte0 << 8) | byte1` (R101), laid out to the end of its header; 32 bits are a CTRL word. -/
def tableCode (nbits w : Nat) : Option Code :=
  if nbits = 8 then
    if w < 8 then
      some (.request (BitVec.ofNat 3 w) false (if w = 3 then [0x00] else []) 0)
    else none
  else if nbits = 16 then
    if w < 2 ^ 16 then
      if (w / 256) % 2 = 1 then some (.ctrl (BitVec.ofNat 32 w))
      else some (.frame ([BitVec.ofNat 8 (w / 256), BitVec.ofNat 8 w] ++
        List.replicate (if w % 256 = 0 then 4 else 8) 0x00))
    else none
  else if nbits = 32 then
    if w < 2 ^ 32 then some (.ctrl (BitVec.ofNat 32 w)) else none
  else none

/-- The instruction the decoder reads from a table word. -/
def decodeTableWord (nbits w : Nat) : Option Instr :=
  match tableCode nbits w with
  | none => none
  | some c => match decode c with
    | .instr i => some i
    | .bad _ => none

end Sys2Proof
end

