-- ==== Sys2Proof/Machine/State.lean ====
section
/-!
DEFINITION. The state of the block (10_state.md) and of its environment, the ways a step can stop, and the state after reset.
-/

namespace Sys2Proof.Machine

/-- ST, the FSM state (R30): 4 bits. Twelve values have a name, four are unused. -/
inductive St where
  | idle | chunk | clear | dtrOn | rtsOn | tx | flush | rtsOff | dtrOff | waitC | rx | pace
  /-- The values 12 to 15, never reached (R30, I15). -/
  | unused (i : Fin 4)
  deriving DecidableEq, Repr

/-- The ERR codes of STATUS that exist (60_exceptions.md R243); the codes 7 to 15 are never produced. -/
inductive ErrCode where
  | none | io | timedOut | len | range | config | badCmd
  deriving DecidableEq, Repr

/-- The op of a transport request, which PEND holds (R49, R108). -/
inductive TOp where
  | clear | setDtr | setRts | write | flush | read | waitC
  deriving DecidableEq, Repr

/-- A transport request with its arguments (R108). -/
inductive Req where
  | clear
  | setDtr (val : Bool)
  | setRts (val : Bool)
  | write (data : List Byte)
  | flush
  | read (max : Word)
  | waitC
  deriving DecidableEq, Repr

/-- An event of the transport log (R23). -/
inductive Event where
  | issue (r : Req)
  | complete (op : TOp) (resp : Resp)
  | reset
  deriving DecidableEq, Repr

/-- What the host bus answers to one access (20_memory.md R63 to R69). -/
inductive Answer where
  /-- An admitted write. -/
  | written
  /-- An admitted read: the value, the bytes above the size zero. -/
  | value (v : Word)
  /-- BUSERR on a write (R64). -/
  | busErrWrite
  /-- BUSERR on a read, with "any value" (R64). -/
  | busErrRead (v : Word)
  deriving DecidableEq, Repr

/-- DATA: the bytes that a write or an operation has defined, as (offset, byte) pairs, offsets strictly rising. An
unlisted offset holds no defined value (R50): a read of it draws one from the oracle (assumption 4). -/
abbrev Memory := List Host.Cell

/-- Why the machine stops with a fault. Each is a defect of the model's own construction, or a request code that is
never issued: no run from reset raises one but by presenting the reserved request code. -/
inductive Fault where
  /-- ST holds an unused value (R30, I15: "It should fault, never continue"). Raised by `step`. Safe. -/
  | stUnused
  /-- Transport request code 7 (R108, I16). Raised by T_RESERVED. Safe. -/
  | reservedRequest
  /-- The outstanding request is not the one ST issues. Raised by a completion. Unreachable; safe. -/
  | pendMismatch
  /-- OPL has no meaning in this ST. Raised by CHUNK, DTR_OFF and RX. Unreachable; safe. -/
  | oplUnused
  /-- CHUNK with COUNT ≥ TOTAL (R208). Unreachable; safe. -/
  | chunkBounds
  /-- TX or RX with no byte left to ask for (R157, R163). Unreachable; safe. -/
  | requestBounds
  /-- The block's own access runs past DATA (R33). Unreachable; safe. -/
  | dataBounds
  /-- A payload whose length does not fit the u32 length field: "length-fits-in-u32" fails (R103, R138, I4 "fault"). Raised
  by FRAME_TEST and FRAME_WRITE on an ill-formed payload, which no presented frame carries. Safe. -/
  | lengthPastU32
  deriving DecidableEq, Repr

/-- Why the model gives a step no meaning. -/
inductive Refusal where
  /-- The instruction has no meaning yet. Raised by `exec`'s own arms. Safe. -/
  | notModelled (mnemonic : String)
  /-- A transport request that the sequencer does not issue in this state: no other agent uses the transport (R27, R253,
  I2 "refuse"). Raised by the T_ instructions. Safe. -/
  | requestNotIssued
  /-- A frame presented to the codec while FRAME holds the frame the sequencer is sending (R34). Raised by FRAME_TEST,
  FRAME_READ and FRAME_WRITE in those states. Safe. -/
  | frameInUse
  /-- A code that is no instruction. Raised by `step`. Safe. -/
  | undecodable (e : DecodeError)
  deriving DecidableEq, Repr

/-- The whole state: the registers of R28, the buffers of R33 and R34, the internal registers of R29, the time input of R22
and the transport log of R23; and, from `answers` on, the model's own record of the environment. -/
structure State where
  /-- The parameters of R6: PARAMS and BUFSIZE show them (R43, R44). -/
  params : Params
  /-- CTRL.OP (R35). -/
  op : BitVec 2
  /-- CTRL.IRQ_EN (R35). -/
  irqEn : Bool
  /-- STATUS.DONE (R36). -/
  done : Bool
  /-- STATUS.CMDREJ (R36). -/
  cmdrej : Bool
  /-- STATUS.ERR (R36, R243). -/
  err : ErrCode
  /-- ADDR (R37). -/
  addr : Word
  /-- LEN (R38). -/
  len : Word
  /-- THROUGHPUT (R39). -/
  throughput : Word
  /-- XCOUNT (R41). -/
  xcount : Word
  /-- DTR_S, the bit LINES.DTR (R42). -/
  dtr : Bool
  /-- RTS_S, the bit LINES.RTS (R42). -/
  rts : Bool
  /-- DATA (R33). -/
  data : Memory
  /-- FRAME[0..FLEN] (R34); the bytes past FLEN are never read (assumption 15). -/
  frame : List Byte
  /-- FLEN (R34). -/
  flen : BitVec 8
  /-- TX_IDX (R34). -/
  txIdx : BitVec 8
  /-- ST, the block's program counter (R30). -/
  st : St
  /-- OPL, the latched operation (R45). -/
  opl : BitVec 2
  /-- AL, the latched ADDR (R45). -/
  al : Word
  /-- TOTAL, the latched LEN (R45). -/
  total : Word
  /-- MIN_DUR, the latched MINDUR (R45). -/
  minDur : Word
  /-- COUNT (R46). -/
  count : Word
  /-- CSIZE (R46). -/
  csize : Word
  /-- T_START (R47). -/
  tStart : Time
  /-- RX_IDX (R48). -/
  rxIdx : Word
  /-- ZERO_CNT (R48). -/
  zeroCnt : BitVec 8
  /-- PEND, the op of the outstanding request (R49). -/
  pend : Option TOp
  /-- NOW, the time input (R22). -/
  now : Time
  /-- The transport log (R23). -/
  log : List Event
  /-- The model's: what the host bus has answered, oldest first. -/
  answers : List Answer
  /-- The model's: the reference decoder's last verdict on a frame that is no instruction of the block (R136). -/
  verdict : Option Verdict
  /-- The model's: the encoded instructions still to be presented; a host program is such a list (R110). -/
  prog : List Code
  /-- The model's: the environment's choices still to be taken (R11, R20). -/
  sched : List Act
  /-- The model's: how many free values have been drawn. -/
  draws : Nat
  deriving DecidableEq, Repr

/-- What a step or an instruction answers. -/
abbrev Out := Host.Outcome State Fault Refusal

/-- The state after reset (R50, R271): NOW is arbitrary there and 0 here (assumption 2); the fields of the environment,
which the spec does not give the block, are empty. -/
def State.reset : State where
  params := Params.srwp
  op := 0
  irqEn := false
  done := false
  cmdrej := false
  err := .none
  addr := 0
  len := 0
  throughput := 0
  xcount := 0
  dtr := false
  rts := false
  data := []
  frame := []
  flen := 0
  txIdx := 0
  st := .idle
  opl := 0
  al := 0
  total := 0
  minDur := 0
  count := 0
  csize := 0
  tStart := 0
  rxIdx := 0
  zeroCnt := 0
  pend := none
  now := 0
  log := [.reset]
  answers := []
  verdict := none
  prog := []
  sched := []
  draws := 0

end Sys2Proof.Machine
end

