-- ==== Sys2Proof/Machine/Flags.lean ====
section
/-!
DEFINITION. The status bits, the words of the host-visible registers and the interrupt line (10_state.md R30 to R44, 60_exceptions.md R249).
-/

namespace Sys2Proof.Machine

/-- The 4-bit encoding of ST (R30). -/
def St.code : St → BitVec 4
  | .idle => 0
  | .chunk => 1
  | .clear => 2
  | .dtrOn => 3
  | .rtsOn => 4
  | .tx => 5
  | .flush => 6
  | .rtsOff => 7
  | .dtrOff => 8
  | .waitC => 9
  | .rx => 10
  | .pace => 11
  | .unused i => BitVec.ofNat 4 (12 + i.val)

/-- Whether ST holds a value that is never reached (R30). -/
def St.isUnused : St → Bool
  | .unused _ => true
  | _ => false

/-- The 4-bit ERR codes (R243). -/
def ErrCode.code : ErrCode → BitVec 4
  | .none => 0
  | .io => 1
  | .timedOut => 2
  | .len => 3
  | .range => 4
  | .config => 5
  | .badCmd => 6

/-- The 3-bit request codes (R108). -/
def TOp.code : TOp → BitVec 3
  | .clear => 0
  | .setDtr => 1
  | .setRts => 2
  | .write => 3
  | .flush => 4
  | .read => 5
  | .waitC => 6

/-- STATUS.BUSY (R31). -/
def State.busy (s : State) : Bool := decide (s.st ≠ .idle)

/-- The IRQ output (R249). -/
def State.irq (s : State) : Bool := s.done && s.irqEn

/-- CTRL as read: START and the reserved bits read 0 (R35). -/
def State.ctrlWord (s : State) : Word :=
  (0 : BitVec 27) ++ BitVec.ofBool s.irqEn ++ (0 : BitVec 2) ++ s.op

/-- STATUS as read (R36). -/
def State.statusWord (s : State) : Word :=
  (0 : BitVec 20) ++ s.err.code ++ (0 : BitVec 5) ++ BitVec.ofBool s.cmdrej ++ BitVec.ofBool s.done ++
    BitVec.ofBool s.busy

/-- MINDUR, a function of THROUGHPUT (R40, R207): the marker 0xFFFFFFFF when it is 0. -/
def State.minDurWord (s : State) : Word :=
  if s.throughput = 0 then 0xFFFFFFFF
  else BitVec.ofNat 32 (s.params.msPerS * s.params.chunkMax / s.throughput.toNat)

/-- LINES as read (R42). -/
def State.linesWord (s : State) : Word :=
  (0 : BitVec 30) ++ BitVec.ofBool s.rts ++ BitVec.ofBool s.dtr

/-- PARAMS as read (R43). -/
def State.paramsWord (s : State) : Word :=
  (0 : BitVec 16) ++ BitVec.ofNat 8 s.params.zeroLimit ++ BitVec.ofNat 8 s.params.chunkMax

/-- BUFSIZE as read (R44). -/
def State.bufsizeWord (s : State) : Word := BitVec.ofNat 32 s.params.bufBytes

end Sys2Proof.Machine
end

