-- ==== Sys2Proof/Machine/Ops.lean ====
section
/-!
DEFINITION. The named operations over DATA and the registers, how an operation ends (complete, raise Error), how a START is
accepted, and the reset step.
-/

namespace Sys2Proof.Machine

/-! ## DATA -/

/-- The defined byte at an offset, if there is one. -/
def Memory.get : Memory → Nat → Option Byte
  | [], _ => none
  | (x, b) :: rest, a => if x = a then some b else Memory.get rest a

/-- DATA with one byte written, in the canonical form. -/
def Memory.set : Memory → Nat → Byte → Memory
  | [], a, b => [(a, b)]
  | (x, c) :: rest, a, b =>
    if a < x then (a, b) :: (x, c) :: rest
    else if a = x then (a, b) :: rest
    else (x, c) :: Memory.set rest a b

/-- MemWrite of R10: consecutive bytes from an offset. -/
def Memory.setMany : Memory → Nat → List Byte → Memory
  | m, _, [] => m
  | m, a, b :: bs => Memory.setMany (Memory.set m a b) (a + 1) bs

/-- Whether every listed offset is at least `lo` and the offsets rise strictly. -/
def Memory.risesFrom : Nat → Memory → Bool
  | _, [] => true
  | lo, (x, _) :: rest => decide (lo ≤ x) && Memory.risesFrom (x + 1) rest

/-- The canonical form of DATA: offsets strictly rising. An unlisted offset has no value, so no entry can equal it. -/
def Memory.wf (m : Memory) : Bool := Memory.risesFrom 0 m

/-- Whether every listed offset is below a bound. -/
def Memory.below (n : Nat) : Memory → Bool
  | [] => true
  | (x, _) :: rest => decide (x < n) && Memory.below n rest

/-! ## Free values -/

/-- `n` bytes of the oracle, from draw number `d` on ("any value": I7, I8). -/
def freeBytes (d : Nat) : Nat → List Byte
  | 0 => []
  | n + 1 => Config.freeByte d :: freeBytes (d + 1) n

/-- The byte of DATA at an offset: the defined one, or the oracle's draw number `d` (R50, I7). -/
def dataByte (m : Memory) (d a : Nat) : Byte := (m.get a).getD (Config.freeByte d)

/-- MemRead of R10: `n` bytes from an offset; draw `d + j` stands for the byte `j` if nothing has defined it. -/
def dataBytes (m : Memory) (d a : Nat) : Nat → List Byte
  | 0 => []
  | n + 1 => dataByte m d a :: dataBytes m (d + 1) (a + 1) n

/-! ## Single updates -/

/-- `pc <- S` (R10). -/
def State.goto (s : State) (st : St) : State := { s with st := st }

/-- `log(e)` (R10, R23). -/
def State.logged (s : State) (e : Event) : State := { s with log := s.log ++ [e] }

/-- The host bus answers. -/
def State.answered (s : State) (a : Answer) : State := { s with answers := s.answers ++ [a] }

/-- `n` free values have been drawn. -/
def State.drew (s : State) (n : Nat) : State := { s with draws := s.draws + n }

/-- MemWrite into DATA (R10). -/
def State.stored (s : State) (a : Nat) (bytes : List Byte) : State :=
  { s with data := s.data.setMany a bytes }

/-- A line that is not finished is presented again (R111). -/
def State.again (s : State) (c : Code) : State := { s with prog := c :: s.prog }

/-- The reference decoder's verdict is recorded (R135, R136). -/
def State.judged (s : State) (v : Verdict) : State := { s with verdict := some v }

/-- The frame codec fills FRAME, FLEN and TX_IDX (R130), with a frame that the FRAME buffer holds. -/
def State.framed (s : State) (bytes : List Byte) : State :=
  { s with frame := bytes, flen := BitVec.ofNat 8 bytes.length, txIdx := 0 }

/-- `FLEN <- n` of the encoders (R132, R133): where `n` does not fit FLEN's u8 the spec states no value, and it is the oracle's
draw number `d` (assumption 12). -/
def frameLength (d n : Nat) : BitVec 8 := if n < 256 then BitVec.ofNat 8 n else Config.freeByte d

/-- The codec on a frame longer than the FRAME buffer, which the block never builds (R7, R138): the bytes that FRAME has
room for, FLEN and TX_IDX as the encoder's rule says; what FRAME[0..FLEN] reads past the buffer is free (assumption 12). -/
def State.framedPast (s : State) (bytes : List Byte) : State :=
  let n := frameLength s.draws bytes.length
  { s with
    frame := (bytes.take s.params.frameMax ++ freeBytes (s.draws + 1) 255).take n.toNat
    flen := n
    txIdx := 0
    draws := s.draws + 256 }

/-- A request is issued: `PEND <- op` (R150). -/
def State.pending (s : State) (op : TOp) : State := { s with pend := some op }

/-- The outstanding request has completed: `PEND <- none` (R150). -/
def State.settled (s : State) : State := { s with pend := none }

/-! ## How an operation ends (60_exceptions.md section 1) -/

/-- `complete() with XCOUNT <- v` (R241). -/
def State.finish (s : State) (v : Word) : State :=
  { s with xcount := v, err := .none, done := true, st := .idle }

/-- `raise Error(code)` (R242): XCOUNT, the lines and DATA are unchanged. -/
def State.raiseError (s : State) (code : ErrCode) : State :=
  { s with err := code, done := true, st := .idle }

/-- Go on from a next state, stop otherwise. -/
def andThen (o : Out) (f : State → Out) : Out :=
  match o with
  | .next s => f s
  | .fault r => .fault r
  | .refused r => .refused r

/-! ## START (42_chunked_engine.md R200 to R206) -/

/-- The latch of an accepted START (R45, R200). -/
def State.latched (s : State) : State :=
  { s with
    opl := s.op, al := s.addr, total := s.len, minDur := s.minDurWord,
    done := false, err := .none, xcount := 0, count := 0 }

/-- What the acceptance checks say. -/
inductive Check where
  /-- Run the operation. -/
  | go
  /-- Complete at once (check 2). -/
  | nothing
  /-- Refuse with an error. -/
  | refuse (code : ErrCode)
  deriving DecidableEq, Repr

/-- Whether an operation code is READ or WRITE. -/
def isTransfer (opl : BitVec 2) : Bool := decide (opl = 1) || decide (opl = 2)

/-- The acceptance checks, in their order; the first that applies decides (R201, whose 2^32 is 2^ADDR_W: assumption 1). -/
def startCheck (p : Params) (opl : BitVec 2) (al total throughput : Word) : Check :=
  if opl = 3 then .refuse .badCmd
  else if isTransfer opl ∧ total = 0 then .nothing
  else if isTransfer opl ∧ p.bufBytes < total.toNat then .refuse .len
  else if opl = 0 ∧ p.testMax < total.toNat then .refuse .len
  else if isTransfer opl ∧ 2 ^ p.addrW < al.toNat + total.toNat then .refuse .range
  else if isTransfer opl ∧ throughput = 0 then .refuse .config
  else .go

/-- The START step on an idle block (R200, R201). -/
def State.accept (s : State) : State :=
  let t := s.latched
  match startCheck t.params t.opl t.al t.total t.throughput with
  | .go => t.goto .chunk
  | .nothing => t.finish 0
  | .refuse code => t.raiseError code

/-- A START request: accepted when idle, else dropped with CMDREJ (R200, R201). -/
def State.requestStart (s : State) : State :=
  if s.busy then { s with cmdrej := true } else s.accept

/-- A write to CTRL: OP and IRQ_EN whatever BUSY is, then START, in one step (R35). -/
def State.writeCtrl (s : State) (op : BitVec 2) (irqEn start : Bool) : State :=
  let t := { s with op := op, irqEn := irqEn }
  if start then t.requestStart else t

/-- A write to STATUS: a W1C bit is cleared where the word has a 1 (R36, R66). -/
def State.writeStatus (s : State) (done cmdrej : Bool) : State :=
  { s with done := s.done && !done, cmdrej := s.cmdrej && !cmdrej }

/-! ## Time and reset -/

/-- The first time that NOW's TIME_W bits cannot hold (R6, R22). -/
def State.timeEnd (s : State) : Nat := 2 ^ min s.params.timeW 64

/-- A clock step (R22): NOW rises by `n`, at least 1, and never past its TIME_W bits (assumption 3); else it is not enabled. -/
def clockStep (n : Nat) (s : State) : State :=
  if 1 ≤ n ∧ s.now.toNat + n < s.timeEnd then { s with now := BitVec.ofNat 64 (s.now.toNat + n) } else s

/-- The reset step (70_reset_and_hazards.md R270): every register and internal state of R50; NOW and the log are kept, and so
are the parameters and the environment's fields (assumption 23). -/
def resetStep (s : State) : State :=
  { State.reset with
    params := s.params
    now := s.now
    log := s.log ++ [.reset]
    answers := s.answers
    verdict := s.verdict
    prog := s.prog
    sched := s.sched
    draws := s.draws }

end Sys2Proof.Machine
end

