-- ==== Sys2Proof/Machine/Operands.lean ====
section
/-!
DEFINITION. The operand forms of a host access: which accesses are admitted, and what a read or a write of each place does
(20_memory.md R62 to R72).
-/

namespace Sys2Proof.Machine

/-- The ten registers of R28. -/
inductive Reg where
  | ctrl | status | addr | len | throughput | minDur | xcount | lines | params | bufsize
  deriving DecidableEq, Repr

/-- The register at an offset (R28). -/
def regAt (off : Nat) : Option Reg :=
  if off = 0x000 then some .ctrl
  else if off = 0x004 then some .status
  else if off = 0x008 then some .addr
  else if off = 0x00C then some .len
  else if off = 0x010 then some .throughput
  else if off = 0x014 then some .minDur
  else if off = 0x018 then some .xcount
  else if off = 0x01C then some .lines
  else if off = 0x020 then some .params
  else if off = 0x024 then some .bufsize
  else none

/-- What an access reaches. -/
inductive Place where
  | reg (r : Reg)
  /-- The DATA offset of the lowest byte. -/
  | data (a : Nat)
  | nowhere
  deriving DecidableEq, Repr

/-- The place of an access of `size` bytes at an offset; `nowhere` is one that R63 does not admit. -/
def placeAt (p : Params) (off size : Nat) : Place :=
  if off < 0x100 then
    if size = 4 then
      match regAt off with
      | some r => .reg r
      | none => .nowhere
    else .nowhere
  else if off + size ≤ 0x100 + p.bufBytes ∧ off % size = 0 then .data (off - 0x100)
  else .nowhere

/-- A register's value (R35 to R44, R65). -/
def State.readReg (s : State) : Reg → Word
  | .ctrl => s.ctrlWord
  | .status => s.statusWord
  | .addr => s.addr
  | .len => s.len
  | .throughput => s.throughput
  | .minDur => s.minDurWord
  | .xcount => s.xcount
  | .lines => s.linesWord
  | .params => s.paramsWord
  | .bufsize => s.bufsizeWord

/-- The low `n` bits of a word: what a register of `n` bits keeps of a write (R66; all 32 in this hardware, R37, R38; other widths
are assumption 1). -/
def lowBits (n : Nat) (w : Word) : Word := BitVec.ofNat 32 (w.toNat % 2 ^ n)

/-- A write to a register (R66): the read-only ones ignore it. -/
def State.writeReg (s : State) (r : Reg) (w : Word) : State :=
  match r with
  | .ctrl => s.writeCtrl (ctrlOp w) (ctrlIrqEn w) (ctrlStart w)
  | .status => s.writeStatus (w.getLsbD 1) (w.getLsbD 2)
  | .addr => { s with addr := lowBits s.params.addrW w }
  | .len => { s with len := lowBits s.params.lenW w }
  | .throughput => { s with throughput := w }
  | .minDur => s
  | .xcount => s
  | .lines => s
  | .params => s
  | .bufsize => s

/-- The bytes a DATA read answers: DATA when idle (R67), any value while BUSY (R69). -/
def State.hostBytes (s : State) (a size : Nat) : List Byte :=
  if s.busy then freeBytes s.draws size else dataBytes s.data s.draws a size

/-- What a read of `size` bytes at an offset answers (R64, R65, R67, R69). -/
def State.readAnswer (s : State) (off size : Nat) : Answer :=
  match placeAt s.params off size with
  | .reg r => .value (s.readReg r)
  | .data a => .value (fromLE (s.hostBytes a size))
  | .nowhere => .busErrRead (fromLE (freeBytes s.draws size))

/-- How many free values a read may use: one a byte, but for a register. -/
def State.readDraws (s : State) (off size : Nat) : Nat :=
  match placeAt s.params off size with
  | .reg _ => 0
  | .data _ => size
  | .nowhere => size

/-- One host read (R63 to R65, R67, R69): the block's own state is unchanged. -/
def State.busRead (s : State) (off size : Nat) : State :=
  (s.drew (s.readDraws off size)).answered (s.readAnswer off size)

/-- The value a read returned, whatever the answer. -/
def Answer.word : Answer → Word
  | .written => 0
  | .value v => v
  | .busErrWrite => 0
  | .busErrRead v => v

/-- One host write of the low `8*size` bits of a value (R63, R64, R66, R68, R69). -/
def State.busWrite (s : State) (off size : Nat) (value : Word) : State :=
  match placeAt s.params off size with
  | .reg r => (s.writeReg r value).answered .written
  | .data a => (if s.busy then s else s.stored a (leBytes size value)).answered .written
  | .nowhere => s.answered .busErrWrite

end Sys2Proof.Machine
end

