-- ==== Sys2Proof/Machine/Bus.lean ====
section
/-!
DEFINITION. The HOST_BUS family: one host access (20_memory.md section 2, 30_encoding.md R110).
-/

namespace Sys2Proof.Machine

/-- WR32 (R66, R68): a register, or four bytes of DATA. -/
def execWr32 (off value : Word) (s : State) : Out := .next (s.busWrite off.toNat 4 value)

/-- WR16 (R68): two bytes of DATA. -/
def execWr16 (off : Word) (value : BitVec 16) (s : State) : Out :=
  .next (s.busWrite off.toNat 2 (value.setWidth 32))

/-- WR8 (R68): one byte of DATA. -/
def execWr8 (off : Word) (value : Byte) (s : State) : Out :=
  .next (s.busWrite off.toNat 1 (value.setWidth 32))

/-- RD32 (R65, R67): a register, or four bytes of DATA. -/
def execRd32 (off : Word) (s : State) : Out := .next (s.busRead off.toNat 4)

/-- RD16 (R67): two bytes of DATA. -/
def execRd16 (off : Word) (s : State) : Out := .next (s.busRead off.toNat 2)

/-- RD8 (R67): one byte of DATA. -/
def execRd8 (off : Word) (s : State) : Out := .next (s.busRead off.toNat 1)

end Sys2Proof.Machine
end

