-- ==== Sys2Proof/Machine/Codec.lean ====
section
/-!
DEFINITION. The WIRE_FRAME family: the frame codec (40_frame_codec.md).
-/

namespace Sys2Proof.Machine

/-- The codec's one effect (R130): FRAME[0..FLEN], FLEN and TX_IDX. The block never builds a frame longer than the FRAME buffer
(R7, R138); one that is presented runs too (assumption 12). -/
def fillFrame (bytes : List Byte) (s : State) : State :=
  if bytes.length ≤ s.params.frameMax then s.framed bytes else s.framedPast bytes

/-- Whether FRAME holds a frame that is still to be sent: from the CHUNK that built it to the last WRITE (R34, R153, R157). -/
def St.sending : St → Bool
  | .clear => true
  | .dtrOn => true
  | .rtsOn => true
  | .tx => true
  | _ => false

/-- A frame with a payload of `n` bytes at the codec. FRAME "holds the encoded frame of the current transaction" (R34), so
while one is being sent the codec builds no other (assumption 12). The one check is "length-fits-in-u32" (R103), whose
failure is a fault (I4). -/
def codeFrame (n : Nat) (bytes : List Byte) (s : State) : Out :=
  if s.st.sending then .refused .frameInUse
  else if n < 2 ^ 32 then .next (fillFrame bytes s)
  else .fault .lengthPastU32

/-- FRAME_TEST: ENC_TEST (R133). -/
def execFrameTest (payload : List Byte) (s : State) : Out := codeFrame payload.length (encTest payload) s

/-- FRAME_READ: ENC_READ (R131), without a payload. -/
def execFrameRead (addr len : Word) (s : State) : Out := codeFrame 0 (encRead addr len) s

/-- FRAME_WRITE: ENC_WRITE (R132). -/
def execFrameWrite (addr : Word) (payload : List Byte) (s : State) : Out :=
  codeFrame payload.length (encWrite addr payload) s

/-- FRAME_INVALID_OPCODE: the reference decoder's verdict on the bytes `00 opc` (R136); the block is unchanged (R135). -/
def execFrameInvalidOpcode (opc : Byte) (s : State) : Out :=
  .next (s.judged (decodeFrame [0x00, opc]).1)

/-- FRAME_INVALID_PREFIX: the reference decoder's verdict on the bytes `cls opc` (R136); the block is unchanged (R135). -/
def execFrameInvalidPrefix (cls opc : Byte) (s : State) : Out :=
  .next (s.judged (decodeFrame [cls, opc]).1)

end Sys2Proof.Machine
end

