-- ==== Sys2Proof/Machine/Control.lean ====
section
/-!
DEFINITION. The CTRL_WORD and STATUS_WORD families: the host commands (30_encoding.md R105, R106; 10_state.md R35, R36). Each is a 32-bit
host write, which the bus answers as written.
-/

namespace Sys2Proof.Machine

/-- START_TEST (R221): a CTRL write with START = 1, OP = 0. -/
def execStartTest (irqEn : Bool) (s : State) : Out := .next ((s.writeCtrl 0 irqEn true).answered .written)

/-- START_READ (R219): a CTRL write with START = 1, OP = 1. -/
def execStartRead (irqEn : Bool) (s : State) : Out := .next ((s.writeCtrl 1 irqEn true).answered .written)

/-- START_WRITE (R220): a CTRL write with START = 1, OP = 2. -/
def execStartWrite (irqEn : Bool) (s : State) : Out := .next ((s.writeCtrl 2 irqEn true).answered .written)

/-- START_RESERVED (R201, R105): a CTRL write with START = 1, OP = 3. -/
def execStartReserved (irqEn : Bool) (s : State) : Out := .next ((s.writeCtrl 3 irqEn true).answered .written)

/-- CTRL_SET (R35, R106): a CTRL write with START = 0. -/
def execCtrlSet (op : BitVec 2) (irqEn : Bool) (s : State) : Out :=
  .next ((s.writeCtrl op irqEn false).answered .written)

/-- STATUS_W1C (R36, R66). -/
def execStatusW1c (done cmdrej : Bool) (s : State) : Out := .next ((s.writeStatus done cmdrej).answered .written)

end Sys2Proof.Machine
end

