-- ==== Sys2Proof/Machine/Script.lean ====
section
/-!
DEFINITION. The HOST_PSEUDO family (30_encoding.md R111). The host performs one bus access a step (R24), so a POLL that has not seen its value and a
LOAD that has bytes left are presented again (assumption 20).
-/

namespace Sys2Proof.Machine

/-- START: `WR32 CTRL, 0x100 + op` (R111). -/
def execStart (op : Op) (s : State) : Out :=
  .next (s.busWrite 0x000 4 (BitVec.ofNat 32 (0x100 + op.code.toNat)))

/-- STARTI: `WR32 CTRL, 0x110 + op` (R111). -/
def execStarti (op : Op) (s : State) : Out :=
  .next (s.busWrite 0x000 4 (BitVec.ofNat 32 (0x110 + op.code.toNat)))

/-- One read of a POLL; the line `c` stays until `(t & mask) == val` (R111). -/
def State.pollOnce (s : State) (off : Nat) (mask value : Word) (c : Code) : State :=
  let t := (s.readAnswer off 4).word
  if t &&& mask = value then s.busRead off 4 else (s.busRead off 4).again c

/-- POLL: `RD32 off -> t` until `(t & mask) == val` (R111). -/
def execPoll (off mask value : Word) (s : State) : Out :=
  .next (s.pollOnce off.toNat mask value (encode (.poll off mask value)))

/-- WAITDONE: `POLL STATUS, 0x00000002, 0x00000002` (R111). -/
def execWaitdone (s : State) : Out := .next (s.pollOnce 0x004 0x2 0x2 (encode .waitdone))

/-- ACK: `WR32 STATUS, 0x00000002` (R111). -/
def execAck (s : State) : Out := .next (s.busWrite 0x004 4 0x2)

/-- LOAD: `WR8 DATA+i, b0` and then the rest of the line (R111). -/
def execLoad (i : Nat) (bytes : List Byte) (s : State) : Out :=
  match bytes with
  | [] => .next s
  | [b] => .next (s.busWrite (0x100 + i) 1 (b.setWidth 32))
  | b :: rest =>
    .next ((s.busWrite (0x100 + i) 1 (b.setWidth 32)).again (encode (.load (i + 1) rest)))

end Sys2Proof.Machine
end

