-- ==== Sys2Proof/Machine/Transport.lean ====
section
/-!
DEFINITION. The TRANSPORT_REQ family: the sequencer issues a request (41_transaction_executor.md R150, the issue step of R154 to R165).
-/

namespace Sys2Proof.Machine

/-- The op of a request (R108). -/
def Req.op : Req → TOp
  | .clear => .clear
  | .setDtr _ => .setDtr
  | .setRts _ => .setRts
  | .write _ => .write
  | .flush => .flush
  | .read _ => .read
  | .waitC => .waitC

/-- The instruction that issues a request (R108). -/
def Req.instr : Req → Instr
  | .clear => .tClear
  | .setDtr val => .tSetDtr val
  | .setRts val => .tSetRts val
  | .write data => .tWrite data
  | .flush => .tFlush
  | .read max => .tRead max
  | .waitC => .tWaitC

/-- The bytes still to send: FRAME[TX_IDX..FLEN] (R157). -/
def State.unsent (s : State) : List Byte := (s.frame.take s.flen.toNat).drop s.txIdx.toNat

/-- The `max` of RX's READ: `CSIZE − RX_IDX` for READ (R163), TOTAL for TEST (R165). -/
def State.rxMax (s : State) : Word := if s.opl = 1 then s.csize - s.rxIdx else s.total

/-- Why a transport state issues nothing, if it does not. No run reaches such a state. -/
def State.cannotIssue (s : State) : Option Fault :=
  match s.st with
  | .tx => if s.unsent = [] then some .requestBounds else none
  | .rx =>
    if s.opl = 1 then (if s.rxIdx.toNat < s.csize.toNat then none else some .requestBounds)
    else if s.opl = 0 then none
    else some .oplUnused
  | _ => none

/-- The request of a transport state (R30, R154 to R165). -/
def State.request (s : State) : Option Req :=
  match s.st with
  | .clear => some .clear
  | .dtrOn => some (.setDtr true)
  | .rtsOn => some (.setRts true)
  | .tx => some (.write s.unsent)
  | .flush => some .flush
  | .rtsOff => some (.setRts false)
  | .dtrOff => some (.setDtr false)
  | .waitC => some .waitC
  | .rx => some (.read s.rxMax)
  | .idle => none
  | .chunk => none
  | .pace => none
  | .unused _ => none

/-- The issue step: `PEND <- op ; log(Issue(op, args))` (R150). -/
def State.issued (s : State) (r : Req) : State := (s.pending r.op).logged (.issue r)

/-- A request at the transport port. It is issued when the sequencer issues exactly it (R150); in any other state it has no
issuer (R27) and is refused (I2). -/
def issueRequest (r : Req) (s : State) : Out :=
  if s.pend = none ∧ s.cannotIssue = none ∧ s.request = some r then .next (s.issued r)
  else .refused .requestNotIssued

/-- T_CLEAR (R154). -/
def execTClear (s : State) : Out := issueRequest .clear s

/-- T_SET_DTR (R155, R160). -/
def execTSetDtr (val : Bool) (s : State) : Out := issueRequest (.setDtr val) s

/-- T_SET_RTS (R156, R159). -/
def execTSetRts (val : Bool) (s : State) : Out := issueRequest (.setRts val) s

/-- T_WRITE (R157). -/
def execTWrite (data : List Byte) (s : State) : Out := issueRequest (.write data) s

/-- T_FLUSH (R158). -/
def execTFlush (s : State) : Out := issueRequest .flush s

/-- T_READ (R163, R165). -/
def execTRead (max : Word) (s : State) : Out := issueRequest (.read max) s

/-- T_WAIT_C (R161). -/
def execTWaitC (s : State) : Out := issueRequest .waitC s

/-- T_RESERVED: code 7 is never issued (R108); "Transport request code 7 is never issued; seeing it is a fault" (I16). -/
def execTReserved (_s : State) : Out := .fault .reservedRequest

end Sys2Proof.Machine
end

