-- ==== Sys2Proof/Machine/Dispatch.lean ====
section
/-!
DEFINITION. exec: one arm per instruction.
-/

namespace Sys2Proof.Machine

def exec (i : Instr) (s : State) : Host.Outcome State Fault Refusal :=
  match i with
  | .frameTest payload => Sys2Proof.Machine.execFrameTest payload s
  | .frameRead addr len => Sys2Proof.Machine.execFrameRead addr len s
  | .frameWrite addr payload => Sys2Proof.Machine.execFrameWrite addr payload s
  | .frameInvalidOpcode opc => Sys2Proof.Machine.execFrameInvalidOpcode opc s
  | .frameInvalidPrefix cls opc => Sys2Proof.Machine.execFrameInvalidPrefix cls opc s
  | .startTest irqEn => Sys2Proof.Machine.execStartTest irqEn s
  | .startRead irqEn => Sys2Proof.Machine.execStartRead irqEn s
  | .startWrite irqEn => Sys2Proof.Machine.execStartWrite irqEn s
  | .startReserved irqEn => Sys2Proof.Machine.execStartReserved irqEn s
  | .ctrlSet op irqEn => Sys2Proof.Machine.execCtrlSet op irqEn s
  | .statusW1c done cmdrej => Sys2Proof.Machine.execStatusW1c done cmdrej s
  | .tClear => Sys2Proof.Machine.execTClear s
  | .tSetDtr val => Sys2Proof.Machine.execTSetDtr val s
  | .tSetRts val => Sys2Proof.Machine.execTSetRts val s
  | .tWrite data => Sys2Proof.Machine.execTWrite data s
  | .tFlush => Sys2Proof.Machine.execTFlush s
  | .tRead max => Sys2Proof.Machine.execTRead max s
  | .tWaitC => Sys2Proof.Machine.execTWaitC s
  | .tReserved => Sys2Proof.Machine.execTReserved s
  | .wr32 off value => Sys2Proof.Machine.execWr32 off value s
  | .wr16 off value => Sys2Proof.Machine.execWr16 off value s
  | .wr8 off value => Sys2Proof.Machine.execWr8 off value s
  | .rd32 off => Sys2Proof.Machine.execRd32 off s
  | .rd16 off => Sys2Proof.Machine.execRd16 off s
  | .rd8 off => Sys2Proof.Machine.execRd8 off s
  | .start op => Sys2Proof.Machine.execStart op s
  | .starti op => Sys2Proof.Machine.execStarti op s
  | .poll off mask value => Sys2Proof.Machine.execPoll off mask value s
  | .waitdone => Sys2Proof.Machine.execWaitdone s
  | .ack => Sys2Proof.Machine.execAck s
  | .load idx bytes => Sys2Proof.Machine.execLoad idx bytes s

end Sys2Proof.Machine
end

