-- ==== Sys2Proof/Machine/Executor.lean ====
section
/-!
DEFINITION. The transport's completion step: classification (41_transaction_executor.md R151) and the "on" clause of each state (R154 to R168).
-/

namespace Sys2Proof.Machine

/-- The op that a transport state has outstanding (R30). -/
def St.op : St → Option TOp
  | .clear => some .clear
  | .dtrOn => some .setDtr
  | .rtsOn => some .setRts
  | .tx => some .write
  | .flush => some .flush
  | .rtsOff => some .setRts
  | .dtrOff => some .setDtr
  | .waitC => some .waitC
  | .rx => some .read
  | .idle => none
  | .chunk => none
  | .pace => none
  | .unused _ => none

/-- Whether a WRITE's completion is OK(k): `1 ≤ k ≤ m` (R151). -/
def writeOk (m : Nat) (r : Resp) : Bool := r.ok && decide (1 ≤ r.count.toNat) && decide (r.count.toNat ≤ m)

/-- Whether a READ's completion is OK(n, bytes): `n ≤ max` and `len(bytes) = n` (R151). -/
def readOk (max : Word) (r : Resp) : Bool :=
  r.ok && decide (r.count.toNat ≤ max.toNat) && decide (r.bytes.length = r.count.toNat)

/-- Source step (d): `COUNT <- COUNT + CSIZE ; pc <- PACE` (R212). -/
def State.chunkEnd (s : State) : State := { s with count := s.count + s.csize, st := .pace }

/-- The receive-loop entry (R162). -/
def State.enterRx (s : State) : State := { s with rxIdx := 0, zeroCnt := 0, st := .rx }

/-- TX on OK(k) (R157). -/
def State.sent (s : State) (k : Word) : State :=
  let i := s.txIdx + k.setWidth 8
  { s with txIdx := i, st := if i = s.flen then .flush else .tx }

/-- DTR_OFF on OK: `DTR_S <- 0` and the dispatch on OPL (R160, R162, R166). -/
def onDtrOff (s : State) : Out :=
  let t := { s with dtr := false }
  if s.opl = 1 then .next (t.goto .waitC)
  else if s.opl = 2 then .next t.chunkEnd
  else if s.opl = 0 then .next (t.goto .rx)
  else .fault .oplUnused

/-- A zero read in RX of a READ (R164): the 11th in a row times out. -/
def onZeroRead (s : State) : State :=
  let t := { s with zeroCnt := s.zeroCnt + 1 }
  if s.params.zeroLimit < t.zeroCnt.toNat then t.raiseError .timedOut else t.goto .rx

/-- The block stores received bytes in DATA (R163, R165); it never runs past the buffer. -/
def storeData (a : Nat) (bytes : List Byte) (s : State) : Out :=
  if a + bytes.length ≤ s.params.bufBytes then .next (s.stored a bytes) else .fault .dataBounds

/-- A non-zero read in RX of a READ, once its bytes are stored (R163). -/
def State.received (s : State) (n : Word) : State :=
  let t := { s with rxIdx := s.rxIdx + n, zeroCnt := 0 }
  if t.rxIdx = t.csize then t.chunkEnd else t.goto .rx

/-- RX on OK(n, bytes) for READ (R163) and for TEST (R165). -/
def onRead (r : Resp) (s : State) : Out :=
  if s.opl = 1 then
    if r.count = 0 then .next (onZeroRead s)
    else andThen (storeData (s.count.toNat + s.rxIdx.toNat) r.bytes s) fun t => .next (t.received r.count)
  else if s.opl = 0 then
    andThen (storeData 0 r.bytes s) fun t => .next (t.finish r.count)
  else .fault .oplUnused

/-- The "on" clause of each state's rule, PEND already `none` (R154 to R167): ERR raises IO. -/
def onResp (r : Resp) (s : State) : Out :=
  match s.st with
  | .clear => .next (if r.ok then s.goto .dtrOn else s.raiseError .io)
  | .dtrOn => .next (if r.ok then State.goto { s with dtr := true } .rtsOn else s.raiseError .io)
  | .rtsOn => .next (if r.ok then State.goto { s with rts := true } .tx else s.raiseError .io)
  | .tx => .next (if writeOk s.unsent.length r then s.sent r.count else s.raiseError .io)
  | .flush => .next (if r.ok then s.goto .rtsOff else s.raiseError .io)
  | .rtsOff => .next (if r.ok then State.goto { s with rts := false } .dtrOff else s.raiseError .io)
  | .dtrOff => if r.ok then onDtrOff s else .next (s.raiseError .io)
  | .waitC => .next (if r.ok then s.enterRx else s.raiseError .io)
  | .rx => if readOk s.rxMax r then onRead r s else .next (s.raiseError .io)
  | .idle => .fault .pendMismatch
  | .chunk => .fault .pendMismatch
  | .pace => .fault .pendMismatch
  | .unused _ => .fault .pendMismatch

/-- The completion step (R150): the log, `PEND <- none`, the "on" clause. With nothing outstanding it is not enabled
(R272), and the choice is dropped (assumption 7). -/
def completeStep (r : Resp) (s : State) : Out :=
  match s.pend with
  | none => .next s
  | some op =>
    if s.st.op = some op then onResp r ((s.logged (.complete op r)).settled) else .fault .pendMismatch

end Sys2Proof.Machine
end

