-- ==== Sys2Proof/Machine/Engine.lean ====
section
/-!
DEFINITION. The chunked I/O engine (42_chunked_engine.md R208 to R214) and the sequencer's step (10_state.md R30).
-/

namespace Sys2Proof.Machine

/-- `min(TOTAL − COUNT, CHUNK_MAX)`, source step (a) (R208). -/
def State.chunkSize (s : State) : Nat := min (s.total.toNat - s.count.toNat) s.params.chunkMax

/-- Source steps (a) and (b): `CSIZE <- ...`, `T_START <- NOW` (R208). -/
def State.chunkBegun (s : State) : State :=
  { s with csize := BitVec.ofNat 32 s.chunkSize, tStart := s.now }

/-- MemRead by the block (R208), which never runs past the buffer: the bytes, with the draws they used counted. -/
def readData (a n : Nat) (s : State) (f : List Byte → State → Out) : Out :=
  if a + n ≤ s.params.bufBytes then f (dataBytes s.data s.draws a n) (s.drew n) else .fault .dataBounds

/-- The frame of a chunk, then `pc <- CLEAR` (R208). -/
def sendFrame (bytes : List Byte) (s : State) : Out := .next ((fillFrame bytes s).goto .clear)

/-- CHUNK of a READ (R208). -/
def chunkRead (s : State) : Out :=
  if s.count.toNat < s.total.toNat then
    let t := s.chunkBegun
    sendFrame (encRead (t.al + t.count) t.csize) t
  else .fault .chunkBounds

/-- CHUNK of a WRITE (R208, R210). -/
def chunkWrite (s : State) : Out :=
  if s.count.toNat < s.total.toNat then
    let t := s.chunkBegun
    readData t.count.toNat s.chunkSize t fun bytes u => sendFrame (encWrite (u.al + u.count) bytes) u
  else .fault .chunkBounds

/-- CHUNK of a TEST: one transaction of TOTAL bytes, T_START not sampled (R208, R217). -/
def chunkTest (s : State) : Out :=
  readData 0 s.total.toNat { s with csize := s.total } fun bytes u => sendFrame (encTest bytes) u

/-- State CHUNK, one internal step (R208). -/
def chunkStep (s : State) : Out :=
  if s.opl = 1 then chunkRead s
  else if s.opl = 2 then chunkWrite s
  else if s.opl = 0 then chunkTest s
  else .fault .oplUnused

/-- Whether PACE's step is enabled: `NOW − T_START ≥ MIN_DUR`, exactly (R8, R213). -/
def State.paced (s : State) : Bool := decide (s.tStart.toNat + s.minDur.toNat ≤ s.now.toNat)

/-- After pacing: the next chunk, or success (R214). -/
def State.afterPace (s : State) : State :=
  if s.count.toNat < s.total.toNat then s.goto .chunk else s.finish s.total

/-- The sequencer issues its state's request when none is outstanding; else it waits for the transport (R150). -/
def issueStep (s : State) : Out :=
  if s.pend = none then
    match s.cannotIssue, s.request with
    | some f, _ => .fault f
    | none, some r => .next (s.issued r)
    | none, none => .next s
  else .next s

/-- The sequencer's step (R30). In IDLE, in PACE before its time and with a request outstanding it has none, and the choice
is dropped (assumption 7). -/
def seqStep (s : State) : Out :=
  match s.st with
  | .idle => .next s
  | .chunk => chunkStep s
  | .pace => .next (if s.paced then s.afterPace else s)
  | .unused _ => .fault .stUnused
  | .clear => issueStep s
  | .dtrOn => issueStep s
  | .rtsOn => issueStep s
  | .tx => issueStep s
  | .flush => issueStep s
  | .rtsOff => issueStep s
  | .dtrOff => issueStep s
  | .waitC => issueStep s
  | .rx => issueStep s

end Sys2Proof.Machine
end

