-- ==== Sys2Proof/Machine/Act.lean ====
section
/-!
DEFINITION. One move of one agent (10_state.md R20, 00_scope.md R11), and how a table word is put where the next move takes it.
-/

namespace Sys2Proof.Machine

/-- An encoded instruction is presented: it is decoded and executed. A frame that is not whole gets the reference decoder's
verdict (R136); a code that is no instruction is refused. -/
def present (c : Code) (s : State) : Out :=
  match decode c with
  | .instr i => exec i s
  | .bad .incomplete => .next (s.judged .incomplete)
  | .bad e => .refused (.undecodable e)

/-- The next code is taken: the rest of the program, with what the code leaves over in front (R110, R135). -/
def State.advanced (s : State) (c : Code) (rest : List Code) : State := { s with prog := codeRest c ++ rest }

/-- The next code of `prog`, if there is one (R110). -/
def fetchStep (s : State) : Out :=
  match s.prog with
  | [] => .next s
  | c :: rest => present c (s.advanced c rest)

/-- One move of one agent (R20); a move that is not enabled changes nothing (assumption 7). -/
def runAct (a : Act) (s : State) : Out :=
  match a with
  | .fetch => fetchStep s
  | .seq => seqStep s
  | .complete r => completeStep r s
  | .tick n => .next (clockStep n s)
  | .reset => .next (resetStep s)

/-- The choices that are left. -/
def State.scheduled (s : State) (rest : List Act) : State := { s with sched := rest }

/-- Which agent moves next is the environment's choice (R11, R20): the one written in State, or the oracle's. -/
def moveStep (s : State) : Out :=
  match s.sched with
  | a :: rest => runAct a (s.scheduled rest)
  | [] => runAct (Config.freeAct s.draws) (s.drew 1)

/-- The state in which the sequencer issues a request word (R30), for a request word that is presented; code 7 has none. -/
def State.atPort (s : State) (top : BitVec 3) (val : Bool) (data : List Byte) (max : Word) : State :=
  if top = 0 then { s with st := .clear, pend := none }
  else if top = 1 then { s with st := if val then .dtrOn else .dtrOff, pend := none }
  else if top = 2 then { s with st := if val then .rtsOn else .rtsOff, pend := none }
  else if top = 3 then { s.framed data with st := .tx, pend := none }
  else if top = 4 then { s with st := .flush, pend := none }
  else if top = 5 then { s with st := .rx, opl := 0, total := max, pend := none }
  else if top = 6 then { s with st := .waitC, pend := none }
  else s

/-- What a presented code needs of the block: a transport request is issued in its own state only (R150). -/
def State.readyFor (s : State) : Code → State
  | .request top val data max => s.atPort top val data max
  | .frame _ => s
  | .ctrl _ => s
  | .status _ => s
  | .busWrite _ _ _ => s
  | .busRead _ _ => s
  | .line _ _ => s

/-- A code placed so that the very next move presents it. -/
def State.placed (s : State) (c : Code) : State :=
  { s.readyFor c with prog := c :: s.prog, sched := .fetch :: s.sched }

end Sys2Proof.Machine
end

