-- ==== Sys2Proof/Machine/Step.lean ====
section
/-!
DEFINITION. The step of the machine, and where the next instruction is fetched.
-/

namespace Sys2Proof.Machine

/-- One step: one atomic move of one agent (R11, R20). An unused ST faults (R30). -/
def step (s : State) : Host.Outcome State Fault Refusal :=
  if s.st.isUnused then .fault .stUnused else moveStep s

/-- `s` with a table word stored where the next step fetches its instruction. -/
def State.withFetchWord (s : State) (nbits w : Nat) : State :=
  match tableCode nbits w with
  | none => s
  | some c => s.placed c

end Sys2Proof.Machine
end

