-- ==== Sys2Proof/Safety.lean ====
section
/-!
DEFINITION. What a good state is: the invariant that every step keeps, in parts that each say one thing the spec says of the state.
-/

namespace Sys2Proof.Machine

/-- DATA is in its canonical form and inside the buffer (R33). -/
abbrev State.GoodData (s : State) : Prop :=
  s.data.wf = true ∧ s.data.below s.params.bufBytes = true

/-- ST has one of its twelve values, and an outstanding request is the one ST issues (R30, R49). -/
abbrev State.GoodPort (s : State) : Prop :=
  s.st.isUnused = false ∧ (s.pend = none ∨ s.pend = s.st.op)

/-- While an operation runs, no outcome is recorded (R200, R241, R242): DONE, ERR and XCOUNT are clear. -/
abbrev State.GoodStatus (s : State) : Prop :=
  s.busy = true → s.done = false ∧ s.err = .none ∧ s.xcount = 0

/-- T_START never lies in the future (R213, R22). -/
abbrev State.GoodTime (s : State) : Prop := s.tStart.toNat ≤ s.now.toNat

/-- The states of one transaction, CLEAR to RX (R153). -/
def St.inTransaction : St → Bool
  | .clear | .dtrOn | .rtsOn | .tx | .flush | .rtsOff | .dtrOff | .waitC | .rx => true
  | .idle | .chunk | .pace | .unused _ => false

/-- What a START acceptance establishes and a running operation keeps (R201, R203, R204, R205): OPL is an operation, and its
range lies in the buffer and in the device's address space. -/
abbrev State.GoodRequest (s : State) : Prop :=
  s.busy = true →
    (s.opl = 0 ∧ s.total.toNat ≤ s.params.testMax) ∨
    ((s.opl = 1 ∨ s.opl = 2) ∧ 1 ≤ s.total.toNat ∧ s.total.toNat ≤ s.params.bufBytes ∧
      s.al.toNat + s.total.toNat ≤ 2 ^ 32)

/-- Where the chunk loop of a READ or a WRITE stands (R208, R209, R212): a chunk is not empty, is at most CHUNK_MAX and lies in the request. -/
abbrev State.GoodChunk (s : State) : Prop :=
  (s.opl = 1 ∨ s.opl = 2) →
    (s.st = .chunk → s.count.toNat < s.total.toNat) ∧
    (s.st = .pace → s.count.toNat ≤ s.total.toNat) ∧
    (s.st.inTransaction = true → 1 ≤ s.csize.toNat ∧ s.csize.toNat ≤ s.params.chunkMax ∧
      s.count.toNat + s.csize.toNat ≤ s.total.toNat)

/-- Which operation may be in which state (R160, R161, R166, R217). -/
abbrev State.GoodPath (s : State) : Prop :=
  (s.st = .waitC → s.opl = 1) ∧ (s.st = .rx → s.opl = 1 ∨ s.opl = 0) ∧ (s.st = .pace → s.opl = 1 ∨ s.opl = 2)

/-- Each defined byte of `DATA[a..a+n]` stands in its place in FRAME, from offset `h` on (R208, R210). A byte of DATA that nothing has
defined is a free value (assumption 4). -/
abbrev State.FrameCarries (s : State) (h a n : Nat) : Prop :=
  ∀ j < n, s.data.get (a + j) = none ∨ s.data.get (a + j) = s.frame[h + j]?

/-- The frame of the chunk that is being sent (R131 to R133, R208, R209), with the bytes of DATA that it carries: those of the chunk for
a WRITE (R210), DATA[0..TOTAL] for a TEST (R217). -/
abbrev State.FrameOfChunk (s : State) : Prop :=
  (s.opl = 1 → s.frame = encRead (s.al + s.count) s.csize) ∧
  (s.opl = 2 → s.frame = encWrite (s.al + s.count) (s.frame.drop 10) ∧ (s.frame.drop 10).length = s.csize.toNat ∧
    s.FrameCarries 10 s.count.toNat s.csize.toNat) ∧
  (s.opl = 0 → s.frame = encTest (s.frame.drop 6) ∧ (s.frame.drop 6).length = s.total.toNat ∧
    s.FrameCarries 6 0 s.total.toNat)

/-- FRAME, FLEN and TX_IDX (R34, R130, R157): while a frame is being sent, it is the chunk's, it fits the FRAME buffer (R7), and a
byte of it is left. -/
abbrev State.GoodFrame (s : State) : Prop :=
  s.frame.length = s.flen.toNat ∧ s.txIdx.toNat ≤ s.flen.toNat ∧
    (s.st.sending = true → s.FrameOfChunk ∧ s.txIdx.toNat < s.flen.toNat ∧ s.flen.toNat ≤ s.params.frameMax)

/-- The lines are low once a frame is sent (R159, R160): RTS from RTS_OFF's completion on, both from DTR_OFF's. -/
abbrev State.GoodLines (s : State) : Prop :=
  (s.st = .dtrOff → s.rts = false) ∧
    (s.st = .waitC ∨ s.st = .rx ∨ s.st = .pace → s.dtr = false ∧ s.rts = false)

/-- The receive loop (R48, R162 to R164). -/
abbrev State.GoodRx (s : State) : Prop :=
  s.zeroCnt.toNat ≤ s.params.zeroLimit + 1 ∧
    (s.st = .rx → s.opl = 1 → s.rxIdx.toNat < s.csize.toNat ∧ s.zeroCnt.toNat ≤ s.params.zeroLimit)

/-- The invariant. -/
structure State.Inv (s : State) : Prop where
  params : s.params.wf
  data : s.GoodData
  port : s.GoodPort
  status : s.GoodStatus
  time : s.GoodTime
  request : s.GoodRequest
  chunk : s.GoodChunk
  path : s.GoodPath
  frame : s.GoodFrame
  lines : s.GoodLines
  rx : s.GoodRx

/-- The defects that a good state never shows: every fault but the one that a presented code can raise. -/
def Fault.isDefect : Fault → Bool
  | .reservedRequest => false
  | .stUnused | .pendMismatch | .oplUnused | .chunkBounds | .requestBounds | .dataBounds | .lengthPastU32 => true

/-! ## Words that statements about runs and starts use -/

/-- Whether an instruction asks for the start of TEST, READ or WRITE: a START row or its pseudo-instruction, or a 4-byte write to
CTRL with bit 8 set and an OP that is not the reserved one (R35, R105, R106, R111). -/
def startsOperation : Instr → Bool
  | .startTest _ | .startRead _ | .startWrite _ | .start _ | .starti _ => true
  | .wr32 off value => decide (off = 0x000) && ctrlStart value && decide (ctrlOp value ≠ 3)
  | .frameTest _ | .frameRead _ _ | .frameWrite _ _ | .frameInvalidOpcode _ | .frameInvalidPrefix _ _ => false
  | .startReserved _ | .ctrlSet _ _ | .statusW1c _ _ => false
  | .tClear | .tSetDtr _ | .tSetRts _ | .tWrite _ | .tFlush | .tRead _ | .tWaitC | .tReserved => false
  | .wr16 _ _ | .wr8 _ _ | .rd32 _ | .rd16 _ | .rd8 _ | .poll _ _ _ | .waitdone | .ack | .load _ _ => false

/-- The log of the WRITE requests that send `rest`, the transport taking `k` bytes of what is offered for each `k` of the list
(R157, the W+ of R170). -/
def writeEvents : List Byte → List Word → List Event
  | _, [] => []
  | rest, k :: ks =>
    .issue (.write rest) :: .complete .write ⟨true, k, []⟩ :: writeEvents (rest.drop k.toNat) ks

/-- The moves of those requests. -/
def writeMoves (ks : List Word) : List Act := (ks.map fun k => [Act.seq, .complete ⟨true, k, []⟩]).flatten

/-- An infinite run: every step answers the next state. -/
def IsRun (run : Nat → State) : Prop := ∀ n, step (run n) = .next (run (n + 1))

/-- A run that is fair to the clock (R22): NOW passes every value that its TIME_W bits can hold (assumption 3). Fairness is a property of an
infinite run, which no step can enforce: a statement that needs it has it as a premise (assumption 6). -/
def ClockFair (run : Nat → State) : Prop := ∀ b < (run 0).timeEnd, ∃ n, b ≤ (run n).now.toNat

end Sys2Proof.Machine
end

