-- ==== Sys2Proof/Certificates/Slice0/Obligations.lean ====
section
/-!
DEFINITION. The statements for the provers. Each is a claim about the machine for every state and operand that meets its
premises; a next state written as a record update says also that every field it does not name is unchanged.
-/

open Sys2Proof Sys2Proof.Machine

/-! ## Encodings -/

/-- R135, R137, with the appended bytes of R137's last sentence: the reference decoder inverts each encoder. -/
def Obligations.FrameDecoderInvertsEncoders : Prop :=
  ∀ (rest : List Byte),
    (∀ a l : Word, decodeFrame (encRead a l ++ rest) = (.read a l, 10)) ∧
    (∀ (a : Word) (p : List Byte), p.length < 2 ^ 32 →
      decodeFrame (encWrite a p ++ rest) = (.write a p, 10 + p.length)) ∧
    (∀ p : List Byte, p.length < 2 ^ 32 → decodeFrame (encTest p ++ rest) = (.test p, 6 + p.length))

/-- Every well-formed instruction, with every operand its encoding admits, is what its encoding decodes to (R101, R106,
R108, R111, R112; the layout of R111's and R112's lines is the model's, assumption 9). -/
def Obligations.DecodeOfEncodeIsTheInstruction : Prop :=
  ∀ (p : Params) (i : Instr), i.wellFormed p = true → decode (encode i) = .instr i

/-- Words written out from the spec's encodings: the frames of 95_test_vectors.md 1.1, the start words of R106, a request
code of R108 and a script tuple of R112. -/
def Obligations.WrittenWordsDecode : Prop :=
  decode (.frame [0x00, 0x01, 0x00, 0x01, 0x00, 0x00, 0x20, 0x00, 0x00, 0x00]) = .instr (.frameRead 0x100 32) ∧
  decode (.frame [0x00, 0x00, 0x02, 0x00, 0x00, 0x00, 0xDE, 0xAD]) = .instr (.frameTest [0xDE, 0xAD]) ∧
  decode (.ctrl 0x00000112) = .instr (.startWrite true) ∧
  decode (.ctrl 0x00000011) = .instr (.ctrlSet 1 true) ∧
  decode (.status 0x00000002) = .instr (.statusW1c true false) ∧
  decode (.request 0x2 true [] 0) = .instr (.tSetRts true) ∧
  decode (.busWrite 0x102 .b2 0x4433) = .instr (.wr16 0x102 0x4433)

/-- R36, R66, R105, R106: what a word written to CTRL or to STATUS by WR32 does is what the row it selects does. -/
def Obligations.ControlWordWriteIsItsRow : Prop :=
  ∀ (s : State) (w : Word),
    (w.getLsbD 8 = true → w.extractLsb' 0 2 = (0 : BitVec 2) →
      exec (.wr32 0x000 w) s = exec (.startTest (w.getLsbD 4)) s) ∧
    (w.getLsbD 8 = true → w.extractLsb' 0 2 = (1 : BitVec 2) →
      exec (.wr32 0x000 w) s = exec (.startRead (w.getLsbD 4)) s) ∧
    (w.getLsbD 8 = true → w.extractLsb' 0 2 = (2 : BitVec 2) →
      exec (.wr32 0x000 w) s = exec (.startWrite (w.getLsbD 4)) s) ∧
    (w.getLsbD 8 = true → w.extractLsb' 0 2 = (3 : BitVec 2) →
      exec (.wr32 0x000 w) s = exec (.startReserved (w.getLsbD 4)) s) ∧
    (w.getLsbD 8 = false → exec (.wr32 0x000 w) s = exec (.ctrlSet (w.extractLsb' 0 2) (w.getLsbD 4)) s) ∧
    exec (.wr32 0x004 w) s = exec (.statusW1c (w.getLsbD 1) (w.getLsbD 2)) s

/-! ## The step -/

/-- R11, R20: a step is the move that the environment chose: the one written in `sched`, or the oracle's, whatever it is
(assumption 6); a fetch runs the decoded instruction on the state with the program moved past it. -/
def Obligations.StepRunsTheFetchedInstruction : Prop :=
  (∀ (s : State) (rest : List Act) (c : Code) (more : List Code) (i : Instr),
    s.st.isUnused = false → s.sched = .fetch :: rest → s.prog = c :: more → decode c = .instr i →
      step s = exec i { s with sched := rest, prog := codeRest c ++ more }) ∧
  (∀ s : State, s.st.isUnused = false → s.sched = [] →
    step s = runAct (Config.freeAct s.draws) { s with draws := s.draws + 1 }) ∧
  (∀ (s : State) (c : Code) (more : List Code) (i : Instr), s.prog = c :: more → decode c = .instr i →
    runAct .fetch s = exec i { s with prog := codeRest c ++ more })

/-- The moves of the other agents. That agents move one at a time is R11's and R20's; that the field `sched` says which one moves is
the model's choice (assumption 6). -/
def Obligations.StepIsTheChosenMove : Prop :=
  ∀ (s : State) (rest : List Act), s.st.isUnused = false →
    (s.sched = .seq :: rest → step s = seqStep { s with sched := rest }) ∧
    (∀ r, s.sched = .complete r :: rest → step s = completeStep r { s with sched := rest }) ∧
    (∀ n, s.sched = .tick n :: rest → step s = .next (clockStep n { s with sched := rest })) ∧
    (s.sched = .reset :: rest → step s = .next (resetStep { s with sched := rest }))

/-- R30: a state whose ST holds an unused value faults, whichever agent would move. -/
def Obligations.UnusedStateFaults : Prop :=
  ∀ (s : State) (k : Fin 4), s.st = .unused k → step s = .fault .stUnused

/-- R30, R150: in a transport state with nothing outstanding the sequencer's step is the T_ instruction of its request. -/
def Obligations.SequencerStepIsItsRequest : Prop :=
  ∀ (s : State) (r : Req), s.pend = none → s.cannotIssue = none → s.request = some r →
    seqStep s = exec r.instr s ∧ seqStep s = .next { s with pend := some r.op, log := s.log ++ [.issue r] }

/-! ## Registers -/

/-- R28, R65: RD32 of each register answers its word and changes nothing else. -/
def Obligations.RegisterReadAnswersItsWord : Prop :=
  ∀ (s : State), ∀ p ∈ [((0x000 : Word), s.ctrlWord), (0x004, s.statusWord), (0x008, s.addr), (0x00C, s.len),
      (0x010, s.throughput), (0x014, s.minDurWord), (0x018, s.xcount), (0x01C, s.linesWord),
      (0x020, s.paramsWord), (0x024, s.bufsizeWord)],
    exec (.rd32 p.1) s = .next { s with answers := s.answers ++ [.value p.2] }

/-- R31, R35, R36, R40, R42, R43, R44, R243: the fields of the words, by their weights. -/
def Obligations.RegisterWordsHoldTheirFields : Prop :=
  ∀ (s : State),
    s.ctrlWord.toNat = s.op.toNat + 16 * s.irqEn.toNat ∧
    s.statusWord.toNat = (if s.st = .idle then 0 else 1) + 2 * s.done.toNat + 4 * s.cmdrej.toNat +
      256 * (match s.err with
        | .none => 0 | .io => 1 | .timedOut => 2 | .len => 3 | .range => 4 | .config => 5 | .badCmd => 6) ∧
    s.linesWord.toNat = s.dtr.toNat + 2 * s.rts.toNat ∧
    (s.throughput = 0 → s.minDurWord = 0xFFFFFFFF) ∧
    (s.params.wf → s.throughput ≠ 0 →
      s.minDurWord.toNat = s.params.msPerS * s.params.chunkMax / s.throughput.toNat) ∧
    (s.params = Params.srwp → s.throughput ≠ 0 → s.minDurWord.toNat = 32000 / s.throughput.toNat) ∧
    (s.params.wf → s.paramsWord.toNat = s.params.chunkMax + 256 * s.params.zeroLimit) ∧
    (s.params.wf → s.bufsizeWord.toNat = s.params.bufBytes) ∧
    (s.params = Params.srwp → s.paramsWord = 0x00000A20 ∧ s.bufsizeWord = 0x00001000)

/-- R66: WR32 to ADDR, LEN and THROUGHPUT stores the word, and WR32 to a read-only register is ignored, with no BUSERR. Where ADDR_W or
LEN_W is not this hardware's 32, ADDR and LEN keep the low ADDR_W and LEN_W bits: the model's reading of R6 (assumption 1). -/
def Obligations.RegisterWriteStoresOrIsIgnored : Prop :=
  ∀ (s : State) (w : Word),
    exec (.wr32 0x008 w) s = .next { s with
      addr := BitVec.ofNat 32 (w.toNat % 2 ^ s.params.addrW), answers := s.answers ++ [.written] } ∧
    exec (.wr32 0x00C w) s = .next { s with
      len := BitVec.ofNat 32 (w.toNat % 2 ^ s.params.lenW), answers := s.answers ++ [.written] } ∧
    (s.params = Params.srwp →
      exec (.wr32 0x008 w) s = .next { s with addr := w, answers := s.answers ++ [.written] } ∧
      exec (.wr32 0x00C w) s = .next { s with len := w, answers := s.answers ++ [.written] }) ∧
    exec (.wr32 0x010 w) s = .next { s with throughput := w, answers := s.answers ++ [.written] } ∧
    ∀ off ∈ [(0x014 : Word), 0x018, 0x01C, 0x020, 0x024],
      exec (.wr32 off w) s = .next { s with answers := s.answers ++ [.written] }

/-- R35, R36, R66: CTRL_SET writes OP and IRQ_EN whatever BUSY is and starts nothing; STATUS_W1C clears DONE and CMDREJ where
its bit is 1 and leaves BUSY and ERR. -/
def Obligations.CtrlSetAndStatusClear : Prop :=
  ∀ (s : State),
    (∀ (op : BitVec 2) (irqEn : Bool), exec (.ctrlSet op irqEn) s =
      .next { s with op := op, irqEn := irqEn, answers := s.answers ++ [.written] }) ∧
    (∀ d c : Bool, exec (.statusW1c d c) s =
      .next { s with
        done := if d then false else s.done
        cmdrej := if c then false else s.cmdrej
        answers := s.answers ++ [.written] })

/-- R249: IRQ is 1 exactly when DONE and IRQ_EN are; a W1C of DONE, a CTRL_SET without IRQ_EN, an accepted START and reset
lower it; a completion with IRQ_EN set, or setting IRQ_EN with DONE set, raises it. -/
def Obligations.InterruptFollowsDoneAndEnable : Prop :=
  ∀ (s : State),
    (s.irq = true ↔ s.done = true ∧ s.irqEn = true) ∧
    (∀ t, exec .ack s = .next t → t.irq = false) ∧
    (∀ c t, exec (.statusW1c true c) s = .next t → t.irq = false) ∧
    (∀ op t, exec (.ctrlSet op false) s = .next t → t.irq = false) ∧
    (∀ op t, exec (.ctrlSet op true) s = .next t → t.irq = s.done) ∧
    (s.accept.busy = true → s.accept.irq = false) ∧
    (s.irqEn = true → ∀ v e, (s.finish v).irq = true ∧ (s.raiseError e).irq = true) ∧
    (resetStep s).irq = false

/-! ## DATA and BUSERR -/

/-- R64, on the accesses that R63 does not admit: the block is unchanged, a write answers BUSERR, and a read answers BUSERR with
some value, which no premise fixes. -/
def Obligations.UnadmittedAccessIsBuserr : Prop :=
  ∀ (s : State) (off : Word),
    (¬(off.toNat ≤ 0x24 ∧ off.toNat % 4 = 0) →
      ¬(0x100 ≤ off.toNat ∧ off.toNat + 4 ≤ 0x100 + s.params.bufBytes ∧ off.toNat % 4 = 0) →
      (∀ v, exec (.wr32 off v) s = .next { s with answers := s.answers ++ [.busErrWrite] }) ∧
      ∃ v, exec (.rd32 off) s = .next { s with answers := s.answers ++ [.busErrRead v], draws := s.draws + 4 }) ∧
    (¬(0x100 ≤ off.toNat ∧ off.toNat + 2 ≤ 0x100 + s.params.bufBytes ∧ off.toNat % 2 = 0) →
      (∀ v, exec (.wr16 off v) s = .next { s with answers := s.answers ++ [.busErrWrite] }) ∧
      ∃ v, exec (.rd16 off) s = .next { s with answers := s.answers ++ [.busErrRead v], draws := s.draws + 2 }) ∧
    (¬(0x100 ≤ off.toNat ∧ off.toNat + 1 ≤ 0x100 + s.params.bufBytes) →
      (∀ v, exec (.wr8 off v) s = .next { s with answers := s.answers ++ [.busErrWrite] }) ∧
      ∃ v, exec (.rd8 off) s = .next { s with answers := s.answers ++ [.busErrRead v], draws := s.draws + 1 })

/-- R68: a DATA write on an idle block stores the value's bytes, lowest first, at `off - 0x100`, and no other byte. -/
def Obligations.DataWriteStoresLittleEndian : Prop :=
  ∀ (s : State) (off : Word), s.st = .idle → 0x100 ≤ off.toNat →
    (∀ v : Word, off.toNat + 4 ≤ 0x100 + s.params.bufBytes → off.toNat % 4 = 0 →
      ∃ t, exec (.wr32 off v) s = .next t ∧ t = { s with data := t.data, answers := s.answers ++ [.written] } ∧
        ∀ a, t.data.get a = if off.toNat - 0x100 ≤ a ∧ a < off.toNat - 0x100 + 4
          then some (v.extractLsb' (8 * (a - (off.toNat - 0x100))) 8) else s.data.get a) ∧
    (∀ v : BitVec 16, off.toNat + 2 ≤ 0x100 + s.params.bufBytes → off.toNat % 2 = 0 →
      ∃ t, exec (.wr16 off v) s = .next t ∧ t = { s with data := t.data, answers := s.answers ++ [.written] } ∧
        ∀ a, t.data.get a = if off.toNat - 0x100 ≤ a ∧ a < off.toNat - 0x100 + 2
          then some (v.extractLsb' (8 * (a - (off.toNat - 0x100))) 8) else s.data.get a) ∧
    (∀ v : Byte, off.toNat + 1 ≤ 0x100 + s.params.bufBytes →
      ∃ t, exec (.wr8 off v) s = .next t ∧ t = { s with data := t.data, answers := s.answers ++ [.written] } ∧
        ∀ a, t.data.get a = if a = off.toNat - 0x100 then some v else s.data.get a)

/-- R67, R71: a DATA read on an idle block answers the value whose byte `j` is the byte at `off - 0x100 + j`, wherever that byte
is defined, and whose bytes above the size are 0; it changes nothing but the record of answers and draws. -/
def Obligations.DataReadIsLittleEndian : Prop :=
  ∀ (s : State) (off : Word), s.st = .idle → 0x100 ≤ off.toNat →
    (off.toNat + 4 ≤ 0x100 + s.params.bufBytes → off.toNat % 4 = 0 →
      ∃ v : Word, exec (.rd32 off) s = .next { s with answers := s.answers ++ [.value v], draws := s.draws + 4 } ∧
        ∀ j < 4, ∀ b, s.data.get (off.toNat - 0x100 + j) = some b → v.extractLsb' (8 * j) 8 = b) ∧
    (off.toNat + 2 ≤ 0x100 + s.params.bufBytes → off.toNat % 2 = 0 →
      ∃ v : Word, exec (.rd16 off) s = .next { s with answers := s.answers ++ [.value v], draws := s.draws + 2 } ∧
        v.toNat < 2 ^ 16 ∧
        ∀ j < 2, ∀ b, s.data.get (off.toNat - 0x100 + j) = some b → v.extractLsb' (8 * j) 8 = b) ∧
    (off.toNat + 1 ≤ 0x100 + s.params.bufBytes →
      ∃ v : Word, exec (.rd8 off) s = .next { s with answers := s.answers ++ [.value v], draws := s.draws + 1 } ∧
        v.toNat < 2 ^ 8 ∧ ∀ b, s.data.get (off.toNat - 0x100) = some b → v.toNat = b.toNat)

/-- R69: a DATA access while BUSY is admitted; a write is dropped, a read answers some value, which no premise fixes, and
neither touches the block. -/
def Obligations.DataAccessWhileBusyHasNoEffect : Prop :=
  ∀ (s : State) (off : Word), s.st ≠ .idle → 0x100 ≤ off.toNat →
    (off.toNat + 4 ≤ 0x100 + s.params.bufBytes → off.toNat % 4 = 0 →
      (∀ v, exec (.wr32 off v) s = .next { s with answers := s.answers ++ [.written] }) ∧
      ∃ v, exec (.rd32 off) s = .next { s with answers := s.answers ++ [.value v], draws := s.draws + 4 }) ∧
    (off.toNat + 2 ≤ 0x100 + s.params.bufBytes → off.toNat % 2 = 0 →
      (∀ v, exec (.wr16 off v) s = .next { s with answers := s.answers ++ [.written] }) ∧
      ∃ v, exec (.rd16 off) s = .next { s with answers := s.answers ++ [.value v], draws := s.draws + 2 }) ∧
    (off.toNat + 1 ≤ 0x100 + s.params.bufBytes →
      (∀ v, exec (.wr8 off v) s = .next { s with answers := s.answers ++ [.written] }) ∧
      ∃ v, exec (.rd8 off) s = .next { s with answers := s.answers ++ [.value v], draws := s.draws + 1 })

/-- R72: four byte writes and then a 4-byte read at the lowest offset. -/
def Obligations.WordReadSeesFourByteWrites : Prop :=
  ∀ (s : State) (off : Word) (b0 b1 b2 b3 : Byte), s.st = .idle → 0x100 ≤ off.toNat →
    off.toNat + 4 ≤ 0x100 + s.params.bufBytes → off.toNat + 4 ≤ 2 ^ 32 → off.toNat % 4 = 0 →
    ∃ s1 s2 s3 s4, exec (.wr8 off b0) s = .next s1 ∧ exec (.wr8 (off + 1) b1) s1 = .next s2 ∧
      exec (.wr8 (off + 2) b2) s2 = .next s3 ∧ exec (.wr8 (off + 3) b3) s3 = .next s4 ∧
      exec (.rd32 off) s4 =
        .next { s4 with answers := s4.answers ++ [.value (b3 ++ b2 ++ b1 ++ b0)], draws := s4.draws + 4 }

/-! ## The frame codec -/

/-- R131, R132, R133, R130, R34: the three encoders fill FRAME, FLEN and TX_IDX and nothing else, with a frame that the buffer
holds. They do so whenever FRAME does not hold a frame that is still to be sent; then the model refuses (assumption 12). -/
def Obligations.EncodersFillTheFrame : Prop :=
  ∀ (s : State), s.params.wf →
    (s.st.sending = false →
      (∀ a l : Word, exec (.frameRead a l) s =
        .next { s with frame := [0x00, 0x01] ++ le32 a ++ le32 l, flen := 10, txIdx := 0 }) ∧
      (∀ (a : Word) (p : List Byte), 10 + p.length ≤ s.params.frameMax → exec (.frameWrite a p) s =
        .next { s with
          frame := [0x00, 0x02] ++ le32 a ++ le32 (BitVec.ofNat 32 p.length) ++ p
          flen := BitVec.ofNat 8 (10 + p.length)
          txIdx := 0 }) ∧
      (∀ p : List Byte, 6 + p.length ≤ s.params.frameMax → exec (.frameTest p) s =
        .next { s with
          frame := [0x00, 0x00] ++ le32 (BitVec.ofNat 32 p.length) ++ p
          flen := BitVec.ofNat 8 (6 + p.length)
          txIdx := 0 })) ∧
    (s.st.sending = true → ∀ (a l : Word) (p : List Byte),
      exec (.frameRead a l) s = .refused .frameInUse ∧ exec (.frameWrite a p) s = .refused .frameInUse ∧
      exec (.frameTest p) s = .refused .frameInUse)

/-- R130, R132, R133 on a frame that is longer than the FRAME buffer, which the block never builds: the instruction runs, FLEN takes the
frame's length where its u8 can hold it, TX_IDX is 0, and FRAME[0..FLEN] holds the frame's bytes as far as the buffer goes; no premise
fixes what it reads past the buffer, or a FLEN past its u8 (the model's choice, assumption 12). A payload whose length does not fit its u32
field faults (I4). -/
def Obligations.OverlongFramesFillTheBuffer : Prop :=
  ∀ (s : State), s.st.sending = false →
    (∀ (a : Word) (p : List Byte), s.params.frameMax < 10 + p.length → p.length < 2 ^ 32 →
      ∃ (f : List Byte) (n : BitVec 8),
        exec (.frameWrite a p) s = .next { s with frame := f, flen := n, txIdx := 0, draws := s.draws + 256 } ∧
        f.length = n.toNat ∧ (10 + p.length < 256 → n.toNat = 10 + p.length) ∧
        ∀ j < n.toNat, j < s.params.frameMax →
          f[j]? = ([0x00, 0x02] ++ le32 a ++ le32 (BitVec.ofNat 32 p.length) ++ p)[j]?) ∧
    (∀ p : List Byte, s.params.frameMax < 6 + p.length → p.length < 2 ^ 32 →
      ∃ (f : List Byte) (n : BitVec 8),
        exec (.frameTest p) s = .next { s with frame := f, flen := n, txIdx := 0, draws := s.draws + 256 } ∧
        f.length = n.toNat ∧ (6 + p.length < 256 → n.toNat = 6 + p.length) ∧
        ∀ j < n.toNat, j < s.params.frameMax →
          f[j]? = ([0x00, 0x00] ++ le32 (BitVec.ofNat 32 p.length) ++ p)[j]?) ∧
    (∀ (a : Word) (p : List Byte), 2 ^ 32 ≤ p.length →
      exec (.frameWrite a p) s = .fault .lengthPastU32 ∧ exec (.frameTest p) s = .fault .lengthPastU32)

/-- R107, R136: the reserved frames leave the block as it is, and the reference decoder's verdict on them is recorded. -/
def Obligations.ReservedFramesAreJudged : Prop :=
  ∀ (s : State) (b0 b1 : Byte),
    (b0 = 0 → 3 ≤ b1.toNat → exec (.frameInvalidOpcode b1) s = .next { s with verdict := some .invalidOpcode }) ∧
    (b0 ≠ 0 → exec (.frameInvalidPrefix b0 b1) s = .next { s with verdict := some .invalidPrefix }) ∧
    (b0 ≠ 0 → ∀ rest, decodeFrame (b0 :: b1 :: rest) = (.invalidPrefix, 0)) ∧
    (3 ≤ b1.toNat → ∀ rest, decodeFrame (0x00 :: b1 :: rest) = (.invalidOpcode, 0))

/-! ## START -/

/-- R35, R200, R201: the START rows. On an idle block the START latches, clears the outcome, and the first check that applies
decides; that the RANGE check compares with 2^ADDR_W, where R201 and R205 say 2^32, is the model's reading of R6 (assumption 1). While
BUSY it is dropped with CMDREJ; that OP and IRQ_EN are written all the same (R35), although R201 says "nothing else changes", is the
model's reading (assumption 17). -/
def Obligations.StartFollowsTheChecks : Prop :=
  ∀ (s : State) (irqEn : Bool), ∀ r ∈ [((0 : BitVec 2), Instr.startTest irqEn), (1, .startRead irqEn),
      (2, .startWrite irqEn), (3, .startReserved irqEn)],
    (s.st ≠ .idle → exec r.2 s =
      .next { s with op := r.1, irqEn := irqEn, cmdrej := true, answers := s.answers ++ [.written] }) ∧
    (s.st = .idle →
      let l : State := { s with
        op := r.1, irqEn := irqEn, opl := r.1, al := s.addr, total := s.len, minDur := s.minDurWord
        done := false, err := .none, xcount := 0, count := 0, answers := s.answers ++ [.written] }
      exec r.2 s = .next (
        if r.1 = 3 then { l with err := .badCmd, done := true }
        else if r.1 ≠ 0 ∧ s.len = 0 then { l with done := true }
        else if r.1 ≠ 0 ∧ s.params.bufBytes < s.len.toNat then { l with err := .len, done := true }
        else if r.1 = 0 ∧ s.params.testMax < s.len.toNat then { l with err := .len, done := true }
        else if r.1 ≠ 0 ∧ 2 ^ s.params.addrW < s.addr.toNat + s.len.toNat then { l with err := .range, done := true }
        else if r.1 ≠ 0 ∧ s.throughput = 0 then { l with err := .config, done := true }
        else { l with st := .chunk }))

/-- R202: a zero-length READ or WRITE completes in the START step, with no transport request, whatever ADDR and THROUGHPUT. -/
def Obligations.ZeroLengthTransferIsNoOp : Prop :=
  ∀ (s : State) (irqEn : Bool), s.st = .idle → s.len = 0 → ∀ i ∈ [Instr.startRead irqEn, .startWrite irqEn],
    ∃ t, exec i s = .next t ∧ t.st = .idle ∧ t.done = true ∧ t.err = .none ∧ t.xcount = 0 ∧ t.log = s.log ∧
      t.pend = s.pend ∧ t.data = s.data

/-! ## Host pseudo-instructions -/

/-- R111: START, STARTI and ACK are the writes they expand to. -/
def Obligations.PseudoWritesAreTheirExpansions : Prop :=
  ∀ (s : State),
    (∀ p ∈ [(Op.test, (0x100 : Word), (0x110 : Word)), (.read, 0x101, 0x111), (.write, 0x102, 0x112)],
      (∃ t, exec (.start p.1) s = .next t ∧ exec (.wr32 0x000 p.2.1) s = .next t) ∧
      ∃ t, exec (.starti p.1) s = .next t ∧ exec (.wr32 0x000 p.2.2) s = .next t) ∧
    exec .ack s = .next { s with done := false, answers := s.answers ++ [.written] } ∧
    exec (.wr32 0x004 0x00000002) s = exec .ack s

/-- R111: POLL reads once a step, and is presented again unless `(t & mask) == val`; WAITDONE is the POLL of STATUS.DONE. -/
def Obligations.PollRepeatsUntilItsValue : Prop :=
  ∀ (s : State),
    (∀ off mask v : Word, ∃ a d, exec (.rd32 off) s = .next { s with answers := s.answers ++ [a], draws := d } ∧
      exec (.poll off mask v) s = .next (
        if a.word &&& mask = v then { s with answers := s.answers ++ [a], draws := d }
        else { s with answers := s.answers ++ [a], draws := d, prog := encode (.poll off mask v) :: s.prog })) ∧
    exec .waitdone s = .next (
      if s.done then { s with answers := s.answers ++ [.value s.statusWord] }
      else { s with answers := s.answers ++ [.value s.statusWord], prog := encode .waitdone :: s.prog })

/-- R24, R111: LOAD writes one byte a step and is presented again with the rest, so as many fetches as it has bytes store them
all, at DATA offsets `i` on, and nothing else. -/
def Obligations.LoadStoresItsBytes : Prop :=
  ∀ (s : State) (i : Nat) (bs : List Byte) (code : List Code) (acts : List Act), s.st = .idle →
    bs ≠ [] → i + bs.length ≤ s.params.bufBytes →
    s.prog = encode (.load i bs) :: code → s.sched = List.replicate bs.length .fetch ++ acts →
    ∃ t : State, Sys2Proof.core.run bs.length s = .next t ∧
      t = { s with
        data := t.data, prog := code, sched := acts
        answers := s.answers ++ List.replicate bs.length .written } ∧
      ∀ a, t.data.get a = if i ≤ a ∧ a < i + bs.length then bs[a - i]? else s.data.get a

/-- R24, R111: one LOAD writes its first byte as WR8 does and leaves the rest of its line to be presented: on an idle block the
byte is stored, on a busy one it is dropped (R69), and past the buffer it answers BUSERR (R64). -/
def Obligations.LoadWritesOneByteAStep : Prop :=
  ∀ (s : State) (i : Nat) (b : Byte) (bs : List Byte),
    let rest : List Code := if bs = [] then s.prog else encode (.load (i + 1) bs) :: s.prog
    (i < s.params.bufBytes → s.st = .idle → ∃ t, exec (.load i (b :: bs)) s = .next t ∧
      t = { s with data := t.data, answers := s.answers ++ [.written], prog := rest } ∧
      ∀ a, t.data.get a = if a = i then some b else s.data.get a) ∧
    (i < s.params.bufBytes → s.st ≠ .idle →
      exec (.load i (b :: bs)) s = .next { s with answers := s.answers ++ [.written], prog := rest }) ∧
    (s.params.bufBytes ≤ i →
      exec (.load i (b :: bs)) s = .next { s with answers := s.answers ++ [.busErrWrite], prog := rest })

/-! ## Transport requests -/

/-- R150, R154 to R161, R163, R165: each T_ instruction, in the state that issues it with nothing outstanding, sets PEND and logs the
issue, and changes nothing else. -/
def Obligations.EachStateIssuesItsRequest : Prop :=
  ∀ (s : State), s.pend = none →
    (s.st = .clear → exec .tClear s = .next { s with pend := some .clear, log := s.log ++ [.issue .clear] }) ∧
    (s.st = .dtrOn → exec (.tSetDtr true) s =
      .next { s with pend := some .setDtr, log := s.log ++ [.issue (.setDtr true)] }) ∧
    (s.st = .rtsOn → exec (.tSetRts true) s =
      .next { s with pend := some .setRts, log := s.log ++ [.issue (.setRts true)] }) ∧
    (s.st = .tx → s.frame.length = s.flen.toNat → s.txIdx.toNat < s.flen.toNat →
      exec (.tWrite (s.frame.drop s.txIdx.toNat)) s =
        .next { s with pend := some .write, log := s.log ++ [.issue (.write (s.frame.drop s.txIdx.toNat))] }) ∧
    (s.st = .flush → exec .tFlush s = .next { s with pend := some .flush, log := s.log ++ [.issue .flush] }) ∧
    (s.st = .rtsOff → exec (.tSetRts false) s =
      .next { s with pend := some .setRts, log := s.log ++ [.issue (.setRts false)] }) ∧
    (s.st = .dtrOff → exec (.tSetDtr false) s =
      .next { s with pend := some .setDtr, log := s.log ++ [.issue (.setDtr false)] }) ∧
    (s.st = .waitC → exec .tWaitC s = .next { s with pend := some .waitC, log := s.log ++ [.issue .waitC] }) ∧
    (s.st = .rx → s.opl = 1 → s.rxIdx.toNat < s.csize.toNat →
      ∃ m : Word, m.toNat = s.csize.toNat - s.rxIdx.toNat ∧
        exec (.tRead m) s = .next { s with pend := some .read, log := s.log ++ [.issue (.read m)] }) ∧
    (s.st = .rx → s.opl = 0 →
      exec (.tRead s.total) s = .next { s with pend := some .read, log := s.log ++ [.issue (.read s.total)] })

/-- R27, R49, I2: with a request outstanding, or where the sequencer issues another or none, a T_ instruction is refused (the
model's reading of I2, assumption 14); code 7 faults in every state (R108, I16). -/
def Obligations.RequestOutOfPlaceIsRefused : Prop :=
  (∀ (s : State) (r : Req), s.pend ≠ none ∨ s.cannotIssue ≠ none ∨ s.request ≠ some r →
    exec r.instr s = .refused .requestNotIssued) ∧
  (∀ (s : State), exec .tReserved s = .fault .reservedRequest)

/-! ## Completions -/

/-- R150, R154, R155, R156, R158, R159, R161, R162: the states that issue a request without a count. The sequencer issues the state's request; its
completion is logged, ends the request, and an OK one moves on while an ERR one raises IO. -/
def Obligations.ControlLineStatesFollowTheirRules : Prop :=
  ∀ (s : State) (r : Resp),
    let issue : TOp → Req → State := fun o q => { s with pend := some o, log := s.log ++ [.issue q] }
    let done : TOp → State := fun o => { s with pend := none, log := s.log ++ [.complete o r] }
    let fail : TOp → State := fun o => { done o with err := .io, done := true, st := .idle }
    (s.st = .clear →
      (s.pend = none → seqStep s = .next (issue .clear .clear)) ∧
      (s.pend = some .clear → completeStep r s =
        .next (if r.ok then { done .clear with st := .dtrOn } else fail .clear))) ∧
    (s.st = .dtrOn →
      (s.pend = none → seqStep s = .next (issue .setDtr (.setDtr true))) ∧
      (s.pend = some .setDtr → completeStep r s =
        .next (if r.ok then { done .setDtr with dtr := true, st := .rtsOn } else fail .setDtr))) ∧
    (s.st = .rtsOn →
      (s.pend = none → seqStep s = .next (issue .setRts (.setRts true))) ∧
      (s.pend = some .setRts → completeStep r s =
        .next (if r.ok then { done .setRts with rts := true, st := .tx } else fail .setRts))) ∧
    (s.st = .flush →
      (s.pend = none → seqStep s = .next (issue .flush .flush)) ∧
      (s.pend = some .flush → completeStep r s =
        .next (if r.ok then { done .flush with st := .rtsOff } else fail .flush))) ∧
    (s.st = .rtsOff →
      (s.pend = none → seqStep s = .next (issue .setRts (.setRts false))) ∧
      (s.pend = some .setRts → completeStep r s =
        .next (if r.ok then { done .setRts with rts := false, st := .dtrOff } else fail .setRts))) ∧
    (s.st = .waitC →
      (s.pend = none → seqStep s = .next (issue .waitC .waitC)) ∧
      (s.pend = some .waitC → completeStep r s =
        .next (if r.ok then { done .waitC with rxIdx := 0, zeroCnt := 0, st := .rx } else fail .waitC)))

/-- R160, R166, R212: the completion of DTR_OFF lowers DTR and goes where the operation goes: WAIT_C for a READ, the chunk's end for a
WRITE, RX for a TEST. From a good state both lines are then low, before any response byte is read. -/
def Obligations.DtrOffDispatchesOnTheOperation : Prop :=
  ∀ (s : State) (r : Resp), s.st = .dtrOff → s.pend = some .setDtr →
    let t : State := { s with pend := none, log := s.log ++ [.complete .setDtr r] }
    (r.ok = false → completeStep r s = .next { t with err := .io, done := true, st := .idle }) ∧
    (r.ok = true → s.opl = 1 → completeStep r s = .next { t with dtr := false, st := .waitC }) ∧
    (r.ok = true → s.opl = 2 →
      completeStep r s = .next { t with dtr := false, count := s.count + s.csize, st := .pace }) ∧
    (r.ok = true → s.opl = 0 → completeStep r s = .next { t with dtr := false, st := .rx }) ∧
    (s.Inv → r.ok = true → ∃ u, completeStep r s = .next u ∧ u.dtr = false ∧ u.rts = false ∧ u.linesWord = 0)

/-- R151, R157: a WRITE that took `k` of the `m` bytes left advances TX_IDX by `k`; the frame's end leads to FLUSH, a rest is offered
again; `k = 0`, `k > m` and `ok = 0` raise IO. -/
def Obligations.PartialWriteIsResumed : Prop :=
  ∀ (s : State) (r : Resp), s.Inv → s.st = .tx → s.pend = some .write →
    let m := s.flen.toNat - s.txIdx.toNat
    let t : State := { s with pend := none, log := s.log ++ [.complete .write r] }
    (r.ok = true → 1 ≤ r.count.toNat → r.count.toNat ≤ m →
      ∃ i : BitVec 8, i.toNat = s.txIdx.toNat + r.count.toNat ∧
        completeStep r s = .next { t with txIdx := i, st := if i = s.flen then .flush else .tx }) ∧
    (r.ok = false ∨ r.count.toNat = 0 ∨ m < r.count.toNat →
      completeStep r s = .next { t with err := .io, done := true, st := .idle })

/-- R163, R212: a non-zero read of a READ stores its bytes at COUNT + RX_IDX, clears the zero-read counter, and ends the chunk when
it is full. -/
def Obligations.ReadStoresReceivedBytes : Prop :=
  ∀ (s : State) (r : Resp), s.Inv → s.st = .rx → s.opl = 1 → s.pend = some .read →
    r.ok = true → 1 ≤ r.count.toNat → r.count.toNat ≤ s.csize.toNat - s.rxIdx.toNat →
    r.bytes.length = r.count.toNat →
    ∃ t, completeStep r s = .next t ∧
      t = { s with
        pend := none, log := s.log ++ [.complete .read r], data := t.data
        rxIdx := s.rxIdx + r.count, zeroCnt := 0
        count := if s.rxIdx + r.count = s.csize then s.count + s.csize else s.count
        st := if s.rxIdx + r.count = s.csize then .pace else .rx } ∧
      ∀ a, t.data.get a =
        if s.count.toNat + s.rxIdx.toNat ≤ a ∧ a < s.count.toNat + s.rxIdx.toNat + r.bytes.length
        then r.bytes[a - (s.count.toNat + s.rxIdx.toNat)]? else s.data.get a

/-- R164: one zero read. -/
def Obligations.ZeroReadCountsOrTimesOut : Prop :=
  ∀ (s : State) (r : Resp), s.Inv → s.st = .rx → s.opl = 1 → s.pend = some .read →
    r.ok = true → r.count = 0 → r.bytes = [] →
    let t : State := { s with pend := none, log := s.log ++ [.complete .read r], zeroCnt := s.zeroCnt + 1 }
    completeStep r s = .next (
      if s.params.zeroLimit < s.zeroCnt.toNat + 1 then { t with err := .timedOut, done := true, st := .idle }
      else t)

/-- R164: consecutive zero reads from the receive loop's entry. After `k ≤ ZERO_LIMIT` of them the READ still polls; the next one,
number ZERO_LIMIT + 1 (the 11th), fails it with TIMEDOUT, and exactly that many READs were issued; an ERR in the place of any of
them fails it with IO. -/
def Obligations.TimeoutAfterExactlyElevenZeroReads : Prop :=
  ∀ (s : State) (k : Nat) (acts : List Act), s.Inv → s.st = .rx → s.opl = 1 → s.pend = none → s.zeroCnt = 0 →
    s.sched = (List.replicate k [Act.seq, .complete ⟨true, 0, []⟩]).flatten ++ acts →
    (k ≤ s.params.zeroLimit →
      ∃ t : State, Sys2Proof.core.run (2 * k) s = .next t ∧ t.st = .rx ∧ t.zeroCnt.toNat = k ∧ t.pend = none ∧
        t.done = s.done ∧ t.err = s.err ∧ t.data = s.data ∧ t.sched = acts) ∧
    (k = s.params.zeroLimit + 1 →
      ∃ t : State, Sys2Proof.core.run (2 * k) s = .next t ∧ t.st = .idle ∧ t.done = true ∧ t.err = .timedOut ∧
        t.xcount = s.xcount ∧ t.dtr = s.dtr ∧ t.rts = s.rts ∧ t.data = s.data ∧ t.sched = acts ∧
        t.log = s.log ++ (List.replicate k
          [Event.issue (.read (s.csize - s.rxIdx)), .complete .read ⟨true, 0, []⟩]).flatten) ∧
    (k ≤ s.params.zeroLimit → ∀ (r : Resp) (rest : List Act), r.ok = false → acts = .seq :: .complete r :: rest →
      ∃ t : State, Sys2Proof.core.run (2 * k + 2) s = .next t ∧ t.st = .idle ∧ t.done = true ∧ t.err = .io ∧
        t.sched = rest)

/-- R165, R241: the single READ of a TEST. Any `n ≤ TOTAL` is a success: the bytes are stored at DATA[0..n] and XCOUNT is `n`. -/
def Obligations.TestReadCompletesWithItsCount : Prop :=
  ∀ (s : State) (r : Resp), s.Inv → s.st = .rx → s.opl = 0 → s.pend = some .read →
    r.ok = true → r.count.toNat ≤ s.total.toNat → r.bytes.length = r.count.toNat →
    ∃ t, completeStep r s = .next t ∧
      t = { s with
        pend := none, log := s.log ++ [.complete .read r], data := t.data
        xcount := r.count, err := .none, done := true, st := .idle } ∧
      ∀ a, t.data.get a = if a < r.bytes.length then r.bytes[a]? else s.data.get a

/-- R151, R167, R168, R242, R245: an ERR completion in any transport state ends the operation with IO; XCOUNT, the lines and DATA
are unchanged. A READ's answer with `n > max` or with a byte count other than `n` is one. -/
def Obligations.ErrorCompletionRaisesIo : Prop :=
  ∀ (s : State) (r : Resp) (op : TOp), s.pend = some op → s.st.op = some op →
    (r.ok = false ∨ (s.st = .rx ∧ (s.rxMax.toNat < r.count.toNat ∨ r.bytes.length ≠ r.count.toNat))) →
    completeStep r s = .next { s with
      pend := none, log := s.log ++ [.complete op r], err := .io, done := true, st := .idle }

/-! ## The chunked engine -/

/-- R208, R209, R131: CHUNK of a READ. -/
def Obligations.ReadChunkBuildsItsFrame : Prop :=
  ∀ (s : State), s.Inv → s.st = .chunk → s.opl = 1 →
    ∃ n a : Word, n.toNat = min (s.total.toNat - s.count.toNat) s.params.chunkMax ∧
      a.toNat = s.al.toNat + s.count.toNat ∧
      seqStep s = .next { s with
        csize := n, tStart := s.now, frame := encRead a n, flen := 10, txIdx := 0, st := .clear }

/-- R208, R209, R210, R132: CHUNK of a WRITE sends DATA[COUNT..COUNT+CSIZE]: each defined byte of DATA, in its place. -/
def Obligations.WriteChunkBuildsItsFrame : Prop :=
  ∀ (s : State), s.Inv → s.st = .chunk → s.opl = 2 →
    ∃ (n a : Word) (p : List Byte), n.toNat = min (s.total.toNat - s.count.toNat) s.params.chunkMax ∧
      a.toNat = s.al.toNat + s.count.toNat ∧ p.length = n.toNat ∧
      (∀ j < p.length, ∀ b, s.data.get (s.count.toNat + j) = some b → p[j]? = some b) ∧
      seqStep s = .next { s with
        csize := n, tStart := s.now, frame := encWrite a p, flen := BitVec.ofNat 8 (10 + p.length), txIdx := 0
        st := .clear, draws := s.draws + p.length }

/-- R208, R217, R133: CHUNK of a TEST sends DATA[0..TOTAL]; T_START is not sampled. -/
def Obligations.TestChunkBuildsItsFrame : Prop :=
  ∀ (s : State), s.Inv → s.st = .chunk → s.opl = 0 →
    ∃ p : List Byte, p.length = s.total.toNat ∧
      (∀ j < p.length, ∀ b, s.data.get j = some b → p[j]? = some b) ∧
      seqStep s = .next { s with
        csize := s.total, frame := encTest p, flen := BitVec.ofNat 8 (6 + p.length), txIdx := 0
        st := .clear, draws := s.draws + p.length }

/-- R138: every frame that the sequencer builds decodes, whole, to a frame in the range of R138. -/
def Obligations.EmittedFramesAreInRange : Prop :=
  ∀ (s t : State), s.Inv → s.st = .chunk → seqStep s = .next t →
    (decodeFrame t.frame).1.emitted s.params = true ∧ (decodeFrame t.frame).2 = t.frame.length

/-- R34, R157, R208, R210: what a good state hands the transport in TX is the rest of the frame of its chunk, at least one byte; of a
WRITE and of a TEST, the frame carries each defined byte of its piece of DATA in its place (FrameOfChunk). -/
def Obligations.WriteRequestsCarryTheChunkFrame : Prop :=
  ∀ (s t : State) (data : List Byte), s.Inv → exec (.tWrite data) s = .next t →
    s.st = .tx ∧ data ≠ [] ∧ s.frame.take s.txIdx.toNat ++ data = s.frame ∧ s.FrameOfChunk

/-- R213, R214, R241: PACE holds until NOW − T_START ≥ MIN_DUR; then the next chunk starts, or the operation completes with XCOUNT
= TOTAL. -/
def Obligations.PaceHoldsThenMovesOn : Prop :=
  ∀ (s : State), s.st = .pace →
    (s.now.toNat < s.tStart.toNat + s.minDur.toNat → seqStep s = .next s) ∧
    (s.tStart.toNat + s.minDur.toNat ≤ s.now.toNat → s.count.toNat < s.total.toNat →
      seqStep s = .next { s with st := .chunk }) ∧
    (s.tStart.toNat + s.minDur.toNat ≤ s.now.toNat → s.total.toNat ≤ s.count.toNat →
      seqStep s = .next { s with xcount := s.total, err := .none, done := true, st := .idle })

/-- R213: no agent but reset takes the block out of PACE before its time. -/
def Obligations.PaceIsNeverCutShort : Prop :=
  ∀ (s t : State) (a : Act), s.st = .pace → a ≠ .reset → runAct a s = .next t → t.st ≠ .pace →
    s.tStart.toNat + s.minDur.toNat ≤ s.now.toNat

/-- R157, R166, R170, R212: the requests of one successful Write transaction in their order, from CLEAR to PACE, however the transport
splits the frame among its WRITE requests: the list `ks` says how many bytes it takes at each, at least one, together the frame. -/
def Obligations.WriteTransactionIssuesItsRequests : Prop :=
  ∀ (s : State) (ks : List Word) (acts : List Act), s.Inv → s.st = .clear → s.opl = 2 → s.pend = none → s.txIdx = 0 →
    (∀ k ∈ ks, 1 ≤ k.toNat) → (ks.map BitVec.toNat).sum = s.flen.toNat →
    let ok : Resp := ⟨true, 0, []⟩
    s.sched = [.seq, .complete ok, .seq, .complete ok, .seq, .complete ok] ++ writeMoves ks ++
      [.seq, .complete ok, .seq, .complete ok, .seq, .complete ok] ++ acts →
    ∃ t : State, Sys2Proof.core.run (2 * ks.length + 12) s = .next t ∧ t.st = .pace ∧ t.pend = none ∧ t.sched = acts ∧
      t.count = s.count + s.csize ∧ t.dtr = false ∧ t.rts = false ∧ t.data = s.data ∧
      t.log = s.log ++ [.issue .clear, .complete .clear ok, .issue (.setDtr true), .complete .setDtr ok,
        .issue (.setRts true), .complete .setRts ok] ++ writeEvents s.frame ks ++
        [.issue .flush, .complete .flush ok, .issue (.setRts false), .complete .setRts ok,
        .issue (.setDtr false), .complete .setDtr ok]

/-! ## Time and reset -/

/-- R22: no step lowers NOW, and only a clock step changes it; a clock step by `n`, at least 1, raises it by exactly `n` and changes nothing
else, as far as the TIME_W bits of NOW go (assumption 3). -/
def Obligations.NowNeverDecreases : Prop :=
  (∀ s t : State, step s = .next t → s.now.toNat ≤ t.now.toNat) ∧
  (∀ (s t : State) (a : Act), runAct a s = .next t → t.now ≠ s.now →
    ∃ n, a = .tick n ∧ 1 ≤ n ∧ t.now.toNat = s.now.toNat + n) ∧
  (∀ (s : State) (n : Nat), 1 ≤ n → s.now.toNat + n < s.timeEnd →
    ∃ v : Time, v.toNat = s.now.toNat + n ∧ runAct (.tick n) s = .next { s with now := v })

/-- R22, R213: in a run that is fair to the clock, PACE does not hold for ever. From a PACE whose end TIME_W bits can hold (assumption
3), a state comes that has left PACE, or whose sequencer step leaves it. -/
def Obligations.FairClockOpensPace : Prop :=
  ∀ run : Nat → State, IsRun run → ClockFair run → (run 0).st = .pace →
    (run 0).tStart.toNat + (run 0).minDur.toNat < (run 0).timeEnd →
    ∃ n, (run n).st ≠ .pace ∨ ∃ t, seqStep (run n) = .next t ∧ t.st ≠ .pace

/-- R270, R50, R272: the reset step in any state. Of the spec's state, NOW and the log are kept, with a Reset event added; what else is
kept is the model's own (assumptions 1 and 23), and FRAME, which R50 leaves unspecified, is empty (assumption 15). -/
def Obligations.ResetStepSetsEveryRegister : Prop :=
  ∀ (s : State), runAct .reset s = .next { s with
    op := 0, irqEn := false, done := false, cmdrej := false, err := .none, addr := 0, len := 0, throughput := 0
    xcount := 0, dtr := false, rts := false, data := [], frame := [], flen := 0, txIdx := 0, st := .idle
    opl := 0, al := 0, total := 0, minDur := 0, count := 0, csize := 0, tStart := 0, rxIdx := 0, zeroCnt := 0
    pend := none, log := s.log ++ [.reset] }

/-- R271: after reset every register holds its value in R50: STATUS reads 0, MINDUR reads 0xFFFFFFFF and IRQ is 0; likewise in
the state the model starts from. -/
def Obligations.AfterResetWords : Prop :=
  ∀ s t : State, s.params = Params.srwp → (t = State.reset ∨ runAct .reset s = .next t) →
    t.statusWord = 0x00000000 ∧ t.minDurWord = 0xFFFFFFFF ∧ t.irq = false ∧ t.ctrlWord = 0 ∧ t.addr = 0 ∧ t.len = 0 ∧
      t.throughput = 0 ∧ t.xcount = 0 ∧ t.linesWord = 0 ∧ t.paramsWord = 0x00000A20 ∧ t.bufsizeWord = 0x00001000 ∧
      t.pend = none ∧ t.st = .idle

/-! ## Rules of the whole machine -/

/-- The invariant of Safety.lean holds after reset. -/
def Obligations.GoodAtReset : Prop := State.reset.Inv

/-- Every step of every agent keeps the invariant: DATA's canonical form, the legality of ST and PEND, the outcome bits clear while
BUSY, the range of the request and of the chunk, the frame being sent with its bytes of DATA, the lines low once it is sent, the receive
loop's counters and T_START ≤ NOW. -/
def Obligations.EveryStepKeepsTheInvariant : Prop :=
  ∀ s t : State, s.Inv → step s = .next t → t.Inv

/-- R20, R30: from a good state every move of the sequencer, the transport, the clock and reset answers a next state. A move whose agent has
no enabled step leaves the whole state as it is, in every state: a completion with nothing outstanding (R272), the sequencer with a request
outstanding (R150, R256), in IDLE (R30) and in PACE before its time (R213), a clock move by 0 or past NOW's bits (assumption 3), and a fetch
with no program left. That such a move answers the state itself is the model's reading (assumption 7). -/
def Obligations.BlockMovesNeverStop : Prop :=
  (∀ (s : State) (a : Act), s.Inv → a ≠ .fetch → ∃ t, runAct a s = .next t) ∧
  ∀ s : State,
    (s.pend = none → ∀ r, runAct (.complete r) s = .next s) ∧
    (s.pend ≠ none → s.st.op ≠ none → runAct .seq s = .next s) ∧
    (s.st = .idle → runAct .seq s = .next s) ∧
    (s.st = .pace → s.now.toNat < s.tStart.toNat + s.minDur.toNat → runAct .seq s = .next s) ∧
    (∀ n, n = 0 ∨ s.timeEnd ≤ s.now.toNat + n → runAct (.tick n) s = .next s) ∧
    (s.prog = [] → runAct .fetch s = .next s)

/-- R30, I15: from a good state no step shows a defect; the only fault is a presented request code 7 (I16). -/
def Obligations.NoDefectFromGoodState : Prop :=
  ∀ (s : State) (f : Fault), s.Inv → step s = .fault f → f.isDefect = false

/-- R23: the transport log is append-only, and a step adds at most one event. -/
def Obligations.LogIsAppendOnly : Prop :=
  ∀ s t : State, step s = .next t → t.log = s.log ∨ ∃ e, t.log = s.log ++ [e]

/-- R49, R78, R150: a request is issued only when none is outstanding, is the whole request of ST (its operands too), and is then the one
outstanding. -/
def Obligations.OneRequestOutstanding : Prop :=
  ∀ (s t : State) (r : Req), step s = .next t → t.log = s.log ++ [.issue r] →
    s.pend = none ∧ s.request = some r ∧ t.pend = some r.op ∧ s.st.op = some r.op ∧ t.st = s.st

/-- R45, R284: while BUSY no move but reset changes a latched copy. -/
def Obligations.LatchesHoldWhileBusy : Prop :=
  ∀ (s t : State) (a : Act), s.st ≠ .idle → a ≠ .reset → runAct a s = .next t →
    t.opl = s.opl ∧ t.al = s.al ∧ t.total = s.total ∧ t.minDur = s.minDur

/-- R69, R77, R285: while BUSY no fetched instruction changes DATA, and only a READ's completion does but for reset. -/
def Obligations.DataIsOwnedWhileBusy : Prop :=
  ∀ (s t : State) (a : Act), s.st ≠ .idle → runAct a s = .next t → t.data ≠ s.data →
    a = .reset ∨ ∃ r, a = .complete r ∧ s.pend = some .read ∧ s.st = .rx ∧ r.ok = true

/-- R169: DTR_S and RTS_S change only at the OK completion of their SET request, to that request's value, or by reset. -/
def Obligations.LinesChangeOnlyAtSetCompletions : Prop :=
  ∀ (s t : State) (a : Act), a ≠ .reset → runAct a s = .next t →
    (t.dtr ≠ s.dtr → ∃ r, a = .complete r ∧ r.ok = true ∧ s.pend = some .setDtr ∧
      (s.st = .dtrOn ∧ t.dtr = true ∨ s.st = .dtrOff ∧ t.dtr = false)) ∧
    (t.rts ≠ s.rts → ∃ r, a = .complete r ∧ r.ok = true ∧ s.pend = some .setRts ∧
      (s.st = .rtsOn ∧ t.rts = true ∨ s.st = .rtsOff ∧ t.rts = false))

/-- R274, R32: an idle block with nothing outstanding issues nothing, and leaves IDLE only for CHUNK, by a presented instruction that asks
for the start of TEST, READ or WRITE. -/
def Obligations.IdleLeavesOnlyByStart : Prop :=
  ∀ (s t : State) (a : Act), s.st = .idle → s.pend = none → runAct a s = .next t →
    (t.st = .idle ∨ t.st = .chunk ∧ a = .fetch ∧
      ∃ c rest i, s.prog = c :: rest ∧ decode c = .instr i ∧ startsOperation i = true) ∧
    t.pend = none ∧ (t.log = s.log ∨ a = .reset)

/-- R41, R242, R241: XCOUNT changes only by an accepted START, by reset, and by a success, which sets it with DONE. -/
def Obligations.TransferCountChangesOnlyAtOutcomes : Prop :=
  ∀ (s t : State) (a : Act), s.st ≠ .idle → a ≠ .reset → runAct a s = .next t → t.xcount ≠ s.xcount →
    t.st = .idle ∧ t.done = true ∧ t.err = .none ∧ (t.xcount = s.total ∨ s.opl = 0)
end

