-- ==== Sys2Proof/Laws/Bytes.lean ====
section
/-!
SUPPORT. Byte order: the little-endian sequences and their inverse (R9, R70, R71), and what an encoded frame decodes to (R137).
-/

namespace Sys2Proof

@[simp] theorem leBytes_length (n : Nat) (v : Word) : (leBytes n v).length = n := by
  induction n generalizing v with
  | zero => rfl
  | succ n ih => simp [leBytes, ih]

@[simp] theorem le32_length (v : Word) : (le32 v).length = 4 := leBytes_length 4 v

theorem fromLE_lt (bs : List Byte) (h : bs.length ≤ 4) : (fromLE bs).toNat < 256 ^ bs.length := by
  induction bs with
  | nil => simp [fromLE]
  | cons b bs ih =>
    have h1 := ih (by simp at h; omega)
    have hb := b.isLt
    simp only [fromLE, BitVec.toNat_ofNat, List.length_cons, pow_succ]
    exact lt_of_le_of_lt (Nat.mod_le _ _) (by omega)

theorem fromLE_cons (b : Byte) (bs : List Byte) (h : bs.length ≤ 3) :
    (fromLE (b :: bs)).toNat = b.toNat + 256 * (fromLE bs).toNat := by
  have h1 := fromLE_lt bs (by omega)
  have h2 : 256 ^ bs.length ≤ 256 ^ 3 := Nat.pow_le_pow_right (by omega) h
  have hb := b.isLt
  simp only [fromLE, BitVec.toNat_ofNat]
  exact Nat.mod_eq_of_lt (by omega)

/-- Reading back an `n`-byte little-endian sequence gives the low `8*n` bits (R67, R68, R71). -/
theorem fromLE_leBytes (n : Nat) (v : Word) (h : n ≤ 4) : (fromLE (leBytes n v)).toNat = v.toNat % 256 ^ n := by
  induction n generalizing v with
  | zero => simp [leBytes, fromLE, Nat.mod_one]
  | succ n ih =>
    rw [leBytes, fromLE_cons _ _ (by simp; omega), ih _ (by omega), pow_succ, Nat.mul_comm _ 256, Nat.mod_mul]
    simp [BitVec.extractLsb'_toNat, BitVec.toNat_ushiftRight, Nat.shiftRight_eq_div_pow]

/-- `fromLE32` inverts `LE32` (R9). -/
@[simp] theorem fromLE_le32 (v : Word) : fromLE (le32 v) = v := by
  apply BitVec.eq_of_toNat_eq
  rw [le32, fromLE_leBytes 4 v (by omega)]
  exact Nat.mod_eq_of_lt v.isLt

/-- `LE32` as its four bytes. -/
theorem le32_bytes (v : Word) : ∃ b0 b1 b2 b3, le32 v = [b0, b1, b2, b3] ∧ fromLE [b0, b1, b2, b3] = v :=
  ⟨_, _, _, _, rfl, fromLE_le32 v⟩

theorem encRead_length (a l : Word) : (encRead a l).length = 10 := by simp [encRead]

theorem encWrite_length (a : Word) (p : List Byte) : (encWrite a p).length = 10 + p.length := by
  simp [encWrite]; omega

theorem encTest_length (p : List Byte) : (encTest p).length = 6 + p.length := by
  simp [encTest]; omega

/-- The payload of a Write frame stands after its ten header bytes (R132). -/
theorem encWrite_payload (a : Word) (p : List Byte) (j : Nat) : (encWrite a p)[10 + j]? = p[j]? := by
  simp [encWrite, le32, leBytes, Nat.add_comm 10 j]

/-- The payload of a Test frame stands after its six header bytes (R133). -/
theorem encTest_payload (p : List Byte) (j : Nat) : (encTest p)[6 + j]? = p[j]? := by
  simp [encTest, le32, leBytes, Nat.add_comm 6 j]

theorem bytesOfNats_map (bs : List Byte) : bytesOfNats (bs.map BitVec.toNat) = some bs := by
  induction bs with
  | nil => rfl
  | cons b bs ih =>
    have hb : b.toNat < 256 := b.isLt
    simp [bytesOfNats, hb, ih]

/-- Byte `j` of `LEE(v, n)` is `v[8j+7:8j]` (R68). -/
theorem leBytes_getElem? (n : Nat) (v : Word) (j : Nat) (h : j < n) :
    (leBytes n v)[j]? = some (v.extractLsb' (8 * j) 8) := by
  induction n generalizing v j with
  | zero => omega
  | succ n ih =>
    cases j with
    | zero => simp [leBytes]
    | succ j =>
      simp only [leBytes, List.getElem?_cons_succ, ih _ j (by omega)]
      congr 1
      ext i hi
      simp
      congr 1
      omega

/-- Byte `j` of `fromLE(bs)` is `bs[j]` (R67, R71). -/
theorem fromLE_extract (bs : List Byte) (h : bs.length ≤ 4) (j : Nat) (hj : j < bs.length) :
    (fromLE bs).extractLsb' (8 * j) 8 = bs[j] := by
  induction bs generalizing j with
  | nil => simp at hj
  | cons b bs ih =>
    have hc := fromLE_cons b bs (by simp at h; omega)
    apply BitVec.eq_of_toNat_eq
    simp only [BitVec.extractLsb'_toNat, hc]
    cases j with
    | zero => simp; omega
    | succ j =>
      have hb := congrArg BitVec.toNat (ih (by simp at h; omega) j (by simpa using hj))
      simp only [BitVec.extractLsb'_toNat, Nat.shiftRight_eq_div_pow] at hb ⊢
      simp only [List.getElem_cons_succ]
      rw [← hb, Nat.mul_add, Nat.pow_add, Nat.mul_comm (2 ^ (8 * j)), ← Nat.div_div_eq_div_mul]
      have e : (b.toNat + 256 * (fromLE bs).toNat) / 2 ^ (8 * 1) = (fromLE bs).toNat := by
        have := b.isLt
        omega
      rw [e]

end Sys2Proof
end

