-- ==== Sys2Proof/Laws/Memory.lean ====
section
/-!
SUPPORT. DATA: a read after a write, the frame of a write, and the canonical form that every memory operation keeps.
-/

namespace Sys2Proof.Machine

@[simp] theorem Memory.get_nil (a : Nat) : Memory.get [] a = none := rfl

theorem Memory.get_set (m : Memory) (a x : Nat) (b : Byte) :
    (Memory.set m a b).get x = if x = a then some b else m.get x := by
  induction m with
  | nil => simp only [Memory.set, Memory.get, eq_comm]
  | cons e rest ih =>
    obtain ⟨y, c⟩ := e
    by_cases h1 : a < y
    · rw [Memory.set, if_pos h1, Memory.get]
      by_cases h : x = a
      · rw [if_pos h.symm, if_pos h]
      · rw [if_neg (Ne.symm h), if_neg h]
    · by_cases h2 : a = y
      · rw [Memory.set, if_neg h1, if_pos h2, Memory.get, Memory.get]
        by_cases h : x = a
        · rw [if_pos h.symm, if_pos h]
        · rw [if_neg (Ne.symm h), if_neg h, if_neg (h2 ▸ Ne.symm h)]
      · rw [Memory.set, if_neg h1, if_neg h2, Memory.get, Memory.get, ih]
        by_cases h : y = x
        · rw [if_pos h, if_pos h, if_neg (by omega)]
        · rw [if_neg h, if_neg h]

@[simp] theorem Memory.get_set_same (m : Memory) (a : Nat) (b : Byte) : (Memory.set m a b).get a = some b := by
  simp [Memory.get_set]

theorem Memory.get_set_other (m : Memory) {a x : Nat} (b : Byte) (h : x ≠ a) :
    (Memory.set m a b).get x = m.get x := by
  simp [Memory.get_set, h]

/-- MemWrite changes exactly the bytes it names (R10). -/
theorem Memory.get_setMany (m : Memory) (a x : Nat) (bs : List Byte) :
    (Memory.setMany m a bs).get x = if a ≤ x ∧ x < a + bs.length then bs[x - a]? else m.get x := by
  induction bs generalizing m a with
  | nil =>
    have h : ¬(a ≤ x ∧ x < a + ([] : List Byte).length) := by simp
    rw [if_neg h]
    rfl
  | cons b bs ih =>
    rw [Memory.setMany, ih, Memory.get_set]
    by_cases hx : x = a
    · subst hx
      simp
    · by_cases hin : a + 1 ≤ x ∧ x < a + 1 + bs.length
      · have h' : a ≤ x ∧ x < a + (b :: bs).length := by simp; omega
        have hs : x - a = (x - (a + 1)) + 1 := by omega
        rw [if_pos hin, if_pos h', hs, List.getElem?_cons_succ]
      · have h' : ¬(a ≤ x ∧ x < a + (b :: bs).length) := by simp; omega
        rw [if_neg hin, if_neg h', if_neg hx]

theorem Memory.get_setMany_outside (m : Memory) {a x : Nat} (bs : List Byte) (h : x < a ∨ a + bs.length ≤ x) :
    (Memory.setMany m a bs).get x = m.get x := by
  rw [Memory.get_setMany, if_neg (by omega)]

theorem Memory.risesFrom_mono {lo lo' : Nat} {m : Memory} (h : Memory.risesFrom lo m = true) (hl : lo' ≤ lo) :
    Memory.risesFrom lo' m = true := by
  cases m with
  | nil => rfl
  | cons e rest =>
    obtain ⟨y, c⟩ := e
    simp [Memory.risesFrom] at h ⊢
    exact ⟨by omega, h.2⟩

theorem Memory.risesFrom_set {lo a : Nat} {m : Memory} (b : Byte) (h : Memory.risesFrom lo m = true) (ha : lo ≤ a) :
    Memory.risesFrom lo (Memory.set m a b) = true := by
  induction m generalizing lo with
  | nil => simp [Memory.set, Memory.risesFrom, ha]
  | cons e rest ih =>
    obtain ⟨y, c⟩ := e
    simp [Memory.risesFrom] at h
    unfold Memory.set
    split_ifs with h1 h2
    · simp [Memory.risesFrom, ha, h.2]; omega
    · subst h2
      simp [Memory.risesFrom, ha, h.2]
    · simp [Memory.risesFrom, h.1]
      exact ih h.2 (by omega)

/-- Writing a byte keeps the canonical form. -/
theorem Memory.wf_set {m : Memory} (a : Nat) (b : Byte) (h : m.wf = true) : (Memory.set m a b).wf = true :=
  Memory.risesFrom_set b h (Nat.zero_le a)

/-- MemWrite keeps the canonical form. -/
theorem Memory.wf_setMany {m : Memory} (a : Nat) (bs : List Byte) (h : m.wf = true) :
    (Memory.setMany m a bs).wf = true := by
  induction bs generalizing m a with
  | nil => exact h
  | cons b bs ih => exact ih (a + 1) (Memory.wf_set a b h)

theorem Memory.below_set {n a : Nat} {m : Memory} (b : Byte) (h : m.below n = true) (ha : a < n) :
    (Memory.set m a b).below n = true := by
  induction m with
  | nil => simp [Memory.set, Memory.below, ha]
  | cons e rest ih =>
    obtain ⟨y, c⟩ := e
    simp [Memory.below] at h
    unfold Memory.set
    split_ifs with h1 h2
    · simp [Memory.below, ha, h]
    · simp [Memory.below, ha, h]
    · simp [Memory.below, h.1, ih h.2]

/-- MemWrite inside the buffer leaves DATA inside the buffer. -/
theorem Memory.below_setMany {n : Nat} {m : Memory} (a : Nat) (bs : List Byte) (h : m.below n = true)
    (ha : a + bs.length ≤ n) : (Memory.setMany m a bs).below n = true := by
  induction bs generalizing m a with
  | nil => exact h
  | cons b bs ih =>
    simp at ha
    exact ih (a + 1) (Memory.below_set b h (by omega)) (by omega)

/-- The reset state's DATA has the canonical form. -/
theorem Memory.wf_reset : State.reset.data.wf = true := rfl

@[simp] theorem freeBytes_length (d n : Nat) : (freeBytes d n).length = n := by
  induction n generalizing d with
  | zero => rfl
  | succ n ih => simp [freeBytes, ih]

@[simp] theorem dataBytes_length (m : Memory) (d a n : Nat) : (dataBytes m d a n).length = n := by
  induction n generalizing d a with
  | zero => rfl
  | succ n ih => simp [dataBytes, ih]

/-- MemRead's byte `j` (R10). -/
theorem dataBytes_getElem? (m : Memory) (d a n j : Nat) (hj : j < n) :
    (dataBytes m d a n)[j]? = some (dataByte m (d + j) (a + j)) := by
  induction n generalizing d a j with
  | zero => omega
  | succ n ih =>
    cases j with
    | zero => rfl
    | succ j =>
      rw [dataBytes, List.getElem?_cons_succ, ih _ _ _ (by omega)]
      congr 2 <;> omega

/-- Where every byte is defined, MemRead answers the defined bytes and no free value. -/
theorem dataBytes_of_defined (m : Memory) (d a : Nat) (bs : List Byte)
    (h : ∀ j, j < bs.length → m.get (a + j) = bs[j]?) : dataBytes m d a bs.length = bs := by
  induction bs generalizing d a with
  | nil => rfl
  | cons b bs ih =>
    have h0 : m.get a = some b := by simpa using h 0 (by simp)
    have ht : dataBytes m (d + 1) (a + 1) bs.length = bs := by
      refine ih _ _ fun j hj => ?_
      have := h (j + 1) (by simp; omega)
      rw [List.getElem?_cons_succ] at this
      rw [← this]
      congr 1
      omega
    simp [dataBytes, dataByte, h0, ht]

end Sys2Proof.Machine
end

