-- ==== Sys2Proof/Laws/State.lean ====
section
/-!
SUPPORT. One lemma per field per update: what each named update of State leaves in each field. Every proof is rfl.
-/

namespace Sys2Proof.Machine

variable (s : State)

/-! ### State.goto -/

@[simp] theorem State.goto_params (x : St) : (s.goto x).params = s.params := rfl
@[simp] theorem State.goto_op (x : St) : (s.goto x).op = s.op := rfl
@[simp] theorem State.goto_irqEn (x : St) : (s.goto x).irqEn = s.irqEn := rfl
@[simp] theorem State.goto_done (x : St) : (s.goto x).done = s.done := rfl
@[simp] theorem State.goto_cmdrej (x : St) : (s.goto x).cmdrej = s.cmdrej := rfl
@[simp] theorem State.goto_err (x : St) : (s.goto x).err = s.err := rfl
@[simp] theorem State.goto_addr (x : St) : (s.goto x).addr = s.addr := rfl
@[simp] theorem State.goto_len (x : St) : (s.goto x).len = s.len := rfl
@[simp] theorem State.goto_throughput (x : St) : (s.goto x).throughput = s.throughput := rfl
@[simp] theorem State.goto_xcount (x : St) : (s.goto x).xcount = s.xcount := rfl
@[simp] theorem State.goto_dtr (x : St) : (s.goto x).dtr = s.dtr := rfl
@[simp] theorem State.goto_rts (x : St) : (s.goto x).rts = s.rts := rfl
@[simp] theorem State.goto_data (x : St) : (s.goto x).data = s.data := rfl
@[simp] theorem State.goto_frame (x : St) : (s.goto x).frame = s.frame := rfl
@[simp] theorem State.goto_flen (x : St) : (s.goto x).flen = s.flen := rfl
@[simp] theorem State.goto_txIdx (x : St) : (s.goto x).txIdx = s.txIdx := rfl
@[simp] theorem State.goto_st (x : St) : (s.goto x).st = x := rfl
@[simp] theorem State.goto_opl (x : St) : (s.goto x).opl = s.opl := rfl
@[simp] theorem State.goto_al (x : St) : (s.goto x).al = s.al := rfl
@[simp] theorem State.goto_total (x : St) : (s.goto x).total = s.total := rfl
@[simp] theorem State.goto_minDur (x : St) : (s.goto x).minDur = s.minDur := rfl
@[simp] theorem State.goto_count (x : St) : (s.goto x).count = s.count := rfl
@[simp] theorem State.goto_csize (x : St) : (s.goto x).csize = s.csize := rfl
@[simp] theorem State.goto_tStart (x : St) : (s.goto x).tStart = s.tStart := rfl
@[simp] theorem State.goto_rxIdx (x : St) : (s.goto x).rxIdx = s.rxIdx := rfl
@[simp] theorem State.goto_zeroCnt (x : St) : (s.goto x).zeroCnt = s.zeroCnt := rfl
@[simp] theorem State.goto_pend (x : St) : (s.goto x).pend = s.pend := rfl
@[simp] theorem State.goto_now (x : St) : (s.goto x).now = s.now := rfl
@[simp] theorem State.goto_log (x : St) : (s.goto x).log = s.log := rfl
@[simp] theorem State.goto_answers (x : St) : (s.goto x).answers = s.answers := rfl
@[simp] theorem State.goto_verdict (x : St) : (s.goto x).verdict = s.verdict := rfl
@[simp] theorem State.goto_prog (x : St) : (s.goto x).prog = s.prog := rfl
@[simp] theorem State.goto_sched (x : St) : (s.goto x).sched = s.sched := rfl
@[simp] theorem State.goto_draws (x : St) : (s.goto x).draws = s.draws := rfl

/-! ### State.logged -/

@[simp] theorem State.logged_params (e : Event) : (s.logged e).params = s.params := rfl
@[simp] theorem State.logged_op (e : Event) : (s.logged e).op = s.op := rfl
@[simp] theorem State.logged_irqEn (e : Event) : (s.logged e).irqEn = s.irqEn := rfl
@[simp] theorem State.logged_done (e : Event) : (s.logged e).done = s.done := rfl
@[simp] theorem State.logged_cmdrej (e : Event) : (s.logged e).cmdrej = s.cmdrej := rfl
@[simp] theorem State.logged_err (e : Event) : (s.logged e).err = s.err := rfl
@[simp] theorem State.logged_addr (e : Event) : (s.logged e).addr = s.addr := rfl
@[simp] theorem State.logged_len (e : Event) : (s.logged e).len = s.len := rfl
@[simp] theorem State.logged_throughput (e : Event) : (s.logged e).throughput = s.throughput := rfl
@[simp] theorem State.logged_xcount (e : Event) : (s.logged e).xcount = s.xcount := rfl
@[simp] theorem State.logged_dtr (e : Event) : (s.logged e).dtr = s.dtr := rfl
@[simp] theorem State.logged_rts (e : Event) : (s.logged e).rts = s.rts := rfl
@[simp] theorem State.logged_data (e : Event) : (s.logged e).data = s.data := rfl
@[simp] theorem State.logged_frame (e : Event) : (s.logged e).frame = s.frame := rfl
@[simp] theorem State.logged_flen (e : Event) : (s.logged e).flen = s.flen := rfl
@[simp] theorem State.logged_txIdx (e : Event) : (s.logged e).txIdx = s.txIdx := rfl
@[simp] theorem State.logged_st (e : Event) : (s.logged e).st = s.st := rfl
@[simp] theorem State.logged_opl (e : Event) : (s.logged e).opl = s.opl := rfl
@[simp] theorem State.logged_al (e : Event) : (s.logged e).al = s.al := rfl
@[simp] theorem State.logged_total (e : Event) : (s.logged e).total = s.total := rfl
@[simp] theorem State.logged_minDur (e : Event) : (s.logged e).minDur = s.minDur := rfl
@[simp] theorem State.logged_count (e : Event) : (s.logged e).count = s.count := rfl
@[simp] theorem State.logged_csize (e : Event) : (s.logged e).csize = s.csize := rfl
@[simp] theorem State.logged_tStart (e : Event) : (s.logged e).tStart = s.tStart := rfl
@[simp] theorem State.logged_rxIdx (e : Event) : (s.logged e).rxIdx = s.rxIdx := rfl
@[simp] theorem State.logged_zeroCnt (e : Event) : (s.logged e).zeroCnt = s.zeroCnt := rfl
@[simp] theorem State.logged_pend (e : Event) : (s.logged e).pend = s.pend := rfl
@[simp] theorem State.logged_now (e : Event) : (s.logged e).now = s.now := rfl
@[simp] theorem State.logged_log (e : Event) : (s.logged e).log = s.log ++ [e] := rfl
@[simp] theorem State.logged_answers (e : Event) : (s.logged e).answers = s.answers := rfl
@[simp] theorem State.logged_verdict (e : Event) : (s.logged e).verdict = s.verdict := rfl
@[simp] theorem State.logged_prog (e : Event) : (s.logged e).prog = s.prog := rfl
@[simp] theorem State.logged_sched (e : Event) : (s.logged e).sched = s.sched := rfl
@[simp] theorem State.logged_draws (e : Event) : (s.logged e).draws = s.draws := rfl

/-! ### State.answered -/

@[simp] theorem State.answered_params (a : Answer) : (s.answered a).params = s.params := rfl
@[simp] theorem State.answered_op (a : Answer) : (s.answered a).op = s.op := rfl
@[simp] theorem State.answered_irqEn (a : Answer) : (s.answered a).irqEn = s.irqEn := rfl
@[simp] theorem State.answered_done (a : Answer) : (s.answered a).done = s.done := rfl
@[simp] theorem State.answered_cmdrej (a : Answer) : (s.answered a).cmdrej = s.cmdrej := rfl
@[simp] theorem State.answered_err (a : Answer) : (s.answered a).err = s.err := rfl
@[simp] theorem State.answered_addr (a : Answer) : (s.answered a).addr = s.addr := rfl
@[simp] theorem State.answered_len (a : Answer) : (s.answered a).len = s.len := rfl
@[simp] theorem State.answered_throughput (a : Answer) : (s.answered a).throughput = s.throughput := rfl
@[simp] theorem State.answered_xcount (a : Answer) : (s.answered a).xcount = s.xcount := rfl
@[simp] theorem State.answered_dtr (a : Answer) : (s.answered a).dtr = s.dtr := rfl
@[simp] theorem State.answered_rts (a : Answer) : (s.answered a).rts = s.rts := rfl
@[simp] theorem State.answered_data (a : Answer) : (s.answered a).data = s.data := rfl
@[simp] theorem State.answered_frame (a : Answer) : (s.answered a).frame = s.frame := rfl
@[simp] theorem State.answered_flen (a : Answer) : (s.answered a).flen = s.flen := rfl
@[simp] theorem State.answered_txIdx (a : Answer) : (s.answered a).txIdx = s.txIdx := rfl
@[simp] theorem State.answered_st (a : Answer) : (s.answered a).st = s.st := rfl
@[simp] theorem State.answered_opl (a : Answer) : (s.answered a).opl = s.opl := rfl
@[simp] theorem State.answered_al (a : Answer) : (s.answered a).al = s.al := rfl
@[simp] theorem State.answered_total (a : Answer) : (s.answered a).total = s.total := rfl
@[simp] theorem State.answered_minDur (a : Answer) : (s.answered a).minDur = s.minDur := rfl
@[simp] theorem State.answered_count (a : Answer) : (s.answered a).count = s.count := rfl
@[simp] theorem State.answered_csize (a : Answer) : (s.answered a).csize = s.csize := rfl
@[simp] theorem State.answered_tStart (a : Answer) : (s.answered a).tStart = s.tStart := rfl
@[simp] theorem State.answered_rxIdx (a : Answer) : (s.answered a).rxIdx = s.rxIdx := rfl
@[simp] theorem State.answered_zeroCnt (a : Answer) : (s.answered a).zeroCnt = s.zeroCnt := rfl
@[simp] theorem State.answered_pend (a : Answer) : (s.answered a).pend = s.pend := rfl
@[simp] theorem State.answered_now (a : Answer) : (s.answered a).now = s.now := rfl
@[simp] theorem State.answered_log (a : Answer) : (s.answered a).log = s.log := rfl
@[simp] theorem State.answered_answers (a : Answer) : (s.answered a).answers = s.answers ++ [a] := rfl
@[simp] theorem State.answered_verdict (a : Answer) : (s.answered a).verdict = s.verdict := rfl
@[simp] theorem State.answered_prog (a : Answer) : (s.answered a).prog = s.prog := rfl
@[simp] theorem State.answered_sched (a : Answer) : (s.answered a).sched = s.sched := rfl
@[simp] theorem State.answered_draws (a : Answer) : (s.answered a).draws = s.draws := rfl

/-! ### State.drew -/

@[simp] theorem State.drew_params (n : Nat) : (s.drew n).params = s.params := rfl
@[simp] theorem State.drew_op (n : Nat) : (s.drew n).op = s.op := rfl
@[simp] theorem State.drew_irqEn (n : Nat) : (s.drew n).irqEn = s.irqEn := rfl
@[simp] theorem State.drew_done (n : Nat) : (s.drew n).done = s.done := rfl
@[simp] theorem State.drew_cmdrej (n : Nat) : (s.drew n).cmdrej = s.cmdrej := rfl
@[simp] theorem State.drew_err (n : Nat) : (s.drew n).err = s.err := rfl
@[simp] theorem State.drew_addr (n : Nat) : (s.drew n).addr = s.addr := rfl
@[simp] theorem State.drew_len (n : Nat) : (s.drew n).len = s.len := rfl
@[simp] theorem State.drew_throughput (n : Nat) : (s.drew n).throughput = s.throughput := rfl
@[simp] theorem State.drew_xcount (n : Nat) : (s.drew n).xcount = s.xcount := rfl
@[simp] theorem State.drew_dtr (n : Nat) : (s.drew n).dtr = s.dtr := rfl
@[simp] theorem State.drew_rts (n : Nat) : (s.drew n).rts = s.rts := rfl
@[simp] theorem State.drew_data (n : Nat) : (s.drew n).data = s.data := rfl
@[simp] theorem State.drew_frame (n : Nat) : (s.drew n).frame = s.frame := rfl
@[simp] theorem State.drew_flen (n : Nat) : (s.drew n).flen = s.flen := rfl
@[simp] theorem State.drew_txIdx (n : Nat) : (s.drew n).txIdx = s.txIdx := rfl
@[simp] theorem State.drew_st (n : Nat) : (s.drew n).st = s.st := rfl
@[simp] theorem State.drew_opl (n : Nat) : (s.drew n).opl = s.opl := rfl
@[simp] theorem State.drew_al (n : Nat) : (s.drew n).al = s.al := rfl
@[simp] theorem State.drew_total (n : Nat) : (s.drew n).total = s.total := rfl
@[simp] theorem State.drew_minDur (n : Nat) : (s.drew n).minDur = s.minDur := rfl
@[simp] theorem State.drew_count (n : Nat) : (s.drew n).count = s.count := rfl
@[simp] theorem State.drew_csize (n : Nat) : (s.drew n).csize = s.csize := rfl
@[simp] theorem State.drew_tStart (n : Nat) : (s.drew n).tStart = s.tStart := rfl
@[simp] theorem State.drew_rxIdx (n : Nat) : (s.drew n).rxIdx = s.rxIdx := rfl
@[simp] theorem State.drew_zeroCnt (n : Nat) : (s.drew n).zeroCnt = s.zeroCnt := rfl
@[simp] theorem State.drew_pend (n : Nat) : (s.drew n).pend = s.pend := rfl
@[simp] theorem State.drew_now (n : Nat) : (s.drew n).now = s.now := rfl
@[simp] theorem State.drew_log (n : Nat) : (s.drew n).log = s.log := rfl
@[simp] theorem State.drew_answers (n : Nat) : (s.drew n).answers = s.answers := rfl
@[simp] theorem State.drew_verdict (n : Nat) : (s.drew n).verdict = s.verdict := rfl
@[simp] theorem State.drew_prog (n : Nat) : (s.drew n).prog = s.prog := rfl
@[simp] theorem State.drew_sched (n : Nat) : (s.drew n).sched = s.sched := rfl
@[simp] theorem State.drew_draws (n : Nat) : (s.drew n).draws = s.draws + n := rfl

/-! ### State.stored -/

@[simp] theorem State.stored_params (a : Nat) (bs : List Byte) : (s.stored a bs).params = s.params := rfl
@[simp] theorem State.stored_op (a : Nat) (bs : List Byte) : (s.stored a bs).op = s.op := rfl
@[simp] theorem State.stored_irqEn (a : Nat) (bs : List Byte) : (s.stored a bs).irqEn = s.irqEn := rfl
@[simp] theorem State.stored_done (a : Nat) (bs : List Byte) : (s.stored a bs).done = s.done := rfl
@[simp] theorem State.stored_cmdrej (a : Nat) (bs : List Byte) : (s.stored a bs).cmdrej = s.cmdrej := rfl
@[simp] theorem State.stored_err (a : Nat) (bs : List Byte) : (s.stored a bs).err = s.err := rfl
@[simp] theorem State.stored_addr (a : Nat) (bs : List Byte) : (s.stored a bs).addr = s.addr := rfl
@[simp] theorem State.stored_len (a : Nat) (bs : List Byte) : (s.stored a bs).len = s.len := rfl
@[simp] theorem State.stored_throughput (a : Nat) (bs : List Byte) : (s.stored a bs).throughput = s.throughput := rfl
@[simp] theorem State.stored_xcount (a : Nat) (bs : List Byte) : (s.stored a bs).xcount = s.xcount := rfl
@[simp] theorem State.stored_dtr (a : Nat) (bs : List Byte) : (s.stored a bs).dtr = s.dtr := rfl
@[simp] theorem State.stored_rts (a : Nat) (bs : List Byte) : (s.stored a bs).rts = s.rts := rfl
@[simp] theorem State.stored_data (a : Nat) (bs : List Byte) : (s.stored a bs).data = s.data.setMany a bs := rfl
@[simp] theorem State.stored_frame (a : Nat) (bs : List Byte) : (s.stored a bs).frame = s.frame := rfl
@[simp] theorem State.stored_flen (a : Nat) (bs : List Byte) : (s.stored a bs).flen = s.flen := rfl
@[simp] theorem State.stored_txIdx (a : Nat) (bs : List Byte) : (s.stored a bs).txIdx = s.txIdx := rfl
@[simp] theorem State.stored_st (a : Nat) (bs : List Byte) : (s.stored a bs).st = s.st := rfl
@[simp] theorem State.stored_opl (a : Nat) (bs : List Byte) : (s.stored a bs).opl = s.opl := rfl
@[simp] theorem State.stored_al (a : Nat) (bs : List Byte) : (s.stored a bs).al = s.al := rfl
@[simp] theorem State.stored_total (a : Nat) (bs : List Byte) : (s.stored a bs).total = s.total := rfl
@[simp] theorem State.stored_minDur (a : Nat) (bs : List Byte) : (s.stored a bs).minDur = s.minDur := rfl
@[simp] theorem State.stored_count (a : Nat) (bs : List Byte) : (s.stored a bs).count = s.count := rfl
@[simp] theorem State.stored_csize (a : Nat) (bs : List Byte) : (s.stored a bs).csize = s.csize := rfl
@[simp] theorem State.stored_tStart (a : Nat) (bs : List Byte) : (s.stored a bs).tStart = s.tStart := rfl
@[simp] theorem State.stored_rxIdx (a : Nat) (bs : List Byte) : (s.stored a bs).rxIdx = s.rxIdx := rfl
@[simp] theorem State.stored_zeroCnt (a : Nat) (bs : List Byte) : (s.stored a bs).zeroCnt = s.zeroCnt := rfl
@[simp] theorem State.stored_pend (a : Nat) (bs : List Byte) : (s.stored a bs).pend = s.pend := rfl
@[simp] theorem State.stored_now (a : Nat) (bs : List Byte) : (s.stored a bs).now = s.now := rfl
@[simp] theorem State.stored_log (a : Nat) (bs : List Byte) : (s.stored a bs).log = s.log := rfl
@[simp] theorem State.stored_answers (a : Nat) (bs : List Byte) : (s.stored a bs).answers = s.answers := rfl
@[simp] theorem State.stored_verdict (a : Nat) (bs : List Byte) : (s.stored a bs).verdict = s.verdict := rfl
@[simp] theorem State.stored_prog (a : Nat) (bs : List Byte) : (s.stored a bs).prog = s.prog := rfl
@[simp] theorem State.stored_sched (a : Nat) (bs : List Byte) : (s.stored a bs).sched = s.sched := rfl
@[simp] theorem State.stored_draws (a : Nat) (bs : List Byte) : (s.stored a bs).draws = s.draws := rfl

/-! ### State.again -/

@[simp] theorem State.again_params (c : Code) : (s.again c).params = s.params := rfl
@[simp] theorem State.again_op (c : Code) : (s.again c).op = s.op := rfl
@[simp] theorem State.again_irqEn (c : Code) : (s.again c).irqEn = s.irqEn := rfl
@[simp] theorem State.again_done (c : Code) : (s.again c).done = s.done := rfl
@[simp] theorem State.again_cmdrej (c : Code) : (s.again c).cmdrej = s.cmdrej := rfl
@[simp] theorem State.again_err (c : Code) : (s.again c).err = s.err := rfl
@[simp] theorem State.again_addr (c : Code) : (s.again c).addr = s.addr := rfl
@[simp] theorem State.again_len (c : Code) : (s.again c).len = s.len := rfl
@[simp] theorem State.again_throughput (c : Code) : (s.again c).throughput = s.throughput := rfl
@[simp] theorem State.again_xcount (c : Code) : (s.again c).xcount = s.xcount := rfl
@[simp] theorem State.again_dtr (c : Code) : (s.again c).dtr = s.dtr := rfl
@[simp] theorem State.again_rts (c : Code) : (s.again c).rts = s.rts := rfl
@[simp] theorem State.again_data (c : Code) : (s.again c).data = s.data := rfl
@[simp] theorem State.again_frame (c : Code) : (s.again c).frame = s.frame := rfl
@[simp] theorem State.again_flen (c : Code) : (s.again c).flen = s.flen := rfl
@[simp] theorem State.again_txIdx (c : Code) : (s.again c).txIdx = s.txIdx := rfl
@[simp] theorem State.again_st (c : Code) : (s.again c).st = s.st := rfl
@[simp] theorem State.again_opl (c : Code) : (s.again c).opl = s.opl := rfl
@[simp] theorem State.again_al (c : Code) : (s.again c).al = s.al := rfl
@[simp] theorem State.again_total (c : Code) : (s.again c).total = s.total := rfl
@[simp] theorem State.again_minDur (c : Code) : (s.again c).minDur = s.minDur := rfl
@[simp] theorem State.again_count (c : Code) : (s.again c).count = s.count := rfl
@[simp] theorem State.again_csize (c : Code) : (s.again c).csize = s.csize := rfl
@[simp] theorem State.again_tStart (c : Code) : (s.again c).tStart = s.tStart := rfl
@[simp] theorem State.again_rxIdx (c : Code) : (s.again c).rxIdx = s.rxIdx := rfl
@[simp] theorem State.again_zeroCnt (c : Code) : (s.again c).zeroCnt = s.zeroCnt := rfl
@[simp] theorem State.again_pend (c : Code) : (s.again c).pend = s.pend := rfl
@[simp] theorem State.again_now (c : Code) : (s.again c).now = s.now := rfl
@[simp] theorem State.again_log (c : Code) : (s.again c).log = s.log := rfl
@[simp] theorem State.again_answers (c : Code) : (s.again c).answers = s.answers := rfl
@[simp] theorem State.again_verdict (c : Code) : (s.again c).verdict = s.verdict := rfl
@[simp] theorem State.again_prog (c : Code) : (s.again c).prog = c :: s.prog := rfl
@[simp] theorem State.again_sched (c : Code) : (s.again c).sched = s.sched := rfl
@[simp] theorem State.again_draws (c : Code) : (s.again c).draws = s.draws := rfl

/-! ### State.judged -/

@[simp] theorem State.judged_params (v : Verdict) : (s.judged v).params = s.params := rfl
@[simp] theorem State.judged_op (v : Verdict) : (s.judged v).op = s.op := rfl
@[simp] theorem State.judged_irqEn (v : Verdict) : (s.judged v).irqEn = s.irqEn := rfl
@[simp] theorem State.judged_done (v : Verdict) : (s.judged v).done = s.done := rfl
@[simp] theorem State.judged_cmdrej (v : Verdict) : (s.judged v).cmdrej = s.cmdrej := rfl
@[simp] theorem State.judged_err (v : Verdict) : (s.judged v).err = s.err := rfl
@[simp] theorem State.judged_addr (v : Verdict) : (s.judged v).addr = s.addr := rfl
@[simp] theorem State.judged_len (v : Verdict) : (s.judged v).len = s.len := rfl
@[simp] theorem State.judged_throughput (v : Verdict) : (s.judged v).throughput = s.throughput := rfl
@[simp] theorem State.judged_xcount (v : Verdict) : (s.judged v).xcount = s.xcount := rfl
@[simp] theorem State.judged_dtr (v : Verdict) : (s.judged v).dtr = s.dtr := rfl
@[simp] theorem State.judged_rts (v : Verdict) : (s.judged v).rts = s.rts := rfl
@[simp] theorem State.judged_data (v : Verdict) : (s.judged v).data = s.data := rfl
@[simp] theorem State.judged_frame (v : Verdict) : (s.judged v).frame = s.frame := rfl
@[simp] theorem State.judged_flen (v : Verdict) : (s.judged v).flen = s.flen := rfl
@[simp] theorem State.judged_txIdx (v : Verdict) : (s.judged v).txIdx = s.txIdx := rfl
@[simp] theorem State.judged_st (v : Verdict) : (s.judged v).st = s.st := rfl
@[simp] theorem State.judged_opl (v : Verdict) : (s.judged v).opl = s.opl := rfl
@[simp] theorem State.judged_al (v : Verdict) : (s.judged v).al = s.al := rfl
@[simp] theorem State.judged_total (v : Verdict) : (s.judged v).total = s.total := rfl
@[simp] theorem State.judged_minDur (v : Verdict) : (s.judged v).minDur = s.minDur := rfl
@[simp] theorem State.judged_count (v : Verdict) : (s.judged v).count = s.count := rfl
@[simp] theorem State.judged_csize (v : Verdict) : (s.judged v).csize = s.csize := rfl
@[simp] theorem State.judged_tStart (v : Verdict) : (s.judged v).tStart = s.tStart := rfl
@[simp] theorem State.judged_rxIdx (v : Verdict) : (s.judged v).rxIdx = s.rxIdx := rfl
@[simp] theorem State.judged_zeroCnt (v : Verdict) : (s.judged v).zeroCnt = s.zeroCnt := rfl
@[simp] theorem State.judged_pend (v : Verdict) : (s.judged v).pend = s.pend := rfl
@[simp] theorem State.judged_now (v : Verdict) : (s.judged v).now = s.now := rfl
@[simp] theorem State.judged_log (v : Verdict) : (s.judged v).log = s.log := rfl
@[simp] theorem State.judged_answers (v : Verdict) : (s.judged v).answers = s.answers := rfl
@[simp] theorem State.judged_verdict (v : Verdict) : (s.judged v).verdict = some v := rfl
@[simp] theorem State.judged_prog (v : Verdict) : (s.judged v).prog = s.prog := rfl
@[simp] theorem State.judged_sched (v : Verdict) : (s.judged v).sched = s.sched := rfl
@[simp] theorem State.judged_draws (v : Verdict) : (s.judged v).draws = s.draws := rfl

/-! ### State.framed -/

@[simp] theorem State.framed_params (bs : List Byte) : (s.framed bs).params = s.params := rfl
@[simp] theorem State.framed_op (bs : List Byte) : (s.framed bs).op = s.op := rfl
@[simp] theorem State.framed_irqEn (bs : List Byte) : (s.framed bs).irqEn = s.irqEn := rfl
@[simp] theorem State.framed_done (bs : List Byte) : (s.framed bs).done = s.done := rfl
@[simp] theorem State.framed_cmdrej (bs : List Byte) : (s.framed bs).cmdrej = s.cmdrej := rfl
@[simp] theorem State.framed_err (bs : List Byte) : (s.framed bs).err = s.err := rfl
@[simp] theorem State.framed_addr (bs : List Byte) : (s.framed bs).addr = s.addr := rfl
@[simp] theorem State.framed_len (bs : List Byte) : (s.framed bs).len = s.len := rfl
@[simp] theorem State.framed_throughput (bs : List Byte) : (s.framed bs).throughput = s.throughput := rfl
@[simp] theorem State.framed_xcount (bs : List Byte) : (s.framed bs).xcount = s.xcount := rfl
@[simp] theorem State.framed_dtr (bs : List Byte) : (s.framed bs).dtr = s.dtr := rfl
@[simp] theorem State.framed_rts (bs : List Byte) : (s.framed bs).rts = s.rts := rfl
@[simp] theorem State.framed_data (bs : List Byte) : (s.framed bs).data = s.data := rfl
@[simp] theorem State.framed_frame (bs : List Byte) : (s.framed bs).frame = bs := rfl
@[simp] theorem State.framed_flen (bs : List Byte) : (s.framed bs).flen = BitVec.ofNat 8 bs.length := rfl
@[simp] theorem State.framed_txIdx (bs : List Byte) : (s.framed bs).txIdx = 0 := rfl
@[simp] theorem State.framed_st (bs : List Byte) : (s.framed bs).st = s.st := rfl
@[simp] theorem State.framed_opl (bs : List Byte) : (s.framed bs).opl = s.opl := rfl
@[simp] theorem State.framed_al (bs : List Byte) : (s.framed bs).al = s.al := rfl
@[simp] theorem State.framed_total (bs : List Byte) : (s.framed bs).total = s.total := rfl
@[simp] theorem State.framed_minDur (bs : List Byte) : (s.framed bs).minDur = s.minDur := rfl
@[simp] theorem State.framed_count (bs : List Byte) : (s.framed bs).count = s.count := rfl
@[simp] theorem State.framed_csize (bs : List Byte) : (s.framed bs).csize = s.csize := rfl
@[simp] theorem State.framed_tStart (bs : List Byte) : (s.framed bs).tStart = s.tStart := rfl
@[simp] theorem State.framed_rxIdx (bs : List Byte) : (s.framed bs).rxIdx = s.rxIdx := rfl
@[simp] theorem State.framed_zeroCnt (bs : List Byte) : (s.framed bs).zeroCnt = s.zeroCnt := rfl
@[simp] theorem State.framed_pend (bs : List Byte) : (s.framed bs).pend = s.pend := rfl
@[simp] theorem State.framed_now (bs : List Byte) : (s.framed bs).now = s.now := rfl
@[simp] theorem State.framed_log (bs : List Byte) : (s.framed bs).log = s.log := rfl
@[simp] theorem State.framed_answers (bs : List Byte) : (s.framed bs).answers = s.answers := rfl
@[simp] theorem State.framed_verdict (bs : List Byte) : (s.framed bs).verdict = s.verdict := rfl
@[simp] theorem State.framed_prog (bs : List Byte) : (s.framed bs).prog = s.prog := rfl
@[simp] theorem State.framed_sched (bs : List Byte) : (s.framed bs).sched = s.sched := rfl
@[simp] theorem State.framed_draws (bs : List Byte) : (s.framed bs).draws = s.draws := rfl

/-! ### State.framedPast -/

@[simp] theorem State.framedPast_params (bs : List Byte) : (s.framedPast bs).params = s.params := rfl
@[simp] theorem State.framedPast_op (bs : List Byte) : (s.framedPast bs).op = s.op := rfl
@[simp] theorem State.framedPast_irqEn (bs : List Byte) : (s.framedPast bs).irqEn = s.irqEn := rfl
@[simp] theorem State.framedPast_done (bs : List Byte) : (s.framedPast bs).done = s.done := rfl
@[simp] theorem State.framedPast_cmdrej (bs : List Byte) : (s.framedPast bs).cmdrej = s.cmdrej := rfl
@[simp] theorem State.framedPast_err (bs : List Byte) : (s.framedPast bs).err = s.err := rfl
@[simp] theorem State.framedPast_addr (bs : List Byte) : (s.framedPast bs).addr = s.addr := rfl
@[simp] theorem State.framedPast_len (bs : List Byte) : (s.framedPast bs).len = s.len := rfl
@[simp] theorem State.framedPast_throughput (bs : List Byte) : (s.framedPast bs).throughput = s.throughput := rfl
@[simp] theorem State.framedPast_xcount (bs : List Byte) : (s.framedPast bs).xcount = s.xcount := rfl
@[simp] theorem State.framedPast_dtr (bs : List Byte) : (s.framedPast bs).dtr = s.dtr := rfl
@[simp] theorem State.framedPast_rts (bs : List Byte) : (s.framedPast bs).rts = s.rts := rfl
@[simp] theorem State.framedPast_data (bs : List Byte) : (s.framedPast bs).data = s.data := rfl
@[simp] theorem State.framedPast_frame (bs : List Byte) : (s.framedPast bs).frame =
    (bs.take s.params.frameMax ++ freeBytes (s.draws + 1) 255).take (frameLength s.draws bs.length).toNat := rfl
@[simp] theorem State.framedPast_flen (bs : List Byte) : (s.framedPast bs).flen = frameLength s.draws bs.length := rfl
@[simp] theorem State.framedPast_txIdx (bs : List Byte) : (s.framedPast bs).txIdx = 0 := rfl
@[simp] theorem State.framedPast_st (bs : List Byte) : (s.framedPast bs).st = s.st := rfl
@[simp] theorem State.framedPast_opl (bs : List Byte) : (s.framedPast bs).opl = s.opl := rfl
@[simp] theorem State.framedPast_al (bs : List Byte) : (s.framedPast bs).al = s.al := rfl
@[simp] theorem State.framedPast_total (bs : List Byte) : (s.framedPast bs).total = s.total := rfl
@[simp] theorem State.framedPast_minDur (bs : List Byte) : (s.framedPast bs).minDur = s.minDur := rfl
@[simp] theorem State.framedPast_count (bs : List Byte) : (s.framedPast bs).count = s.count := rfl
@[simp] theorem State.framedPast_csize (bs : List Byte) : (s.framedPast bs).csize = s.csize := rfl
@[simp] theorem State.framedPast_tStart (bs : List Byte) : (s.framedPast bs).tStart = s.tStart := rfl
@[simp] theorem State.framedPast_rxIdx (bs : List Byte) : (s.framedPast bs).rxIdx = s.rxIdx := rfl
@[simp] theorem State.framedPast_zeroCnt (bs : List Byte) : (s.framedPast bs).zeroCnt = s.zeroCnt := rfl
@[simp] theorem State.framedPast_pend (bs : List Byte) : (s.framedPast bs).pend = s.pend := rfl
@[simp] theorem State.framedPast_now (bs : List Byte) : (s.framedPast bs).now = s.now := rfl
@[simp] theorem State.framedPast_log (bs : List Byte) : (s.framedPast bs).log = s.log := rfl
@[simp] theorem State.framedPast_answers (bs : List Byte) : (s.framedPast bs).answers = s.answers := rfl
@[simp] theorem State.framedPast_verdict (bs : List Byte) : (s.framedPast bs).verdict = s.verdict := rfl
@[simp] theorem State.framedPast_prog (bs : List Byte) : (s.framedPast bs).prog = s.prog := rfl
@[simp] theorem State.framedPast_sched (bs : List Byte) : (s.framedPast bs).sched = s.sched := rfl
@[simp] theorem State.framedPast_draws (bs : List Byte) : (s.framedPast bs).draws = s.draws + 256 := rfl

/-! ### State.pending -/

@[simp] theorem State.pending_params (o : TOp) : (s.pending o).params = s.params := rfl
@[simp] theorem State.pending_op (o : TOp) : (s.pending o).op = s.op := rfl
@[simp] theorem State.pending_irqEn (o : TOp) : (s.pending o).irqEn = s.irqEn := rfl
@[simp] theorem State.pending_done (o : TOp) : (s.pending o).done = s.done := rfl
@[simp] theorem State.pending_cmdrej (o : TOp) : (s.pending o).cmdrej = s.cmdrej := rfl
@[simp] theorem State.pending_err (o : TOp) : (s.pending o).err = s.err := rfl
@[simp] theorem State.pending_addr (o : TOp) : (s.pending o).addr = s.addr := rfl
@[simp] theorem State.pending_len (o : TOp) : (s.pending o).len = s.len := rfl
@[simp] theorem State.pending_throughput (o : TOp) : (s.pending o).throughput = s.throughput := rfl
@[simp] theorem State.pending_xcount (o : TOp) : (s.pending o).xcount = s.xcount := rfl
@[simp] theorem State.pending_dtr (o : TOp) : (s.pending o).dtr = s.dtr := rfl
@[simp] theorem State.pending_rts (o : TOp) : (s.pending o).rts = s.rts := rfl
@[simp] theorem State.pending_data (o : TOp) : (s.pending o).data = s.data := rfl
@[simp] theorem State.pending_frame (o : TOp) : (s.pending o).frame = s.frame := rfl
@[simp] theorem State.pending_flen (o : TOp) : (s.pending o).flen = s.flen := rfl
@[simp] theorem State.pending_txIdx (o : TOp) : (s.pending o).txIdx = s.txIdx := rfl
@[simp] theorem State.pending_st (o : TOp) : (s.pending o).st = s.st := rfl
@[simp] theorem State.pending_opl (o : TOp) : (s.pending o).opl = s.opl := rfl
@[simp] theorem State.pending_al (o : TOp) : (s.pending o).al = s.al := rfl
@[simp] theorem State.pending_total (o : TOp) : (s.pending o).total = s.total := rfl
@[simp] theorem State.pending_minDur (o : TOp) : (s.pending o).minDur = s.minDur := rfl
@[simp] theorem State.pending_count (o : TOp) : (s.pending o).count = s.count := rfl
@[simp] theorem State.pending_csize (o : TOp) : (s.pending o).csize = s.csize := rfl
@[simp] theorem State.pending_tStart (o : TOp) : (s.pending o).tStart = s.tStart := rfl
@[simp] theorem State.pending_rxIdx (o : TOp) : (s.pending o).rxIdx = s.rxIdx := rfl
@[simp] theorem State.pending_zeroCnt (o : TOp) : (s.pending o).zeroCnt = s.zeroCnt := rfl
@[simp] theorem State.pending_pend (o : TOp) : (s.pending o).pend = some o := rfl
@[simp] theorem State.pending_now (o : TOp) : (s.pending o).now = s.now := rfl
@[simp] theorem State.pending_log (o : TOp) : (s.pending o).log = s.log := rfl
@[simp] theorem State.pending_answers (o : TOp) : (s.pending o).answers = s.answers := rfl
@[simp] theorem State.pending_verdict (o : TOp) : (s.pending o).verdict = s.verdict := rfl
@[simp] theorem State.pending_prog (o : TOp) : (s.pending o).prog = s.prog := rfl
@[simp] theorem State.pending_sched (o : TOp) : (s.pending o).sched = s.sched := rfl
@[simp] theorem State.pending_draws (o : TOp) : (s.pending o).draws = s.draws := rfl

/-! ### State.settled -/

@[simp] theorem State.settled_params : (s.settled).params = s.params := rfl
@[simp] theorem State.settled_op : (s.settled).op = s.op := rfl
@[simp] theorem State.settled_irqEn : (s.settled).irqEn = s.irqEn := rfl
@[simp] theorem State.settled_done : (s.settled).done = s.done := rfl
@[simp] theorem State.settled_cmdrej : (s.settled).cmdrej = s.cmdrej := rfl
@[simp] theorem State.settled_err : (s.settled).err = s.err := rfl
@[simp] theorem State.settled_addr : (s.settled).addr = s.addr := rfl
@[simp] theorem State.settled_len : (s.settled).len = s.len := rfl
@[simp] theorem State.settled_throughput : (s.settled).throughput = s.throughput := rfl
@[simp] theorem State.settled_xcount : (s.settled).xcount = s.xcount := rfl
@[simp] theorem State.settled_dtr : (s.settled).dtr = s.dtr := rfl
@[simp] theorem State.settled_rts : (s.settled).rts = s.rts := rfl
@[simp] theorem State.settled_data : (s.settled).data = s.data := rfl
@[simp] theorem State.settled_frame : (s.settled).frame = s.frame := rfl
@[simp] theorem State.settled_flen : (s.settled).flen = s.flen := rfl
@[simp] theorem State.settled_txIdx : (s.settled).txIdx = s.txIdx := rfl
@[simp] theorem State.settled_st : (s.settled).st = s.st := rfl
@[simp] theorem State.settled_opl : (s.settled).opl = s.opl := rfl
@[simp] theorem State.settled_al : (s.settled).al = s.al := rfl
@[simp] theorem State.settled_total : (s.settled).total = s.total := rfl
@[simp] theorem State.settled_minDur : (s.settled).minDur = s.minDur := rfl
@[simp] theorem State.settled_count : (s.settled).count = s.count := rfl
@[simp] theorem State.settled_csize : (s.settled).csize = s.csize := rfl
@[simp] theorem State.settled_tStart : (s.settled).tStart = s.tStart := rfl
@[simp] theorem State.settled_rxIdx : (s.settled).rxIdx = s.rxIdx := rfl
@[simp] theorem State.settled_zeroCnt : (s.settled).zeroCnt = s.zeroCnt := rfl
@[simp] theorem State.settled_pend : (s.settled).pend = none := rfl
@[simp] theorem State.settled_now : (s.settled).now = s.now := rfl
@[simp] theorem State.settled_log : (s.settled).log = s.log := rfl
@[simp] theorem State.settled_answers : (s.settled).answers = s.answers := rfl
@[simp] theorem State.settled_verdict : (s.settled).verdict = s.verdict := rfl
@[simp] theorem State.settled_prog : (s.settled).prog = s.prog := rfl
@[simp] theorem State.settled_sched : (s.settled).sched = s.sched := rfl
@[simp] theorem State.settled_draws : (s.settled).draws = s.draws := rfl

/-! ### State.issued -/

@[simp] theorem State.issued_params (r : Req) : (s.issued r).params = s.params := rfl
@[simp] theorem State.issued_op (r : Req) : (s.issued r).op = s.op := rfl
@[simp] theorem State.issued_irqEn (r : Req) : (s.issued r).irqEn = s.irqEn := rfl
@[simp] theorem State.issued_done (r : Req) : (s.issued r).done = s.done := rfl
@[simp] theorem State.issued_cmdrej (r : Req) : (s.issued r).cmdrej = s.cmdrej := rfl
@[simp] theorem State.issued_err (r : Req) : (s.issued r).err = s.err := rfl
@[simp] theorem State.issued_addr (r : Req) : (s.issued r).addr = s.addr := rfl
@[simp] theorem State.issued_len (r : Req) : (s.issued r).len = s.len := rfl
@[simp] theorem State.issued_throughput (r : Req) : (s.issued r).throughput = s.throughput := rfl
@[simp] theorem State.issued_xcount (r : Req) : (s.issued r).xcount = s.xcount := rfl
@[simp] theorem State.issued_dtr (r : Req) : (s.issued r).dtr = s.dtr := rfl
@[simp] theorem State.issued_rts (r : Req) : (s.issued r).rts = s.rts := rfl
@[simp] theorem State.issued_data (r : Req) : (s.issued r).data = s.data := rfl
@[simp] theorem State.issued_frame (r : Req) : (s.issued r).frame = s.frame := rfl
@[simp] theorem State.issued_flen (r : Req) : (s.issued r).flen = s.flen := rfl
@[simp] theorem State.issued_txIdx (r : Req) : (s.issued r).txIdx = s.txIdx := rfl
@[simp] theorem State.issued_st (r : Req) : (s.issued r).st = s.st := rfl
@[simp] theorem State.issued_opl (r : Req) : (s.issued r).opl = s.opl := rfl
@[simp] theorem State.issued_al (r : Req) : (s.issued r).al = s.al := rfl
@[simp] theorem State.issued_total (r : Req) : (s.issued r).total = s.total := rfl
@[simp] theorem State.issued_minDur (r : Req) : (s.issued r).minDur = s.minDur := rfl
@[simp] theorem State.issued_count (r : Req) : (s.issued r).count = s.count := rfl
@[simp] theorem State.issued_csize (r : Req) : (s.issued r).csize = s.csize := rfl
@[simp] theorem State.issued_tStart (r : Req) : (s.issued r).tStart = s.tStart := rfl
@[simp] theorem State.issued_rxIdx (r : Req) : (s.issued r).rxIdx = s.rxIdx := rfl
@[simp] theorem State.issued_zeroCnt (r : Req) : (s.issued r).zeroCnt = s.zeroCnt := rfl
@[simp] theorem State.issued_pend (r : Req) : (s.issued r).pend = some r.op := rfl
@[simp] theorem State.issued_now (r : Req) : (s.issued r).now = s.now := rfl
@[simp] theorem State.issued_log (r : Req) : (s.issued r).log = s.log ++ [.issue r] := rfl
@[simp] theorem State.issued_answers (r : Req) : (s.issued r).answers = s.answers := rfl
@[simp] theorem State.issued_verdict (r : Req) : (s.issued r).verdict = s.verdict := rfl
@[simp] theorem State.issued_prog (r : Req) : (s.issued r).prog = s.prog := rfl
@[simp] theorem State.issued_sched (r : Req) : (s.issued r).sched = s.sched := rfl
@[simp] theorem State.issued_draws (r : Req) : (s.issued r).draws = s.draws := rfl

/-! ### State.finish -/

@[simp] theorem State.finish_params (v : Word) : (s.finish v).params = s.params := rfl
@[simp] theorem State.finish_op (v : Word) : (s.finish v).op = s.op := rfl
@[simp] theorem State.finish_irqEn (v : Word) : (s.finish v).irqEn = s.irqEn := rfl
@[simp] theorem State.finish_done (v : Word) : (s.finish v).done = true := rfl
@[simp] theorem State.finish_cmdrej (v : Word) : (s.finish v).cmdrej = s.cmdrej := rfl
@[simp] theorem State.finish_err (v : Word) : (s.finish v).err = .none := rfl
@[simp] theorem State.finish_addr (v : Word) : (s.finish v).addr = s.addr := rfl
@[simp] theorem State.finish_len (v : Word) : (s.finish v).len = s.len := rfl
@[simp] theorem State.finish_throughput (v : Word) : (s.finish v).throughput = s.throughput := rfl
@[simp] theorem State.finish_xcount (v : Word) : (s.finish v).xcount = v := rfl
@[simp] theorem State.finish_dtr (v : Word) : (s.finish v).dtr = s.dtr := rfl
@[simp] theorem State.finish_rts (v : Word) : (s.finish v).rts = s.rts := rfl
@[simp] theorem State.finish_data (v : Word) : (s.finish v).data = s.data := rfl
@[simp] theorem State.finish_frame (v : Word) : (s.finish v).frame = s.frame := rfl
@[simp] theorem State.finish_flen (v : Word) : (s.finish v).flen = s.flen := rfl
@[simp] theorem State.finish_txIdx (v : Word) : (s.finish v).txIdx = s.txIdx := rfl
@[simp] theorem State.finish_st (v : Word) : (s.finish v).st = .idle := rfl
@[simp] theorem State.finish_opl (v : Word) : (s.finish v).opl = s.opl := rfl
@[simp] theorem State.finish_al (v : Word) : (s.finish v).al = s.al := rfl
@[simp] theorem State.finish_total (v : Word) : (s.finish v).total = s.total := rfl
@[simp] theorem State.finish_minDur (v : Word) : (s.finish v).minDur = s.minDur := rfl
@[simp] theorem State.finish_count (v : Word) : (s.finish v).count = s.count := rfl
@[simp] theorem State.finish_csize (v : Word) : (s.finish v).csize = s.csize := rfl
@[simp] theorem State.finish_tStart (v : Word) : (s.finish v).tStart = s.tStart := rfl
@[simp] theorem State.finish_rxIdx (v : Word) : (s.finish v).rxIdx = s.rxIdx := rfl
@[simp] theorem State.finish_zeroCnt (v : Word) : (s.finish v).zeroCnt = s.zeroCnt := rfl
@[simp] theorem State.finish_pend (v : Word) : (s.finish v).pend = s.pend := rfl
@[simp] theorem State.finish_now (v : Word) : (s.finish v).now = s.now := rfl
@[simp] theorem State.finish_log (v : Word) : (s.finish v).log = s.log := rfl
@[simp] theorem State.finish_answers (v : Word) : (s.finish v).answers = s.answers := rfl
@[simp] theorem State.finish_verdict (v : Word) : (s.finish v).verdict = s.verdict := rfl
@[simp] theorem State.finish_prog (v : Word) : (s.finish v).prog = s.prog := rfl
@[simp] theorem State.finish_sched (v : Word) : (s.finish v).sched = s.sched := rfl
@[simp] theorem State.finish_draws (v : Word) : (s.finish v).draws = s.draws := rfl

/-! ### State.raiseError -/

@[simp] theorem State.raiseError_params (e : ErrCode) : (s.raiseError e).params = s.params := rfl
@[simp] theorem State.raiseError_op (e : ErrCode) : (s.raiseError e).op = s.op := rfl
@[simp] theorem State.raiseError_irqEn (e : ErrCode) : (s.raiseError e).irqEn = s.irqEn := rfl
@[simp] theorem State.raiseError_done (e : ErrCode) : (s.raiseError e).done = true := rfl
@[simp] theorem State.raiseError_cmdrej (e : ErrCode) : (s.raiseError e).cmdrej = s.cmdrej := rfl
@[simp] theorem State.raiseError_err (e : ErrCode) : (s.raiseError e).err = e := rfl
@[simp] theorem State.raiseError_addr (e : ErrCode) : (s.raiseError e).addr = s.addr := rfl
@[simp] theorem State.raiseError_len (e : ErrCode) : (s.raiseError e).len = s.len := rfl
@[simp] theorem State.raiseError_throughput (e : ErrCode) : (s.raiseError e).throughput = s.throughput := rfl
@[simp] theorem State.raiseError_xcount (e : ErrCode) : (s.raiseError e).xcount = s.xcount := rfl
@[simp] theorem State.raiseError_dtr (e : ErrCode) : (s.raiseError e).dtr = s.dtr := rfl
@[simp] theorem State.raiseError_rts (e : ErrCode) : (s.raiseError e).rts = s.rts := rfl
@[simp] theorem State.raiseError_data (e : ErrCode) : (s.raiseError e).data = s.data := rfl
@[simp] theorem State.raiseError_frame (e : ErrCode) : (s.raiseError e).frame = s.frame := rfl
@[simp] theorem State.raiseError_flen (e : ErrCode) : (s.raiseError e).flen = s.flen := rfl
@[simp] theorem State.raiseError_txIdx (e : ErrCode) : (s.raiseError e).txIdx = s.txIdx := rfl
@[simp] theorem State.raiseError_st (e : ErrCode) : (s.raiseError e).st = .idle := rfl
@[simp] theorem State.raiseError_opl (e : ErrCode) : (s.raiseError e).opl = s.opl := rfl
@[simp] theorem State.raiseError_al (e : ErrCode) : (s.raiseError e).al = s.al := rfl
@[simp] theorem State.raiseError_total (e : ErrCode) : (s.raiseError e).total = s.total := rfl
@[simp] theorem State.raiseError_minDur (e : ErrCode) : (s.raiseError e).minDur = s.minDur := rfl
@[simp] theorem State.raiseError_count (e : ErrCode) : (s.raiseError e).count = s.count := rfl
@[simp] theorem State.raiseError_csize (e : ErrCode) : (s.raiseError e).csize = s.csize := rfl
@[simp] theorem State.raiseError_tStart (e : ErrCode) : (s.raiseError e).tStart = s.tStart := rfl
@[simp] theorem State.raiseError_rxIdx (e : ErrCode) : (s.raiseError e).rxIdx = s.rxIdx := rfl
@[simp] theorem State.raiseError_zeroCnt (e : ErrCode) : (s.raiseError e).zeroCnt = s.zeroCnt := rfl
@[simp] theorem State.raiseError_pend (e : ErrCode) : (s.raiseError e).pend = s.pend := rfl
@[simp] theorem State.raiseError_now (e : ErrCode) : (s.raiseError e).now = s.now := rfl
@[simp] theorem State.raiseError_log (e : ErrCode) : (s.raiseError e).log = s.log := rfl
@[simp] theorem State.raiseError_answers (e : ErrCode) : (s.raiseError e).answers = s.answers := rfl
@[simp] theorem State.raiseError_verdict (e : ErrCode) : (s.raiseError e).verdict = s.verdict := rfl
@[simp] theorem State.raiseError_prog (e : ErrCode) : (s.raiseError e).prog = s.prog := rfl
@[simp] theorem State.raiseError_sched (e : ErrCode) : (s.raiseError e).sched = s.sched := rfl
@[simp] theorem State.raiseError_draws (e : ErrCode) : (s.raiseError e).draws = s.draws := rfl

/-! ### State.latched -/

@[simp] theorem State.latched_params : (s.latched).params = s.params := rfl
@[simp] theorem State.latched_op : (s.latched).op = s.op := rfl
@[simp] theorem State.latched_irqEn : (s.latched).irqEn = s.irqEn := rfl
@[simp] theorem State.latched_done : (s.latched).done = false := rfl
@[simp] theorem State.latched_cmdrej : (s.latched).cmdrej = s.cmdrej := rfl
@[simp] theorem State.latched_err : (s.latched).err = .none := rfl
@[simp] theorem State.latched_addr : (s.latched).addr = s.addr := rfl
@[simp] theorem State.latched_len : (s.latched).len = s.len := rfl
@[simp] theorem State.latched_throughput : (s.latched).throughput = s.throughput := rfl
@[simp] theorem State.latched_xcount : (s.latched).xcount = 0 := rfl
@[simp] theorem State.latched_dtr : (s.latched).dtr = s.dtr := rfl
@[simp] theorem State.latched_rts : (s.latched).rts = s.rts := rfl
@[simp] theorem State.latched_data : (s.latched).data = s.data := rfl
@[simp] theorem State.latched_frame : (s.latched).frame = s.frame := rfl
@[simp] theorem State.latched_flen : (s.latched).flen = s.flen := rfl
@[simp] theorem State.latched_txIdx : (s.latched).txIdx = s.txIdx := rfl
@[simp] theorem State.latched_st : (s.latched).st = s.st := rfl
@[simp] theorem State.latched_opl : (s.latched).opl = s.op := rfl
@[simp] theorem State.latched_al : (s.latched).al = s.addr := rfl
@[simp] theorem State.latched_total : (s.latched).total = s.len := rfl
@[simp] theorem State.latched_minDur : (s.latched).minDur = s.minDurWord := rfl
@[simp] theorem State.latched_count : (s.latched).count = 0 := rfl
@[simp] theorem State.latched_csize : (s.latched).csize = s.csize := rfl
@[simp] theorem State.latched_tStart : (s.latched).tStart = s.tStart := rfl
@[simp] theorem State.latched_rxIdx : (s.latched).rxIdx = s.rxIdx := rfl
@[simp] theorem State.latched_zeroCnt : (s.latched).zeroCnt = s.zeroCnt := rfl
@[simp] theorem State.latched_pend : (s.latched).pend = s.pend := rfl
@[simp] theorem State.latched_now : (s.latched).now = s.now := rfl
@[simp] theorem State.latched_log : (s.latched).log = s.log := rfl
@[simp] theorem State.latched_answers : (s.latched).answers = s.answers := rfl
@[simp] theorem State.latched_verdict : (s.latched).verdict = s.verdict := rfl
@[simp] theorem State.latched_prog : (s.latched).prog = s.prog := rfl
@[simp] theorem State.latched_sched : (s.latched).sched = s.sched := rfl
@[simp] theorem State.latched_draws : (s.latched).draws = s.draws := rfl

/-! ### State.writeStatus -/

@[simp] theorem State.writeStatus_params (d c : Bool) : (s.writeStatus d c).params = s.params := rfl
@[simp] theorem State.writeStatus_op (d c : Bool) : (s.writeStatus d c).op = s.op := rfl
@[simp] theorem State.writeStatus_irqEn (d c : Bool) : (s.writeStatus d c).irqEn = s.irqEn := rfl
@[simp] theorem State.writeStatus_done (d c : Bool) : (s.writeStatus d c).done = (s.done && !d) := rfl
@[simp] theorem State.writeStatus_cmdrej (d c : Bool) : (s.writeStatus d c).cmdrej = (s.cmdrej && !c) := rfl
@[simp] theorem State.writeStatus_err (d c : Bool) : (s.writeStatus d c).err = s.err := rfl
@[simp] theorem State.writeStatus_addr (d c : Bool) : (s.writeStatus d c).addr = s.addr := rfl
@[simp] theorem State.writeStatus_len (d c : Bool) : (s.writeStatus d c).len = s.len := rfl
@[simp] theorem State.writeStatus_throughput (d c : Bool) : (s.writeStatus d c).throughput = s.throughput := rfl
@[simp] theorem State.writeStatus_xcount (d c : Bool) : (s.writeStatus d c).xcount = s.xcount := rfl
@[simp] theorem State.writeStatus_dtr (d c : Bool) : (s.writeStatus d c).dtr = s.dtr := rfl
@[simp] theorem State.writeStatus_rts (d c : Bool) : (s.writeStatus d c).rts = s.rts := rfl
@[simp] theorem State.writeStatus_data (d c : Bool) : (s.writeStatus d c).data = s.data := rfl
@[simp] theorem State.writeStatus_frame (d c : Bool) : (s.writeStatus d c).frame = s.frame := rfl
@[simp] theorem State.writeStatus_flen (d c : Bool) : (s.writeStatus d c).flen = s.flen := rfl
@[simp] theorem State.writeStatus_txIdx (d c : Bool) : (s.writeStatus d c).txIdx = s.txIdx := rfl
@[simp] theorem State.writeStatus_st (d c : Bool) : (s.writeStatus d c).st = s.st := rfl
@[simp] theorem State.writeStatus_opl (d c : Bool) : (s.writeStatus d c).opl = s.opl := rfl
@[simp] theorem State.writeStatus_al (d c : Bool) : (s.writeStatus d c).al = s.al := rfl
@[simp] theorem State.writeStatus_total (d c : Bool) : (s.writeStatus d c).total = s.total := rfl
@[simp] theorem State.writeStatus_minDur (d c : Bool) : (s.writeStatus d c).minDur = s.minDur := rfl
@[simp] theorem State.writeStatus_count (d c : Bool) : (s.writeStatus d c).count = s.count := rfl
@[simp] theorem State.writeStatus_csize (d c : Bool) : (s.writeStatus d c).csize = s.csize := rfl
@[simp] theorem State.writeStatus_tStart (d c : Bool) : (s.writeStatus d c).tStart = s.tStart := rfl
@[simp] theorem State.writeStatus_rxIdx (d c : Bool) : (s.writeStatus d c).rxIdx = s.rxIdx := rfl
@[simp] theorem State.writeStatus_zeroCnt (d c : Bool) : (s.writeStatus d c).zeroCnt = s.zeroCnt := rfl
@[simp] theorem State.writeStatus_pend (d c : Bool) : (s.writeStatus d c).pend = s.pend := rfl
@[simp] theorem State.writeStatus_now (d c : Bool) : (s.writeStatus d c).now = s.now := rfl
@[simp] theorem State.writeStatus_log (d c : Bool) : (s.writeStatus d c).log = s.log := rfl
@[simp] theorem State.writeStatus_answers (d c : Bool) : (s.writeStatus d c).answers = s.answers := rfl
@[simp] theorem State.writeStatus_verdict (d c : Bool) : (s.writeStatus d c).verdict = s.verdict := rfl
@[simp] theorem State.writeStatus_prog (d c : Bool) : (s.writeStatus d c).prog = s.prog := rfl
@[simp] theorem State.writeStatus_sched (d c : Bool) : (s.writeStatus d c).sched = s.sched := rfl
@[simp] theorem State.writeStatus_draws (d c : Bool) : (s.writeStatus d c).draws = s.draws := rfl

/-! ### State.chunkEnd -/

@[simp] theorem State.chunkEnd_params : (s.chunkEnd).params = s.params := rfl
@[simp] theorem State.chunkEnd_op : (s.chunkEnd).op = s.op := rfl
@[simp] theorem State.chunkEnd_irqEn : (s.chunkEnd).irqEn = s.irqEn := rfl
@[simp] theorem State.chunkEnd_done : (s.chunkEnd).done = s.done := rfl
@[simp] theorem State.chunkEnd_cmdrej : (s.chunkEnd).cmdrej = s.cmdrej := rfl
@[simp] theorem State.chunkEnd_err : (s.chunkEnd).err = s.err := rfl
@[simp] theorem State.chunkEnd_addr : (s.chunkEnd).addr = s.addr := rfl
@[simp] theorem State.chunkEnd_len : (s.chunkEnd).len = s.len := rfl
@[simp] theorem State.chunkEnd_throughput : (s.chunkEnd).throughput = s.throughput := rfl
@[simp] theorem State.chunkEnd_xcount : (s.chunkEnd).xcount = s.xcount := rfl
@[simp] theorem State.chunkEnd_dtr : (s.chunkEnd).dtr = s.dtr := rfl
@[simp] theorem State.chunkEnd_rts : (s.chunkEnd).rts = s.rts := rfl
@[simp] theorem State.chunkEnd_data : (s.chunkEnd).data = s.data := rfl
@[simp] theorem State.chunkEnd_frame : (s.chunkEnd).frame = s.frame := rfl
@[simp] theorem State.chunkEnd_flen : (s.chunkEnd).flen = s.flen := rfl
@[simp] theorem State.chunkEnd_txIdx : (s.chunkEnd).txIdx = s.txIdx := rfl
@[simp] theorem State.chunkEnd_st : (s.chunkEnd).st = .pace := rfl
@[simp] theorem State.chunkEnd_opl : (s.chunkEnd).opl = s.opl := rfl
@[simp] theorem State.chunkEnd_al : (s.chunkEnd).al = s.al := rfl
@[simp] theorem State.chunkEnd_total : (s.chunkEnd).total = s.total := rfl
@[simp] theorem State.chunkEnd_minDur : (s.chunkEnd).minDur = s.minDur := rfl
@[simp] theorem State.chunkEnd_count : (s.chunkEnd).count = s.count + s.csize := rfl
@[simp] theorem State.chunkEnd_csize : (s.chunkEnd).csize = s.csize := rfl
@[simp] theorem State.chunkEnd_tStart : (s.chunkEnd).tStart = s.tStart := rfl
@[simp] theorem State.chunkEnd_rxIdx : (s.chunkEnd).rxIdx = s.rxIdx := rfl
@[simp] theorem State.chunkEnd_zeroCnt : (s.chunkEnd).zeroCnt = s.zeroCnt := rfl
@[simp] theorem State.chunkEnd_pend : (s.chunkEnd).pend = s.pend := rfl
@[simp] theorem State.chunkEnd_now : (s.chunkEnd).now = s.now := rfl
@[simp] theorem State.chunkEnd_log : (s.chunkEnd).log = s.log := rfl
@[simp] theorem State.chunkEnd_answers : (s.chunkEnd).answers = s.answers := rfl
@[simp] theorem State.chunkEnd_verdict : (s.chunkEnd).verdict = s.verdict := rfl
@[simp] theorem State.chunkEnd_prog : (s.chunkEnd).prog = s.prog := rfl
@[simp] theorem State.chunkEnd_sched : (s.chunkEnd).sched = s.sched := rfl
@[simp] theorem State.chunkEnd_draws : (s.chunkEnd).draws = s.draws := rfl

/-! ### State.enterRx -/

@[simp] theorem State.enterRx_params : (s.enterRx).params = s.params := rfl
@[simp] theorem State.enterRx_op : (s.enterRx).op = s.op := rfl
@[simp] theorem State.enterRx_irqEn : (s.enterRx).irqEn = s.irqEn := rfl
@[simp] theorem State.enterRx_done : (s.enterRx).done = s.done := rfl
@[simp] theorem State.enterRx_cmdrej : (s.enterRx).cmdrej = s.cmdrej := rfl
@[simp] theorem State.enterRx_err : (s.enterRx).err = s.err := rfl
@[simp] theorem State.enterRx_addr : (s.enterRx).addr = s.addr := rfl
@[simp] theorem State.enterRx_len : (s.enterRx).len = s.len := rfl
@[simp] theorem State.enterRx_throughput : (s.enterRx).throughput = s.throughput := rfl
@[simp] theorem State.enterRx_xcount : (s.enterRx).xcount = s.xcount := rfl
@[simp] theorem State.enterRx_dtr : (s.enterRx).dtr = s.dtr := rfl
@[simp] theorem State.enterRx_rts : (s.enterRx).rts = s.rts := rfl
@[simp] theorem State.enterRx_data : (s.enterRx).data = s.data := rfl
@[simp] theorem State.enterRx_frame : (s.enterRx).frame = s.frame := rfl
@[simp] theorem State.enterRx_flen : (s.enterRx).flen = s.flen := rfl
@[simp] theorem State.enterRx_txIdx : (s.enterRx).txIdx = s.txIdx := rfl
@[simp] theorem State.enterRx_st : (s.enterRx).st = .rx := rfl
@[simp] theorem State.enterRx_opl : (s.enterRx).opl = s.opl := rfl
@[simp] theorem State.enterRx_al : (s.enterRx).al = s.al := rfl
@[simp] theorem State.enterRx_total : (s.enterRx).total = s.total := rfl
@[simp] theorem State.enterRx_minDur : (s.enterRx).minDur = s.minDur := rfl
@[simp] theorem State.enterRx_count : (s.enterRx).count = s.count := rfl
@[simp] theorem State.enterRx_csize : (s.enterRx).csize = s.csize := rfl
@[simp] theorem State.enterRx_tStart : (s.enterRx).tStart = s.tStart := rfl
@[simp] theorem State.enterRx_rxIdx : (s.enterRx).rxIdx = 0 := rfl
@[simp] theorem State.enterRx_zeroCnt : (s.enterRx).zeroCnt = 0 := rfl
@[simp] theorem State.enterRx_pend : (s.enterRx).pend = s.pend := rfl
@[simp] theorem State.enterRx_now : (s.enterRx).now = s.now := rfl
@[simp] theorem State.enterRx_log : (s.enterRx).log = s.log := rfl
@[simp] theorem State.enterRx_answers : (s.enterRx).answers = s.answers := rfl
@[simp] theorem State.enterRx_verdict : (s.enterRx).verdict = s.verdict := rfl
@[simp] theorem State.enterRx_prog : (s.enterRx).prog = s.prog := rfl
@[simp] theorem State.enterRx_sched : (s.enterRx).sched = s.sched := rfl
@[simp] theorem State.enterRx_draws : (s.enterRx).draws = s.draws := rfl

/-! ### State.chunkBegun -/

@[simp] theorem State.chunkBegun_params : (s.chunkBegun).params = s.params := rfl
@[simp] theorem State.chunkBegun_op : (s.chunkBegun).op = s.op := rfl
@[simp] theorem State.chunkBegun_irqEn : (s.chunkBegun).irqEn = s.irqEn := rfl
@[simp] theorem State.chunkBegun_done : (s.chunkBegun).done = s.done := rfl
@[simp] theorem State.chunkBegun_cmdrej : (s.chunkBegun).cmdrej = s.cmdrej := rfl
@[simp] theorem State.chunkBegun_err : (s.chunkBegun).err = s.err := rfl
@[simp] theorem State.chunkBegun_addr : (s.chunkBegun).addr = s.addr := rfl
@[simp] theorem State.chunkBegun_len : (s.chunkBegun).len = s.len := rfl
@[simp] theorem State.chunkBegun_throughput : (s.chunkBegun).throughput = s.throughput := rfl
@[simp] theorem State.chunkBegun_xcount : (s.chunkBegun).xcount = s.xcount := rfl
@[simp] theorem State.chunkBegun_dtr : (s.chunkBegun).dtr = s.dtr := rfl
@[simp] theorem State.chunkBegun_rts : (s.chunkBegun).rts = s.rts := rfl
@[simp] theorem State.chunkBegun_data : (s.chunkBegun).data = s.data := rfl
@[simp] theorem State.chunkBegun_frame : (s.chunkBegun).frame = s.frame := rfl
@[simp] theorem State.chunkBegun_flen : (s.chunkBegun).flen = s.flen := rfl
@[simp] theorem State.chunkBegun_txIdx : (s.chunkBegun).txIdx = s.txIdx := rfl
@[simp] theorem State.chunkBegun_st : (s.chunkBegun).st = s.st := rfl
@[simp] theorem State.chunkBegun_opl : (s.chunkBegun).opl = s.opl := rfl
@[simp] theorem State.chunkBegun_al : (s.chunkBegun).al = s.al := rfl
@[simp] theorem State.chunkBegun_total : (s.chunkBegun).total = s.total := rfl
@[simp] theorem State.chunkBegun_minDur : (s.chunkBegun).minDur = s.minDur := rfl
@[simp] theorem State.chunkBegun_count : (s.chunkBegun).count = s.count := rfl
@[simp] theorem State.chunkBegun_csize : (s.chunkBegun).csize = BitVec.ofNat 32 s.chunkSize := rfl
@[simp] theorem State.chunkBegun_tStart : (s.chunkBegun).tStart = s.now := rfl
@[simp] theorem State.chunkBegun_rxIdx : (s.chunkBegun).rxIdx = s.rxIdx := rfl
@[simp] theorem State.chunkBegun_zeroCnt : (s.chunkBegun).zeroCnt = s.zeroCnt := rfl
@[simp] theorem State.chunkBegun_pend : (s.chunkBegun).pend = s.pend := rfl
@[simp] theorem State.chunkBegun_now : (s.chunkBegun).now = s.now := rfl
@[simp] theorem State.chunkBegun_log : (s.chunkBegun).log = s.log := rfl
@[simp] theorem State.chunkBegun_answers : (s.chunkBegun).answers = s.answers := rfl
@[simp] theorem State.chunkBegun_verdict : (s.chunkBegun).verdict = s.verdict := rfl
@[simp] theorem State.chunkBegun_prog : (s.chunkBegun).prog = s.prog := rfl
@[simp] theorem State.chunkBegun_sched : (s.chunkBegun).sched = s.sched := rfl
@[simp] theorem State.chunkBegun_draws : (s.chunkBegun).draws = s.draws := rfl

/-! ### State.scheduled -/

@[simp] theorem State.scheduled_params (l : List Act) : (s.scheduled l).params = s.params := rfl
@[simp] theorem State.scheduled_op (l : List Act) : (s.scheduled l).op = s.op := rfl
@[simp] theorem State.scheduled_irqEn (l : List Act) : (s.scheduled l).irqEn = s.irqEn := rfl
@[simp] theorem State.scheduled_done (l : List Act) : (s.scheduled l).done = s.done := rfl
@[simp] theorem State.scheduled_cmdrej (l : List Act) : (s.scheduled l).cmdrej = s.cmdrej := rfl
@[simp] theorem State.scheduled_err (l : List Act) : (s.scheduled l).err = s.err := rfl
@[simp] theorem State.scheduled_addr (l : List Act) : (s.scheduled l).addr = s.addr := rfl
@[simp] theorem State.scheduled_len (l : List Act) : (s.scheduled l).len = s.len := rfl
@[simp] theorem State.scheduled_throughput (l : List Act) : (s.scheduled l).throughput = s.throughput := rfl
@[simp] theorem State.scheduled_xcount (l : List Act) : (s.scheduled l).xcount = s.xcount := rfl
@[simp] theorem State.scheduled_dtr (l : List Act) : (s.scheduled l).dtr = s.dtr := rfl
@[simp] theorem State.scheduled_rts (l : List Act) : (s.scheduled l).rts = s.rts := rfl
@[simp] theorem State.scheduled_data (l : List Act) : (s.scheduled l).data = s.data := rfl
@[simp] theorem State.scheduled_frame (l : List Act) : (s.scheduled l).frame = s.frame := rfl
@[simp] theorem State.scheduled_flen (l : List Act) : (s.scheduled l).flen = s.flen := rfl
@[simp] theorem State.scheduled_txIdx (l : List Act) : (s.scheduled l).txIdx = s.txIdx := rfl
@[simp] theorem State.scheduled_st (l : List Act) : (s.scheduled l).st = s.st := rfl
@[simp] theorem State.scheduled_opl (l : List Act) : (s.scheduled l).opl = s.opl := rfl
@[simp] theorem State.scheduled_al (l : List Act) : (s.scheduled l).al = s.al := rfl
@[simp] theorem State.scheduled_total (l : List Act) : (s.scheduled l).total = s.total := rfl
@[simp] theorem State.scheduled_minDur (l : List Act) : (s.scheduled l).minDur = s.minDur := rfl
@[simp] theorem State.scheduled_count (l : List Act) : (s.scheduled l).count = s.count := rfl
@[simp] theorem State.scheduled_csize (l : List Act) : (s.scheduled l).csize = s.csize := rfl
@[simp] theorem State.scheduled_tStart (l : List Act) : (s.scheduled l).tStart = s.tStart := rfl
@[simp] theorem State.scheduled_rxIdx (l : List Act) : (s.scheduled l).rxIdx = s.rxIdx := rfl
@[simp] theorem State.scheduled_zeroCnt (l : List Act) : (s.scheduled l).zeroCnt = s.zeroCnt := rfl
@[simp] theorem State.scheduled_pend (l : List Act) : (s.scheduled l).pend = s.pend := rfl
@[simp] theorem State.scheduled_now (l : List Act) : (s.scheduled l).now = s.now := rfl
@[simp] theorem State.scheduled_log (l : List Act) : (s.scheduled l).log = s.log := rfl
@[simp] theorem State.scheduled_answers (l : List Act) : (s.scheduled l).answers = s.answers := rfl
@[simp] theorem State.scheduled_verdict (l : List Act) : (s.scheduled l).verdict = s.verdict := rfl
@[simp] theorem State.scheduled_prog (l : List Act) : (s.scheduled l).prog = s.prog := rfl
@[simp] theorem State.scheduled_sched (l : List Act) : (s.scheduled l).sched = l := rfl
@[simp] theorem State.scheduled_draws (l : List Act) : (s.scheduled l).draws = s.draws := rfl

/-! ### State.advanced -/

@[simp] theorem State.advanced_params (c : Code) (l : List Code) : (s.advanced c l).params = s.params := rfl
@[simp] theorem State.advanced_op (c : Code) (l : List Code) : (s.advanced c l).op = s.op := rfl
@[simp] theorem State.advanced_irqEn (c : Code) (l : List Code) : (s.advanced c l).irqEn = s.irqEn := rfl
@[simp] theorem State.advanced_done (c : Code) (l : List Code) : (s.advanced c l).done = s.done := rfl
@[simp] theorem State.advanced_cmdrej (c : Code) (l : List Code) : (s.advanced c l).cmdrej = s.cmdrej := rfl
@[simp] theorem State.advanced_err (c : Code) (l : List Code) : (s.advanced c l).err = s.err := rfl
@[simp] theorem State.advanced_addr (c : Code) (l : List Code) : (s.advanced c l).addr = s.addr := rfl
@[simp] theorem State.advanced_len (c : Code) (l : List Code) : (s.advanced c l).len = s.len := rfl
@[simp] theorem State.advanced_throughput (c : Code) (l : List Code) : (s.advanced c l).throughput = s.throughput := rfl
@[simp] theorem State.advanced_xcount (c : Code) (l : List Code) : (s.advanced c l).xcount = s.xcount := rfl
@[simp] theorem State.advanced_dtr (c : Code) (l : List Code) : (s.advanced c l).dtr = s.dtr := rfl
@[simp] theorem State.advanced_rts (c : Code) (l : List Code) : (s.advanced c l).rts = s.rts := rfl
@[simp] theorem State.advanced_data (c : Code) (l : List Code) : (s.advanced c l).data = s.data := rfl
@[simp] theorem State.advanced_frame (c : Code) (l : List Code) : (s.advanced c l).frame = s.frame := rfl
@[simp] theorem State.advanced_flen (c : Code) (l : List Code) : (s.advanced c l).flen = s.flen := rfl
@[simp] theorem State.advanced_txIdx (c : Code) (l : List Code) : (s.advanced c l).txIdx = s.txIdx := rfl
@[simp] theorem State.advanced_st (c : Code) (l : List Code) : (s.advanced c l).st = s.st := rfl
@[simp] theorem State.advanced_opl (c : Code) (l : List Code) : (s.advanced c l).opl = s.opl := rfl
@[simp] theorem State.advanced_al (c : Code) (l : List Code) : (s.advanced c l).al = s.al := rfl
@[simp] theorem State.advanced_total (c : Code) (l : List Code) : (s.advanced c l).total = s.total := rfl
@[simp] theorem State.advanced_minDur (c : Code) (l : List Code) : (s.advanced c l).minDur = s.minDur := rfl
@[simp] theorem State.advanced_count (c : Code) (l : List Code) : (s.advanced c l).count = s.count := rfl
@[simp] theorem State.advanced_csize (c : Code) (l : List Code) : (s.advanced c l).csize = s.csize := rfl
@[simp] theorem State.advanced_tStart (c : Code) (l : List Code) : (s.advanced c l).tStart = s.tStart := rfl
@[simp] theorem State.advanced_rxIdx (c : Code) (l : List Code) : (s.advanced c l).rxIdx = s.rxIdx := rfl
@[simp] theorem State.advanced_zeroCnt (c : Code) (l : List Code) : (s.advanced c l).zeroCnt = s.zeroCnt := rfl
@[simp] theorem State.advanced_pend (c : Code) (l : List Code) : (s.advanced c l).pend = s.pend := rfl
@[simp] theorem State.advanced_now (c : Code) (l : List Code) : (s.advanced c l).now = s.now := rfl
@[simp] theorem State.advanced_log (c : Code) (l : List Code) : (s.advanced c l).log = s.log := rfl
@[simp] theorem State.advanced_answers (c : Code) (l : List Code) : (s.advanced c l).answers = s.answers := rfl
@[simp] theorem State.advanced_verdict (c : Code) (l : List Code) : (s.advanced c l).verdict = s.verdict := rfl
@[simp] theorem State.advanced_prog (c : Code) (l : List Code) : (s.advanced c l).prog = codeRest c ++ l := rfl
@[simp] theorem State.advanced_sched (c : Code) (l : List Code) : (s.advanced c l).sched = s.sched := rfl
@[simp] theorem State.advanced_draws (c : Code) (l : List Code) : (s.advanced c l).draws = s.draws := rfl

end Sys2Proof.Machine
end

