-- ==== Sys2Proof/Laws/Ops.lean ====
section
/-!
SUPPORT. For each shared operation, once, everything it can do: what it answers and under which condition.
-/

namespace Sys2Proof.Machine

/-! ## Going on from an outcome -/

@[simp] theorem andThen_next (s : State) (f : State → Out) : andThen (.next s) f = f s := rfl
@[simp] theorem andThen_fault (r : Fault) (f : State → Out) : andThen (.fault r) f = .fault r := rfl
@[simp] theorem andThen_refused (r : Refusal) (f : State → Out) : andThen (.refused r) f = .refused r := rfl

/-! ## START -/

theorem op2_cases (x : BitVec 2) : x = 0 ∨ x = 1 ∨ x = 2 ∨ x = 3 := by
  revert x
  decide

/-- A START that passes every check (R201). -/
theorem startCheck_go {p : Params} {opl : BitVec 2} {al total throughput : Word}
    (h : startCheck p opl al total throughput = .go) :
    (opl = 0 ∧ total.toNat ≤ p.testMax) ∨
      ((opl = 1 ∨ opl = 2) ∧ total ≠ 0 ∧ total.toNat ≤ p.bufBytes ∧ al.toNat + total.toNat ≤ 2 ^ p.addrW ∧
        throughput ≠ 0) := by
  unfold startCheck isTransfer at h
  split_ifs at h with h1 h2 h3 h4 h5 h6
  rcases op2_cases opl with rfl | rfl | rfl | rfl
  · left; simp at h4; exact ⟨rfl, by omega⟩
  · right
    simp at h2 h3 h5 h6
    exact ⟨.inl rfl, h2, by omega, by omega, h6⟩
  · right
    simp at h2 h3 h5 h6
    exact ⟨.inr rfl, h2, by omega, by omega, h6⟩
  · exact absurd rfl h1

/-- The START step on an idle block ends in one of three ways (R200, R201). -/
theorem accept_cases (s : State) :
    (startCheck s.params s.op s.addr s.len s.throughput = .go ∧ s.accept = s.latched.goto .chunk) ∨
    (startCheck s.params s.op s.addr s.len s.throughput = .nothing ∧ s.accept = s.latched.finish 0) ∨
    (∃ e, startCheck s.params s.op s.addr s.len s.throughput = .refuse e ∧ s.accept = s.latched.raiseError e) := by
  unfold State.accept
  simp only [State.latched_params, State.latched_opl, State.latched_al, State.latched_total, State.latched_throughput]
  cases h : startCheck s.params s.op s.addr s.len s.throughput with
  | go => exact .inl ⟨rfl, rfl⟩
  | nothing => exact .inr (.inl ⟨rfl, rfl⟩)
  | refuse e => exact .inr (.inr ⟨e, rfl, rfl⟩)

/-- A START request is dropped with CMDREJ when BUSY, else accepted (R200, R201). -/
theorem requestStart_cases (s : State) :
    (s.busy = true ∧ s.requestStart = { s with cmdrej := true }) ∨ (s.busy = false ∧ s.requestStart = s.accept) := by
  unfold State.requestStart
  cases h : s.busy with
  | true => exact .inl ⟨rfl, rfl⟩
  | false => exact .inr ⟨rfl, rfl⟩

/-- A write to CTRL updates OP and IRQ_EN, and then acts on START (R35). -/
theorem writeCtrl_cases (s : State) (op : BitVec 2) (irqEn start : Bool) :
    (start = false ∧ s.writeCtrl op irqEn start = { s with op := op, irqEn := irqEn }) ∨
    (start = true ∧ s.writeCtrl op irqEn start = State.requestStart { s with op := op, irqEn := irqEn }) := by
  cases start
  · exact .inl ⟨rfl, rfl⟩
  · exact .inr ⟨rfl, rfl⟩

/-! ## Host accesses -/

/-- A place of DATA lies inside the buffer (R63). -/
theorem placeAt_data {p : Params} {off size a : Nat} (h : placeAt p off size = .data a) :
    a + 0x100 = off ∧ a + size ≤ p.bufBytes ∧ off % size = 0 := by
  unfold placeAt at h
  split_ifs at h with h1 h2 h3
  · cases hr : regAt off <;> simp [hr] at h
  · simp only [Place.data.injEq] at h
    omega

/-- A place among the registers is a whole register (R63). -/
theorem placeAt_reg {p : Params} {off size : Nat} {r : Reg} (h : placeAt p off size = .reg r) :
    size = 4 ∧ regAt off = some r := by
  unfold placeAt at h
  split_ifs at h with h1 h2
  cases hr : regAt off with
  | none => simp [hr] at h
  | some q =>
    simp only [hr, Place.reg.injEq] at h
    exact ⟨h2, congrArg some h⟩

/-- A DATA access inside the buffer and aligned reaches DATA (R63). -/
theorem placeAt_of_data {p : Params} {off n : Nat} (h1 : 0x100 ≤ off) (h2 : off + n ≤ 0x100 + p.bufBytes)
    (h3 : off % n = 0) : placeAt p off n = .data (off - 0x100) := by
  unfold placeAt
  rw [if_neg (by omega), if_pos ⟨h2, h3⟩]

/-- The offsets that hold no register (R28). -/
theorem regAt_none {off : Nat} (h : ¬(off ≤ 0x24 ∧ off % 4 = 0)) : regAt off = none := by
  unfold regAt
  split_ifs <;> first | rfl | (exfalso; omega)

/-- An access that R63 does not admit reaches nothing. -/
theorem placeAt_of_nowhere {p : Params} {off n : Nat} (h1 : n = 4 → ¬(off ≤ 0x24 ∧ off % 4 = 0))
    (h2 : ¬(0x100 ≤ off ∧ off + n ≤ 0x100 + p.bufBytes ∧ off % n = 0)) : placeAt p off n = .nowhere := by
  unfold placeAt
  split_ifs with a b c
  · rw [regAt_none (h1 b)]
  · rfl
  · exact absurd ⟨by omega, c⟩ h2
  · rfl

/-- A DATA write on an idle block (R68). -/
theorem busWrite_of_idle {s : State} {off n : Nat} {v : Word} (hs : s.st = .idle) (h1 : 0x100 ≤ off)
    (h2 : off + n ≤ 0x100 + s.params.bufBytes) (h3 : off % n = 0) :
    s.busWrite off n v = (s.stored (off - 0x100) (leBytes n v)).answered .written := by
  simp [State.busWrite, placeAt_of_data h1 h2 h3, State.busy, hs]

/-- A DATA read on an idle block (R67). -/
theorem busRead_of_idle {s : State} {off n : Nat} (hs : s.st = .idle) (h1 : 0x100 ≤ off)
    (h2 : off + n ≤ 0x100 + s.params.bufBytes) (h3 : off % n = 0) :
    s.busRead off n =
      (s.drew n).answered (.value (fromLE (dataBytes s.data s.draws (off - 0x100) n))) := by
  simp [State.busRead, State.readDraws, State.readAnswer, placeAt_of_data h1 h2 h3, State.hostBytes, State.busy, hs]

/-- What a read of DATA finds after the low `n` bytes of a value are stored (R68). -/
theorem stored_leBytes_get (s : State) (a n : Nat) (v : Word) (x : Nat) :
    (s.stored a (leBytes n v)).data.get x =
      if a ≤ x ∧ x < a + n then some (v.extractLsb' (8 * (x - a)) 8) else s.data.get x := by
  unfold State.stored
  simp only [Memory.get_setMany, leBytes_length]
  split_ifs with h
  · exact leBytes_getElem? _ _ _ (by omega)
  · rfl

/-- What one host write does (R64, R66, R68, R69). -/
theorem busWrite_cases (s : State) (off size : Nat) (v : Word) :
    (∃ r, placeAt s.params off size = .reg r ∧ s.busWrite off size v = (s.writeReg r v).answered .written) ∨
    (∃ a, placeAt s.params off size = .data a ∧ s.busy = true ∧ s.busWrite off size v = s.answered .written) ∨
    (∃ a, placeAt s.params off size = .data a ∧ s.busy = false ∧
      s.busWrite off size v = (s.stored a (leBytes size v)).answered .written) ∨
    (placeAt s.params off size = .nowhere ∧ s.busWrite off size v = s.answered .busErrWrite) := by
  unfold State.busWrite
  cases h : placeAt s.params off size with
  | reg r => exact .inl ⟨r, rfl, rfl⟩
  | data a =>
    cases hb : s.busy with
    | true => exact .inr (.inl ⟨a, rfl, rfl, by simp⟩)
    | false => exact .inr (.inr (.inl ⟨a, rfl, rfl, by simp⟩))
  | nowhere => exact .inr (.inr (.inr ⟨rfl, rfl⟩))

/-- What one host read does to the state: it draws, and it is answered (R65, R67, R69). -/
theorem busRead_eq (s : State) (off size : Nat) :
    s.busRead off size = (s.drew (s.readDraws off size)).answered (s.readAnswer off size) := rfl

/-- What one read of a POLL does (R111). -/
theorem pollOnce_cases (s : State) (off : Nat) (mask v : Word) (c : Code) :
    ((s.readAnswer off 4).word &&& mask = v ∧ s.pollOnce off mask v c = s.busRead off 4) ∨
    ((s.readAnswer off 4).word &&& mask ≠ v ∧ s.pollOnce off mask v c = (s.busRead off 4).again c) := by
  unfold State.pollOnce
  by_cases h : (s.readAnswer off 4).word &&& mask = v
  · exact .inl ⟨h, by simp [h]⟩
  · exact .inr ⟨h, by simp [h]⟩

/-! ## The codec and the transport port -/

/-- FLEN holds every length that fits it (R132, R133). -/
theorem frameLength_toNat {d n : Nat} (h : n < 256) : (frameLength d n).toNat = n := by
  simp [frameLength, h]

/-- FRAME is FLEN bytes after a frame that is longer than the buffer, too. -/
theorem framedPast_length (s : State) (bs : List Byte) :
    (s.framedPast bs).frame.length = (s.framedPast bs).flen.toNat := by
  have := (frameLength s.draws bs.length).isLt
  simp
  omega

/-- Where FRAME has room, it holds the frame's bytes. -/
theorem framedPast_getElem? (s : State) (bs : List Byte) {j : Nat} (h1 : j < (s.framedPast bs).flen.toNat)
    (h2 : j < s.params.frameMax) (h3 : j < bs.length) : (s.framedPast bs).frame[j]? = bs[j]? := by
  simp only [State.framedPast_flen] at h1
  simp only [State.framedPast_frame]
  rw [List.getElem?_take_of_lt h1, List.getElem?_append_left (by simp; omega), List.getElem?_take_of_lt h2]

/-- The codec's two cases (R130). -/
theorem fillFrame_cases (bs : List Byte) (s : State) :
    (bs.length ≤ s.params.frameMax ∧ fillFrame bs s = s.framed bs) ∨
    (s.params.frameMax < bs.length ∧ fillFrame bs s = s.framedPast bs) := by
  unfold fillFrame
  by_cases h : bs.length ≤ s.params.frameMax
  · exact .inl ⟨h, if_pos h⟩
  · exact .inr ⟨by omega, if_neg h⟩

/-- The codec's effect on a frame that fits (R130). -/
theorem fillFrame_of_fits {bs : List Byte} {s : State} (h : bs.length ≤ s.params.frameMax) :
    fillFrame bs s = s.framed bs := if_pos h

/-- A frame instruction's effect, if it has one (R34, R130). -/
theorem codeFrame_next {n : Nat} {bs : List Byte} {s t : State} (h : codeFrame n bs s = .next t) :
    s.st.sending = false ∧ n < 2 ^ 32 ∧ t = fillFrame bs s := by
  unfold codeFrame at h
  split_ifs at h with h1 h2
  cases h
  exact ⟨by simpa using h1, h2, rfl⟩

/-- A frame instruction stops only on a length that does not fit its field (I4). -/
theorem codeFrame_fault {n : Nat} {bs : List Byte} {s : State} {f : Fault} (h : codeFrame n bs s = .fault f) :
    2 ^ 32 ≤ n ∧ f = .lengthPastU32 := by
  unfold codeFrame at h
  split_ifs at h with h1 h2
  cases h
  exact ⟨by omega, rfl⟩

/-- The codec's effect while FRAME is not being sent (R130). -/
theorem codeFrame_of {n : Nat} {bs : List Byte} {s : State} (hs : s.st.sending = false) (h : n < 2 ^ 32) :
    codeFrame n bs s = .next (fillFrame bs s) := by
  simp only [codeFrame, hs, h, Bool.false_eq_true, if_false, if_true]

/-- The sequencer's own request is issued (R150). -/
theorem issueRequest_of {r : Req} {s : State} (h1 : s.pend = none) (h2 : s.cannotIssue = none)
    (h3 : s.request = some r) : issueRequest r s = .next (s.issued r) := by
  unfold issueRequest
  rw [if_pos ⟨h1, h2, h3⟩]

/-- A request is issued only as the sequencer issues it (R150, R27). -/
theorem issueRequest_next {r : Req} {s t : State} (h : issueRequest r s = .next t) :
    s.pend = none ∧ s.cannotIssue = none ∧ s.request = some r ∧ t = s.issued r := by
  unfold issueRequest at h
  split_ifs at h with h1
  cases h
  exact ⟨h1.1, h1.2.1, h1.2.2, rfl⟩

/-- The request of a state has the op that the state awaits (R30, R49). -/
theorem request_op {s : State} {r : Req} (h : s.request = some r) : s.st.op = some r.op := by
  unfold State.request at h
  cases hs : s.st <;> simp [hs] at h <;> subst h <;> rfl

/-- The sequencer's issue step, if it answers a next state: it issues its request, or has none to issue. -/
theorem issueStep_next {s t : State} (h : issueStep s = .next t) :
    (∃ r, s.pend = none ∧ s.cannotIssue = none ∧ s.request = some r ∧ t = s.issued r) ∨ t = s := by
  unfold issueStep at h
  split_ifs at h with h1
  · split at h
    · cases h
    · cases h
      rename_i r h2 h3
      exact .inl ⟨r, h1, h2, h3, rfl⟩
    · cases h
      exact .inr rfl
  · cases h
    exact .inr rfl

/-! ## Completions -/

/-- What an OK completion of DTR_OFF does (R160, R166). -/
theorem onDtrOff_next {s t : State} (h : onDtrOff s = .next t) :
    (s.opl = 1 ∧ t = State.goto { s with dtr := false } .waitC) ∨
    (s.opl = 2 ∧ t = State.chunkEnd { s with dtr := false }) ∨
    (s.opl = 0 ∧ t = State.goto { s with dtr := false } .rx) := by
  unfold onDtrOff at h
  split_ifs at h with h1 h2 h3 <;> cases h
  · exact .inl ⟨h1, rfl⟩
  · exact .inr (.inl ⟨h2, rfl⟩)
  · exact .inr (.inr ⟨h3, rfl⟩)

/-- What storing received bytes does, if it does (R163, R165). -/
theorem storeData_next {a : Nat} {bs : List Byte} {s t : State} (h : storeData a bs s = .next t) :
    a + bs.length ≤ s.params.bufBytes ∧ t = s.stored a bs := by
  unfold storeData at h
  split_ifs at h with h1
  cases h
  exact ⟨h1, rfl⟩

/-- What an OK completion in RX does (R163 to R165). -/
theorem onRead_next {r : Resp} {s t : State} (h : onRead r s = .next t) :
    (s.opl = 1 ∧ r.count = 0 ∧ t = onZeroRead s) ∨
    (s.opl = 1 ∧ r.count ≠ 0 ∧ s.count.toNat + s.rxIdx.toNat + r.bytes.length ≤ s.params.bufBytes ∧
      t = (s.stored (s.count.toNat + s.rxIdx.toNat) r.bytes).received r.count) ∨
    (s.opl = 0 ∧ r.bytes.length ≤ s.params.bufBytes ∧ t = (s.stored 0 r.bytes).finish r.count) := by
  unfold onRead storeData at h
  split_ifs at h with h1 h2 h3 h4 h5 <;> simp at h
  · exact .inl ⟨h1, h2, h.symm⟩
  · exact .inr (.inl ⟨h1, h2, h3, h.symm⟩)
  · exact .inr (.inr ⟨h4, by omega, h.symm⟩)

/-- What a completion does, if it answers a next state: nothing when nothing is outstanding; else it is logged, PEND becomes
`none`, and the "on" clause of ST runs (R150). -/
theorem completeStep_next {r : Resp} {s t : State} (h : completeStep r s = .next t) :
    (s.pend = none ∧ t = s) ∨
    (∃ op, s.pend = some op ∧ s.st.op = some op ∧ onResp r ((s.logged (.complete op r)).settled) = .next t) := by
  unfold completeStep at h
  cases hp : s.pend with
  | none => rw [hp] at h; cases h; exact .inl ⟨rfl, rfl⟩
  | some op =>
    rw [hp] at h
    simp only at h
    split_ifs at h with h1
    exact .inr ⟨op, rfl, h1, h⟩

/-- The "on" clauses (R154 to R167): an error, or the move of the state's own rule. -/
theorem onResp_next {r : Resp} {s t : State} (h : onResp r s = .next t) :
    (s.st.op.isSome = true ∧ t = s.raiseError .io) ∨
    (s.st = .clear ∧ t = s.goto .dtrOn) ∨
    (s.st = .dtrOn ∧ t = State.goto { s with dtr := true } .rtsOn) ∨
    (s.st = .rtsOn ∧ t = State.goto { s with rts := true } .tx) ∨
    (s.st = .tx ∧ writeOk s.unsent.length r = true ∧ t = s.sent r.count) ∨
    (s.st = .flush ∧ t = s.goto .rtsOff) ∨
    (s.st = .rtsOff ∧ t = State.goto { s with rts := false } .dtrOff) ∨
    (s.st = .dtrOff ∧ onDtrOff s = .next t) ∨
    (s.st = .waitC ∧ t = s.enterRx) ∨
    (s.st = .rx ∧ readOk s.rxMax r = true ∧ onRead r s = .next t) := by
  unfold onResp at h
  cases hs : s.st <;> simp only [hs] at h <;> try cases h
  all_goals first
    | (split_ifs at h with hb <;> first
        | (cases h; simp [St.op])
        | simp [St.op, h, hb])
    | skip
  all_goals
    by_cases hb : r.ok = true <;> simp [St.op, hb]
  all_goals
    by_cases hw : writeOk s.unsent.length r = true <;> simp [hw]

/-! ## The chunk loop -/

/-- The frame of a chunk (R208). -/
theorem sendFrame_next {bs : List Byte} {s t : State} (h : sendFrame bs s = .next t) :
    t = (fillFrame bs s).goto .clear := by
  cases h
  rfl

/-- What CHUNK does, if it answers a next state (R208). -/
theorem chunkStep_next {s t : State} (h : chunkStep s = .next t) :
    (s.opl = 1 ∧ s.count.toNat < s.total.toNat ∧
      t = (fillFrame (encRead (s.al + s.count) (BitVec.ofNat 32 s.chunkSize)) s.chunkBegun).goto .clear) ∨
    (s.opl = 2 ∧ s.count.toNat < s.total.toNat ∧ s.count.toNat + s.chunkSize ≤ s.params.bufBytes ∧
      t = (fillFrame (encWrite (s.al + s.count) (dataBytes s.data s.draws s.count.toNat s.chunkSize))
        (s.chunkBegun.drew s.chunkSize)).goto .clear) ∨
    (s.opl = 0 ∧ s.total.toNat ≤ s.params.bufBytes ∧
      t = (fillFrame (encTest (dataBytes s.data s.draws 0 s.total.toNat))
        (State.drew { s with csize := s.total } s.total.toNat)).goto .clear) := by
  unfold chunkStep at h
  split_ifs at h with h1 h2 h3
  · unfold chunkRead at h
    split_ifs at h with h4
    exact .inl ⟨h1, h4, sendFrame_next h⟩
  · unfold chunkWrite readData at h
    simp only at h
    split_ifs at h with h4 h5
    exact .inr (.inl ⟨h2, h4, h5, sendFrame_next h⟩)
  · unfold chunkTest readData at h
    split_ifs at h with h4
    exact .inr (.inr ⟨h3, by simpa using h4, sendFrame_next h⟩)

/-- What the sequencer's step does, if it answers a next state: nothing, CHUNK, PACE's exit, or the issue of ST's request. -/
theorem seqStep_next {s t : State} (h : seqStep s = .next t) :
    t = s ∨ (s.st = .chunk ∧ chunkStep s = .next t) ∨ (s.st = .pace ∧ s.paced = true ∧ t = s.afterPace) ∨
    (∃ r, s.pend = none ∧ s.cannotIssue = none ∧ s.request = some r ∧ t = s.issued r) := by
  unfold seqStep at h
  cases hs : s.st <;> simp only [hs] at h
  case idle => cases h; exact .inl rfl
  case chunk => exact .inr (.inl ⟨rfl, h⟩)
  case pace =>
    cases hp : s.paced with
    | true => simp [hp] at h; exact .inr (.inr (.inl ⟨rfl, rfl, h.symm⟩))
    | false => simp [hp] at h; exact .inl h.symm
  case unused => cases h
  all_goals
    rcases issueStep_next h with ⟨r, hr⟩ | hr
    · exact .inr (.inr (.inr ⟨r, hr⟩))
    · exact .inl hr

/-! ## The moves -/

/-- What a fetch does, if it answers a next state (R110, R135, R136). -/
theorem fetchStep_next {s t : State} (h : fetchStep s = .next t) :
    (s.prog = [] ∧ t = s) ∨
    (∃ c rest, s.prog = c :: rest ∧
      ((∃ i, decode c = .instr i ∧ exec i (s.advanced c rest) = .next t) ∨
        (decode c = .bad .incomplete ∧ t = (s.advanced c rest).judged .incomplete))) := by
  unfold fetchStep at h
  cases hp : s.prog with
  | nil => rw [hp] at h; cases h; exact .inl ⟨rfl, rfl⟩
  | cons c rest =>
    rw [hp] at h
    refine .inr ⟨c, rest, rfl, ?_⟩
    simp only [present] at h
    cases hd : decode c with
    | instr i => rw [hd] at h; exact .inl ⟨i, rfl, h⟩
    | bad e =>
      rw [hd] at h
      cases e <;> simp at h
      exact .inr ⟨rfl, h.symm⟩

/-- A step is one move of the agent that the environment chose (R11, R20). -/
theorem step_next {s t : State} (h : step s = .next t) :
    s.st.isUnused = false ∧
      ((∃ a rest, s.sched = a :: rest ∧ runAct a (s.scheduled rest) = .next t) ∨
        (s.sched = [] ∧ runAct (Config.freeAct s.draws) (s.drew 1) = .next t)) := by
  unfold step at h
  split_ifs at h with h1
  refine ⟨by simpa using h1, ?_⟩
  unfold moveStep at h
  cases hs : s.sched with
  | nil => rw [hs] at h; exact .inr ⟨rfl, h⟩
  | cons a rest => rw [hs] at h; exact .inl ⟨a, rest, rfl, h⟩

/-- A run goes on from the state that its first step answers. -/
theorem core_run_of_step {s t : State} {k : Nat} (h : step s = .next t) :
    Sys2Proof.core.run (k + 1) s = Sys2Proof.core.run k t := by
  have h' : Sys2Proof.core.step s = .next t := h
  simp only [Host.Core.run, h']

end Sys2Proof.Machine
end

