-- ==== Sys2Proof/Laws/PerInstr.lean ====
section
/-!
SUPPORT. Statements for all instructions, made per instruction: the encoding of every instruction stands at the interface of its row of
spec/opcode_table.json and carries the row's fixed bits.
-/

namespace Sys2Proof.Laws

/-- A row's format, with its `match` and `mask` where the table gives the format bits. -/
inductive Row where
  /-- The bits of `(byte0 << 8) | byte1` of a frame. -/
  | wireFrame (pattern mask : Nat)
  | ctrlWord (pattern mask : Nat)
  | statusWord
  | transportReq (pattern mask : Nat)
  | hostBus
  | hostPseudo

/-- Whether a code stands at a row's interface and carries its fixed bits. -/
def Row.fits : Row → Code → Prop
  | .wireFrame pattern mask, .frame bytes =>
    2 ≤ bytes.length ∧ ((bytes.getD 0 0).toNat * 256 + (bytes.getD 1 0).toNat) &&& mask = pattern
  | .ctrlWord pattern mask, .ctrl w => w.toNat &&& mask = pattern
  | .statusWord, .status _ => True
  | .transportReq pattern mask, .request top _ _ _ => top.toNat &&& mask = pattern
  | .hostBus, .busWrite _ _ _ => True
  | .hostBus, .busRead _ _ => True
  | .hostPseudo, .line _ _ => True
  | _, _ => False

/-- The row of each instruction, as the table has it. -/
def rowOf : Instr → Row
  | .frameTest _ => .wireFrame 0x0000 0xFFFF
  | .frameRead _ _ => .wireFrame 0x0001 0xFFFF
  | .frameWrite _ _ => .wireFrame 0x0002 0xFFFF
  | .frameInvalidOpcode _ => .wireFrame 0x0000 0xFF00
  | .frameInvalidPrefix _ _ => .wireFrame 0x0000 0x0000
  | .startTest _ => .ctrlWord 0x00000100 0x00000103
  | .startRead _ => .ctrlWord 0x00000101 0x00000103
  | .startWrite _ => .ctrlWord 0x00000102 0x00000103
  | .startReserved _ => .ctrlWord 0x00000103 0x00000103
  | .ctrlSet _ _ => .ctrlWord 0x00000000 0x00000100
  | .statusW1c _ _ => .statusWord
  | .tClear => .transportReq 0x0 0x7
  | .tSetDtr _ => .transportReq 0x1 0x7
  | .tSetRts _ => .transportReq 0x2 0x7
  | .tWrite _ => .transportReq 0x3 0x7
  | .tFlush => .transportReq 0x4 0x7
  | .tRead _ => .transportReq 0x5 0x7
  | .tWaitC => .transportReq 0x6 0x7
  | .tReserved => .transportReq 0x7 0x7
  | .wr32 _ _ => .hostBus
  | .wr16 _ _ => .hostBus
  | .wr8 _ _ => .hostBus
  | .rd32 _ => .hostBus
  | .rd16 _ => .hostBus
  | .rd8 _ => .hostBus
  | .start _ => .hostPseudo
  | .starti _ => .hostPseudo
  | .poll _ _ _ => .hostPseudo
  | .waitdone => .hostPseudo
  | .ack => .hostPseudo
  | .load _ _ => .hostPseudo

end Sys2Proof.Laws

/-- The instruction's encoding fits its row. -/
def Sys2Proof.Laws.FitsRow.Statement (i : Sys2Proof.Instr) : Prop :=
  (Sys2Proof.Laws.rowOf i).fits (Sys2Proof.encode i)

namespace Sys2Proof.Laws

theorem FitsRow.frameTest (payload : List Byte) : FitsRow.Statement (.frameTest payload) := by
  simp [FitsRow.Statement, rowOf, Row.fits, encode, encTest]

theorem FitsRow.frameRead (addr len : Word) : FitsRow.Statement (.frameRead addr len) := by
  simp [FitsRow.Statement, rowOf, Row.fits, encode, encRead]

theorem FitsRow.frameWrite (addr : Word) (payload : List Byte) :
    FitsRow.Statement (.frameWrite addr payload) := by
  simp [FitsRow.Statement, rowOf, Row.fits, encode, encWrite]

theorem FitsRow.frameInvalidOpcode (opc : Byte) : FitsRow.Statement (.frameInvalidOpcode opc) := by
  refine ⟨Nat.le_refl 2, ?_⟩
  show (0 * 256 + opc.toNat) &&& 0xFF00 = 0
  revert opc
  decide

theorem FitsRow.frameInvalidPrefix (cls opc : Byte) : FitsRow.Statement (.frameInvalidPrefix cls opc) :=
  ⟨Nat.le_refl 2, Nat.and_zero _⟩

theorem FitsRow.startTest (irqEn : Bool) : FitsRow.Statement (.startTest irqEn) := by cases irqEn <;> rfl
theorem FitsRow.startRead (irqEn : Bool) : FitsRow.Statement (.startRead irqEn) := by cases irqEn <;> rfl
theorem FitsRow.startWrite (irqEn : Bool) : FitsRow.Statement (.startWrite irqEn) := by cases irqEn <;> rfl
theorem FitsRow.startReserved (irqEn : Bool) : FitsRow.Statement (.startReserved irqEn) := by
  cases irqEn <;> rfl

theorem FitsRow.ctrlSet (op : BitVec 2) (irqEn : Bool) : FitsRow.Statement (.ctrlSet op irqEn) := by
  show (setWord op irqEn).toNat &&& 0x100 = 0
  revert op irqEn
  decide

theorem FitsRow.statusW1c (done cmdrej : Bool) : FitsRow.Statement (.statusW1c done cmdrej) := trivial
theorem FitsRow.tClear : FitsRow.Statement .tClear := rfl
theorem FitsRow.tSetDtr (val : Bool) : FitsRow.Statement (.tSetDtr val) := rfl
theorem FitsRow.tSetRts (val : Bool) : FitsRow.Statement (.tSetRts val) := rfl
theorem FitsRow.tWrite (data : List Byte) : FitsRow.Statement (.tWrite data) := rfl
theorem FitsRow.tFlush : FitsRow.Statement .tFlush := rfl
theorem FitsRow.tRead (max : Word) : FitsRow.Statement (.tRead max) := rfl
theorem FitsRow.tWaitC : FitsRow.Statement .tWaitC := rfl
theorem FitsRow.tReserved : FitsRow.Statement .tReserved := rfl
theorem FitsRow.wr32 (off value : Word) : FitsRow.Statement (.wr32 off value) := trivial
theorem FitsRow.wr16 (off : Word) (value : BitVec 16) : FitsRow.Statement (.wr16 off value) := trivial
theorem FitsRow.wr8 (off : Word) (value : Byte) : FitsRow.Statement (.wr8 off value) := trivial
theorem FitsRow.rd32 (off : Word) : FitsRow.Statement (.rd32 off) := trivial
theorem FitsRow.rd16 (off : Word) : FitsRow.Statement (.rd16 off) := trivial
theorem FitsRow.rd8 (off : Word) : FitsRow.Statement (.rd8 off) := trivial
theorem FitsRow.start (op : Op) : FitsRow.Statement (.start op) := trivial
theorem FitsRow.starti (op : Op) : FitsRow.Statement (.starti op) := trivial
theorem FitsRow.poll (off mask value : Word) : FitsRow.Statement (.poll off mask value) := trivial
theorem FitsRow.waitdone : FitsRow.Statement .waitdone := trivial
theorem FitsRow.ack : FitsRow.Statement .ack := trivial
theorem FitsRow.load (i : Nat) (bytes : List Byte) : FitsRow.Statement (.load i bytes) := trivial

end Sys2Proof.Laws
end

