-- ==== Sys2Proof/Tests/Slice0.lean ====
section
/-!
SUPPORT. The model's own tests: WellFormed's checks, every constructor's decoding from a word written out from the spec, single steps from the
spec's vectors, and for each obligation with premises a state and operands that meet them.
-/

open Sys2Proof Sys2Proof.Machine

namespace Sys2Proof.Tests

/-- Whether an outcome is a next state with a property. -/
def answers (o : Out) (p : State → Bool) : Bool :=
  match o with
  | .next s => p s
  | .fault _ => false
  | .refused _ => false

/-- Whether an outcome is a given fault. -/
def faults (o : Out) (f : Fault) : Bool :=
  match o with
  | .next _ => false
  | .fault g => decide (g = f)
  | .refused _ => false

/-- Whether an outcome is a given refusal. -/
def refuses (o : Out) (r : Refusal) : Bool :=
  match o with
  | .next _ => false
  | .fault _ => false
  | .refused q => decide (q = r)

/-! ## WellFormed: an ill-formed term for each check -/

theorem test_wf_frameTest (n : Nat) (h : 2 ^ 32 ≤ n) :
    Instr.wellFormed Params.srwp (.frameTest (List.replicate n 0)) = false := by
  simp only [Instr.wellFormed, List.length_replicate, decide_eq_false_iff_not, Nat.not_lt, h]
theorem test_wf_frameWrite (n : Nat) (h : 2 ^ 32 ≤ n) :
    Instr.wellFormed Params.srwp (.frameWrite 0 (List.replicate n 0)) = false := by
  simp only [Instr.wellFormed, List.length_replicate, decide_eq_false_iff_not, Nat.not_lt, h]
theorem test_wf_frameInvalidOpcode : Instr.wellFormed Params.srwp (.frameInvalidOpcode 0x02) = false := by decide
theorem test_wf_frameInvalidPrefix : Instr.wellFormed Params.srwp (.frameInvalidPrefix 0x00 0x07) = false := by
  decide
theorem test_wf_tWrite_empty : Instr.wellFormed Params.srwp (.tWrite []) = false := by decide
theorem test_wf_tWrite_long : Instr.wellFormed Params.srwp (.tWrite (List.replicate 43 0)) = false := by decide
theorem test_wf_tRead : Instr.wellFormed Params.srwp (.tRead 33) = false := by decide
theorem test_wf_load : Instr.wellFormed Params.srwp (.load 0 []) = false := by decide
theorem test_emitted_range :
    (Verdict.read 0xFFFFFFFF 1).emitted Params.srwp = true ∧ (Verdict.read 0xFFFFFFFF 2).emitted Params.srwp = false ∧
      (Verdict.read 0 0).emitted Params.srwp = false ∧ (Verdict.read 0 33).emitted Params.srwp = false := by decide

/-! ## Decoding: words written out from the spec's encodings -/

-- R131, R132, R133: the examples of the codec; 95_test_vectors.md section 1.
theorem test_decode_frameRead :
    decode (.frame [0x00, 0x01, 0x00, 0x01, 0x00, 0x00, 0x20, 0x00, 0x00, 0x00]) = .instr (.frameRead 0x100 32) := by
  decide
theorem test_decode_frameWrite :
    decode (.frame [0x00, 0x02, 0x78, 0x56, 0x34, 0x12, 0x03, 0x00, 0x00, 0x00, 0xAA, 0xBB, 0xCC]) =
      .instr (.frameWrite 0x12345678 [0xAA, 0xBB, 0xCC]) := by decide
theorem test_decode_frameTest :
    decode (.frame [0x00, 0x00, 0x02, 0x00, 0x00, 0x00, 0xDE, 0xAD]) = .instr (.frameTest [0xDE, 0xAD]) := by decide
-- R107: byte 1 of 0x03 to 0xFF, byte 0 other than 0x00.
theorem test_decode_frameInvalid :
    decode (.frame [0x00, 0x03]) = .instr (.frameInvalidOpcode 0x03) ∧
      decode (.frame [0x00, 0xFF, 0x01]) = .instr (.frameInvalidOpcode 0xFF) ∧
      decode (.frame [0x01, 0x00]) = .instr (.frameInvalidPrefix 0x01 0x00) := by decide
-- R136: too few bytes for the header, and for the payload.
theorem test_decode_incomplete :
    decode (.frame [0x00]) = .bad .incomplete ∧ decode (.frame [0x00, 0x00, 0x02, 0x00, 0x00]) = .bad .incomplete ∧
      decode (.frame [0x00, 0x00, 0x02, 0x00, 0x00, 0x00, 0xDE]) = .bad .incomplete := by decide
-- R135: bytes after `consumed` belong to the next frame.
theorem test_codeRest_of_two_frames :
    codeRest (.frame [0x00, 0x00, 0x01, 0x00, 0x00, 0x00, 0xDE, 0x00, 0x01]) = [.frame [0x00, 0x01]] := by decide
-- R106: the start words, IRQ_EN at bit 4, and the ignored bits [3:2], [7:5] and [31:9].
theorem test_decode_start_words :
    decode (.ctrl 0x00000100) = .instr (.startTest false) ∧ decode (.ctrl 0x00000101) = .instr (.startRead false) ∧
      decode (.ctrl 0x00000112) = .instr (.startWrite true) ∧
      decode (.ctrl 0x00000103) = .instr (.startReserved false) ∧
      decode (.ctrl 0xFFFFFFFE) = .instr (.startWrite true) := by decide
theorem test_decode_ctrlSet :
    decode (.ctrl 0x00000011) = .instr (.ctrlSet 1 true) ∧ decode (.ctrl 0xFFFFFEEF) = .instr (.ctrlSet 3 false) := by
  decide
-- R36: DONE at bit 1, CMDREJ at bit 2.
theorem test_decode_statusW1c :
    decode (.status 0x00000002) = .instr (.statusW1c true false) ∧
      decode (.status 0xFFFFFFFD) = .instr (.statusW1c false true) := by decide
-- R108: the request codes.
theorem test_decode_requests :
    decode (.request 0 false [] 0) = .instr .tClear ∧ decode (.request 1 true [] 0) = .instr (.tSetDtr true) ∧
      decode (.request 2 false [] 0) = .instr (.tSetRts false) ∧
      decode (.request 3 false [0x00, 0x01] 0) = .instr (.tWrite [0x00, 0x01]) ∧
      decode (.request 4 false [] 0) = .instr .tFlush ∧ decode (.request 5 false [] 32) = .instr (.tRead 32) ∧
      decode (.request 6 false [] 0) = .instr .tWaitC ∧ decode (.request 7 false [] 0) = .instr .tReserved := by decide
theorem test_decode_request_without_data : decode (.request 3 false [] 0) = .bad .requestData := by decide
-- R112: `W off size value` and `R off size`, from the programs of 95_test_vectors.md.
theorem test_decode_bus :
    decode (.busWrite 0x010 .b4 0x00000C80) = .instr (.wr32 0x010 0x00000C80) ∧
      decode (.busWrite 0x100 .b2 0xADDE) = .instr (.wr16 0x100 0xADDE) ∧
      decode (.busWrite 0x100 .b1 0xAA) = .instr (.wr8 0x100 0xAA) ∧
      decode (.busRead 0x124 .b4) = .instr (.rd32 0x124) ∧ decode (.busRead 0x100 .b2) = .instr (.rd16 0x100) ∧
      decode (.busRead 0x103 .b1) = .instr (.rd8 0x103) := by decide
-- R111: op is TEST = 0, READ = 1 or WRITE = 2.
theorem test_decode_lines :
    decode (.line .start [1]) = .instr (.start .read) ∧ decode (.line .starti [2]) = .instr (.starti .write) ∧
      decode (.line .poll [4, 2, 2]) = .instr (.poll 0x004 0x2 0x2) ∧ decode (.line .waitdone []) = .instr .waitdone ∧
      decode (.line .ack []) = .instr .ack ∧ decode (.line .load [3, 0xAA, 0xBB]) = .instr (.load 3 [0xAA, 0xBB]) := by
  decide
theorem test_decode_bad_lines :
    decode (.line .start [3]) = .bad .operands ∧ decode (.line .load [3]) = .bad .operands ∧
      decode (.line .load [3, 256]) = .bad .operands ∧ decode (.line .poll [4, 2, 2 ^ 32]) = .bad .operands := by decide
-- spec/opcode_table.json: match and mask.
theorem test_table_words :
    decodeTableWord 16 0x0002 = some (.frameWrite 0 []) ∧ decodeTableWord 16 0x0100 = some (.startTest false) ∧
      decodeTableWord 32 0x00000113 = some (.startReserved true) ∧ decodeTableWord 8 0x5 = some (.tRead 0) ∧
      decodeTableWord 8 0x8 = none := by decide

/-! ## States for single steps -/

/-- A block that runs an operation and has latched it. -/
def running (opl : BitVec 2) (al total count csize : Word) : State :=
  { State.reset with
    op := opl, addr := al, len := total, throughput := 3200, opl := opl, al := al, total := total, minDur := 10
    count := count, csize := csize }

/-- A WRITE of `AA` to 0x10, its frame in FRAME. -/
def writing (st : St) (pend : Option TOp) : State :=
  { running 2 0x10 1 0 1 with
    data := [(0, 0xAA)], frame := encWrite 0x10 [0xAA], flen := 11, st := st, pend := pend }

/-- A READ of 40 bytes at 0x100, in its second chunk (95_test_vectors.md P1). -/
def reading (st : St) (pend : Option TOp) : State :=
  { running 1 0x100 40 32 8 with
    frame := encRead 0x120 8, flen := 10, txIdx := if st.sending then 0 else 10, st := st, pend := pend }

/-- A TEST of `DE AD` (95_test_vectors.md P4). -/
def testing (st : St) (pend : Option TOp) : State :=
  { running 0 0 2 0 2 with
    data := [(0, 0xDE), (1, 0xAD)], frame := encTest [0xDE, 0xAD], flen := 8
    txIdx := if st.sending then 0 else 8, st := st, pend := pend }

/-- An OK completion with no count. -/
def ok : Resp := ⟨true, 0, []⟩

/-- An ERR completion. -/
def err : Resp := ⟨false, 0, []⟩

/-- What the environment still has to do is no part of the invariant. -/
theorem good_of_environment {s : State} (h : s.Inv) (code : List Code) (acts : List Act) :
    ({ s with prog := code, sched := acts } : State).Inv :=
  ⟨h.params, h.data, h.port, h.status, h.time, h.request, h.chunk, h.path, h.frame, h.lines, h.rx⟩

theorem good_writing_tx : (writing .tx (some .write)).Inv :=
  ⟨by decide, by decide, by decide, by decide, by decide, by decide, by decide, by decide, by decide, by decide, by decide⟩
theorem good_writing_txIdle : (writing .tx none).Inv :=
  ⟨by decide, by decide, by decide, by decide, by decide, by decide, by decide, by decide, by decide, by decide, by decide⟩
theorem good_writing_clear : (writing .clear none).Inv :=
  ⟨by decide, by decide, by decide, by decide, by decide, by decide, by decide, by decide, by decide, by decide, by decide⟩
theorem good_writing_chunk : (writing .chunk none).Inv :=
  ⟨by decide, by decide, by decide, by decide, by decide, by decide, by decide, by decide, by decide, by decide, by decide⟩
theorem good_reading_rx : (reading .rx (some .read)).Inv :=
  ⟨by decide, by decide, by decide, by decide, by decide, by decide, by decide, by decide, by decide, by decide, by decide⟩
theorem good_reading_poll : (reading .rx none).Inv :=
  ⟨by decide, by decide, by decide, by decide, by decide, by decide, by decide, by decide, by decide, by decide, by decide⟩
theorem good_reading_chunk : (reading .chunk none).Inv :=
  ⟨by decide, by decide, by decide, by decide, by decide, by decide, by decide, by decide, by decide, by decide, by decide⟩
theorem good_testing_rx : (testing .rx (some .read)).Inv :=
  ⟨by decide, by decide, by decide, by decide, by decide, by decide, by decide, by decide, by decide, by decide, by decide⟩
theorem good_testing_chunk : (testing .chunk none).Inv :=
  ⟨by decide, by decide, by decide, by decide, by decide, by decide, by decide, by decide, by decide, by decide, by decide⟩
theorem good_testing_idle : (testing .idle none).Inv :=
  ⟨by decide, by decide, by decide, by decide, by decide, by decide, by decide, by decide, by decide, by decide, by decide⟩

/-! ## Single steps, from the spec's vectors -/

-- R131, R132, R133, the examples.
theorem test_frameRead : answers (exec (.frameRead 0x100 32) State.reset)
    (fun t => t.frame = [0x00, 0x01, 0x00, 0x01, 0x00, 0x00, 0x20, 0x00, 0x00, 0x00] && t.flen = 10) = true := by decide
theorem test_frameWrite : answers (exec (.frameWrite 0x12345678 [0xAA, 0xBB, 0xCC]) State.reset)
    (fun t => t.frame = [0x00, 0x02, 0x78, 0x56, 0x34, 0x12, 0x03, 0x00, 0x00, 0x00, 0xAA, 0xBB, 0xCC] && t.flen = 13) =
      true := by decide
theorem test_frameTest : answers (exec (.frameTest [0xDE, 0xAD]) State.reset)
    (fun t => t.frame = [0x00, 0x00, 0x02, 0x00, 0x00, 0x00, 0xDE, 0xAD] && t.flen = 8) = true := by decide
-- R136.
theorem test_frameInvalid :
    answers (exec (.frameInvalidOpcode 0x03) State.reset) (fun t => t.verdict = some .invalidOpcode) = true ∧
      answers (exec (.frameInvalidPrefix 0x7F 0x01) State.reset) (fun t => t.verdict = some .invalidPrefix) = true := by
  decide
-- P6: the refusals, by STATUS.
theorem test_startRead_zero : answers (exec (.startRead false) State.reset)
    (fun t => t.statusWord = 0x00000002 && t.xcount = 0) = true := by decide
theorem test_startRead_config : answers (exec (.startRead false) { State.reset with len := 0x10 })
    (fun t => t.statusWord = 0x00000502) = true := by decide
theorem test_startRead_range :
    answers (exec (.start .read) { State.reset with len := 0x10, throughput := 1000, addr := 0xFFFFFFF8 })
      (fun t => t.statusWord = 0x00000402) = true := by decide
theorem test_startWrite_len : answers (exec (.startWrite false) { State.reset with len := 0x1001, throughput := 1000 })
    (fun t => t.statusWord = 0x00000302) = true := by decide
theorem test_startTest_len : answers (exec (.startTest false) { State.reset with len := 0x21 })
    (fun t => t.statusWord = 0x00000302) = true := by decide
theorem test_startReserved : answers (exec (.wr32 0x000 0x00000103) State.reset)
    (fun t => t.statusWord = 0x00000602) = true := by decide
-- P4 line 3: a TEST is accepted although THROUGHPUT = 0.
theorem test_startTest : answers (exec (.startTest false) { State.reset with len := 2 })
    (fun t => t.st = .chunk && t.statusWord = 0x00000001) = true := by decide
-- P2 line 5: STARTI WRITE; CTRL reads 0x12.
theorem test_starti : answers (exec (.starti .write) { State.reset with len := 3, throughput := 32001 })
    (fun t => t.st = .chunk && t.ctrlWord = 0x00000012 && t.minDur = 0) = true := by decide
-- P5 line 15: a START while BUSY.
theorem test_start_busy : answers (exec (.startRead false) (writing .tx none))
    (fun t => t.cmdrej && t.op = 1 && t.opl = 2 && t.st = .tx) = true := by decide
-- P6 line 13: ACK clears DONE, ERR stays.
theorem test_ack : answers (exec .ack { State.reset with done := true, err := .len })
    (fun t => t.statusWord = 0x00000300) = true := by decide
-- R207: the MINDUR examples.
theorem test_minDur : ∀ p ∈ [((1 : Word), (32000 : Word)), (3000, 10), (3200, 10), (9600, 3), (32000, 1), (32001, 0)],
    ({ State.reset with throughput := p.1 } : State).minDurWord = p.2 := by
  intro p hp
  simp only [List.mem_cons, List.not_mem_nil, or_false] at hp
  rcases hp with rfl | rfl | rfl | rfl | rfl | rfl <;> rfl
-- R72: four byte writes make a 4-byte read return 0xDDCCBBAA.
theorem test_rd32 : answers (exec (.rd32 0x100) { State.reset with data := [(0, 0xAA), (1, 0xBB), (2, 0xCC), (3, 0xDD)] })
    (fun t => t.answers = [.value 0xDDCCBBAA]) = true := by decide
-- P4 line 2: WR16 of 0xADDE.
theorem test_wr16 : answers (exec (.wr16 0x100 0xADDE) State.reset) (fun t => t.data = [(0, 0xDE), (1, 0xAD)]) = true := by
  decide
theorem test_rd16 : answers (exec (.rd16 0x100) { State.reset with data := [(0, 0xDE), (1, 0xAD)] })
    (fun t => t.answers = [.value 0xADDE]) = true := by decide
-- P6 line 12: BUSERR at an unmapped offset; and a sub-word register access.
theorem test_buserr :
    answers (exec (.wr32 0x028 0) State.reset) (fun t => t.answers = [.busErrWrite]) = true ∧
      answers (exec (.wr16 0x008 0) State.reset) (fun t => t.answers = [.busErrWrite] && t.addr = 0) = true := by decide
theorem test_load : answers (exec (.load 3 [0xAA, 0xBB]) State.reset)
    (fun t => t.data = [(3, 0xAA)] && t.prog = [.line .load [4, 0xBB]]) = true := by decide
theorem test_waitdone : answers (exec .waitdone (writing .tx none)) (fun t => t.prog = [.line .waitdone []]) = true := by
  decide
-- P1, the second chunk: 00 01 20 01 00 00 08 00 00 00.
theorem test_chunk_read : answers (seqStep (reading .chunk none))
    (fun t => t.frame = [0x00, 0x01, 0x20, 0x01, 0x00, 0x00, 0x08, 0x00, 0x00, 0x00] && t.csize = 8 && t.st = .clear) =
      true := by decide
-- R163, the example: n = 3 stores DATA[32..35].
theorem test_rx_read : answers (completeStep ⟨true, 3, [0x20, 0x21, 0x22]⟩ (reading .rx (some .read)))
    (fun t => t.data = [(32, 0x20), (33, 0x21), (34, 0x22)] && t.rxIdx = 3 && t.st = .rx) = true := by decide
-- P3: the 11th zero read; STATUS = 0x202.
theorem test_timeout : answers (completeStep ok { reading .rx (some .read) with zeroCnt := 10 })
    (fun t => t.statusWord = 0x00000202 && t.zeroCnt = 11) = true := by decide
-- P2: the first WRITE of 13 bytes is answered k = 7.
theorem test_tx_partial : answers (completeStep ⟨true, 7, []⟩ (writing .tx (some .write)))
    (fun t => t.txIdx = 7 && t.st = .tx && t.unsent = [0x00, 0x00, 0x00, 0xAA]) = true := by decide
-- P4: READ(2) answers DE AD.
theorem test_rx_test : answers (completeStep ⟨true, 2, [0xDE, 0xAD]⟩ (testing .rx (some .read)))
    (fun t => t.statusWord = 0x00000002 && t.xcount = 2 && t.data = [(0, 0xDE), (1, 0xAD)]) = true := by decide
-- R168: lines after an error.
theorem test_lines_after_error :
    answers (completeStep err { writing .tx (some .write) with dtr := true, rts := true })
      (fun t => t.linesWord = 0x3 && t.statusWord = 0x00000102) = true := by decide
-- The step runs a table word as the first instruction after reset.
theorem test_fetch_table_word :
    answers (step (State.reset.withFetchWord 8 0x2)) (fun t => t.log = [.reset, .issue (.setRts false)]) = true ∧
      answers (step (State.reset.withFetchWord 16 0x0103)) (fun t => t.statusWord = 0x00000602) = true ∧
      faults (step (State.reset.withFetchWord 8 0x7)) .reservedRequest = true := by decide
-- An incomplete frame is judged; a WRITE request without data is refused.
theorem test_present :
    answers (present (.frame [0x00]) State.reset) (fun t => t.verdict = some .incomplete) = true ∧
      refuses (present (.request 3 false [] 0) State.reset) (.undecodable .requestData) = true := by decide

/-! ## Witnesses: for each obligation with premises, what meets them -/

theorem witness_FrameDecoderInvertsEncoders :
    ([] : List Byte).length < 2 ^ 32 ∧ [0x00, 0xAA].length < 2 ^ 32 := by decide
theorem witness_DecodeOfEncodeIsTheInstruction :
    Instr.wellFormed Params.srwp (.frameWrite 0xFFFFFFFF [0x02]) = true ∧
      Instr.wellFormed Params.srwp (.frameInvalidOpcode 0x03) = true ∧
      Instr.wellFormed Params.srwp (.frameInvalidPrefix 0x01 0x00) = true ∧
      Instr.wellFormed Params.srwp (.tWrite (List.replicate 42 0)) = true ∧
      Instr.wellFormed Params.srwp (.tRead 32) = true ∧ Instr.wellFormed Params.srwp (.load 0 [0]) = true := by decide
theorem witness_ControlWordWriteIsItsRow :
    (0x100 : Word).getLsbD 8 = true ∧ (0x100 : Word).extractLsb' 0 2 = (0 : BitVec 2) ∧
      (0x101 : Word).extractLsb' 0 2 = (1 : BitVec 2) ∧ (0x112 : Word).extractLsb' 0 2 = (2 : BitVec 2) ∧
      (0x103 : Word).extractLsb' 0 2 = (3 : BitVec 2) ∧ (0x112 : Word).getLsbD 8 = true ∧
      (0x101 : Word).getLsbD 8 = true ∧ (0x103 : Word).getLsbD 8 = true ∧ (0x0FF : Word).getLsbD 8 = false := by decide

/-- Reset with an ACK to present. -/
def ackNext : State := { State.reset with prog := [.line .ack []], sched := [.fetch] }

theorem witness_StepRunsTheFetchedInstruction :
    ackNext.st.isUnused = false ∧ ackNext.sched = [.fetch] ∧ ackNext.prog = [.line .ack []] ∧
      decode (.line .ack []) = .instr .ack ∧ State.reset.st.isUnused = false ∧ State.reset.sched = [] := by decide
theorem witness_StepIsTheChosenMove :
    State.reset.st.isUnused = false ∧ ({ State.reset with sched := [.seq] } : State).sched = [.seq] ∧
      ({ State.reset with sched := [.complete ok] } : State).sched = [.complete ok] ∧
      ({ State.reset with sched := [.tick 1] } : State).sched = [.tick 1] ∧
      ({ State.reset with sched := [.reset] } : State).sched = [.reset] := by decide
theorem witness_UnusedStateFaults :
    faults (step { State.reset with st := .unused 0 }) .stUnused = true ∧
      ({ State.reset with st := .unused 3 } : State).st = .unused 3 := by decide
theorem witness_SequencerStepIsItsRequest :
    (writing .clear none).pend = none ∧ (writing .clear none).cannotIssue = none ∧
      (writing .clear none).request = some .clear ∧ (writing .tx none).cannotIssue = none ∧
      (writing .tx none).request = some (.write (encWrite 0x10 [0xAA])) := by decide
theorem witness_RegisterReadAnswersItsWord :
    answers (exec (.rd32 0x000) (writing .tx none)) (fun t => t.answers = [.value 0x2]) = true ∧
      answers (exec (.rd32 0x024) State.reset) (fun t => t.answers = [.value 0x1000]) = true := by decide
theorem witness_RegisterWordsHoldTheirFields :
    State.reset.throughput = 0 ∧ State.reset.params.wf ∧ (writing .tx none).params.wf ∧
      (writing .tx none).throughput ≠ 0 ∧ State.reset.params = Params.srwp := by decide
theorem witness_RegisterWriteStoresOrIsIgnored :
    answers (exec (.wr32 0x014 7) State.reset) (fun t => t.minDurWord = 0xFFFFFFFF) = true ∧
      answers (exec (.wr32 0x024 7) State.reset) (fun t => t.bufsizeWord = 0x1000) = true := by decide
theorem witness_InterruptFollowsDoneAndEnable :
    ({ State.reset with done := true, irqEn := true } : State).irq = true ∧
      answers (exec .ack State.reset) (fun _ => true) = true ∧
      answers (exec (.statusW1c true false) State.reset) (fun _ => true) = true ∧
      answers (exec (.ctrlSet 0 false) State.reset) (fun _ => true) = true ∧
      answers (exec (.ctrlSet 3 true) State.reset) (fun _ => true) = true ∧
      (State.accept { State.reset with done := true, irqEn := true }).busy = true := by decide

-- The bounds: 0x28 is past the registers, 0xFF before DATA, 0x1100 past it.
theorem witness_UnadmittedAccessIsBuserr : ∀ off ∈ [(0x28 : Word), 0x25, 0x0FF, 0x102, 0x10FE, 0x1100],
    ¬(off.toNat ≤ 0x24 ∧ off.toNat % 4 = 0) ∧
      ¬(0x100 ≤ off.toNat ∧ off.toNat + 4 ≤ 0x100 + State.reset.params.bufBytes ∧ off.toNat % 4 = 0) := by
  simp [State.reset, Params.srwp]
theorem witness_UnadmittedAccessIsBuserr_16 : ∀ off ∈ [(0x000 : Word), 0x0FE, 0x101, 0x10FF, 0x1100],
    ¬(0x100 ≤ off.toNat ∧ off.toNat + 2 ≤ 0x100 + State.reset.params.bufBytes ∧ off.toNat % 2 = 0) := by
  simp [State.reset, Params.srwp]
theorem witness_UnadmittedAccessIsBuserr_8 : ∀ off ∈ [(0x000 : Word), 0x0FF, 0x1100],
    ¬(0x100 ≤ off.toNat ∧ off.toNat + 1 ≤ 0x100 + State.reset.params.bufBytes) := by
  simp [State.reset, Params.srwp]

-- The first and the last DATA access of each size; on an idle block and on a busy one.
theorem witness_DataWriteStoresLittleEndian : State.reset.st = .idle ∧
    (∀ off ∈ [(0x100 : Word), 0x10FC], 0x100 ≤ off.toNat ∧ off.toNat + 4 ≤ 0x100 + State.reset.params.bufBytes ∧
      off.toNat % 4 = 0) ∧
    (∀ off ∈ [(0x100 : Word), 0x10FE], off.toNat + 2 ≤ 0x100 + State.reset.params.bufBytes ∧ off.toNat % 2 = 0) ∧
    ∀ off ∈ [(0x100 : Word), 0x10FF], off.toNat + 1 ≤ 0x100 + State.reset.params.bufBytes := by
  simp [State.reset, Params.srwp]
theorem witness_DataReadIsLittleEndian : State.reset.st = .idle ∧ (0x10FC : Word).toNat + 4 ≤ 0x100 + 4096 ∧
    ({ State.reset with data := [(0xFFF, 0x5A)] } : State).data.get ((0x10FC : Word).toNat - 0x100 + 3) = some 0x5A ∧
    ({ State.reset with data := [(0xFFF, 0x5A)] } : State).data.get ((0x10FF : Word).toNat - 0x100) = some 0x5A := by
  simp [State.reset, Memory.get]
theorem witness_DataAccessWhileBusyHasNoEffect : (reading .rx none).st ≠ .idle ∧
    (∀ off ∈ [(0x100 : Word), 0x10FC], 0x100 ≤ off.toNat ∧
      off.toNat + 4 ≤ 0x100 + (reading .rx none).params.bufBytes ∧ off.toNat % 4 = 0) ∧
    ∀ off ∈ [(0x101 : Word), 0x10FF], off.toNat + 1 ≤ 0x100 + (reading .rx none).params.bufBytes := by
  simp [reading, running, State.reset, Params.srwp]
theorem witness_WordReadSeesFourByteWrites : State.reset.st = .idle ∧
    ∀ off ∈ [(0x100 : Word), 0x10FC], 0x100 ≤ off.toNat ∧ off.toNat + 4 ≤ 0x100 + State.reset.params.bufBytes ∧
      off.toNat + 4 ≤ 2 ^ 32 ∧ off.toNat % 4 = 0 := by
  simp [State.reset, Params.srwp]

theorem witness_EncodersFillTheFrame : State.reset.params.wf ∧ State.reset.st.sending = false ∧
    10 + (List.replicate 32 (0 : Byte)).length ≤ State.reset.params.frameMax ∧
    6 + (List.replicate 36 (0 : Byte)).length ≤ State.reset.params.frameMax ∧
    (writing .clear none).params.wf ∧ (writing .clear none).st.sending = true ∧
    (writing .tx none).st.sending = true := by decide
-- A frame of 43 bytes; one of 256, which FLEN cannot hold; and any length that the u32 field cannot hold.
theorem witness_OverlongFramesFillTheBuffer : State.reset.st.sending = false ∧
    (∀ n ∈ [33, 246], State.reset.params.frameMax < 10 + (List.replicate n (0 : Byte)).length ∧
      (List.replicate n (0 : Byte)).length < 2 ^ 32) ∧
    ∀ n ∈ [37, 250], State.reset.params.frameMax < 6 + (List.replicate n (0 : Byte)).length ∧
      (List.replicate n (0 : Byte)).length < 2 ^ 32 := by
  simp only [List.length_replicate]
  decide
theorem witness_OverlongFramesFillTheBuffer_length (n : Nat) (h : 2 ^ 32 ≤ n) :
    2 ^ 32 ≤ (List.replicate n (0 : Byte)).length := by rw [List.length_replicate]; exact h
theorem witness_ReservedFramesAreJudged :
    3 ≤ (0x03 : Byte).toNat ∧ 3 ≤ (0xFF : Byte).toNat ∧ (0x01 : Byte) ≠ 0 := by decide
theorem witness_StartFollowsTheChecks : State.reset.st = .idle ∧ (writing .tx none).st ≠ .idle ∧
    ((3 : BitVec 2), Instr.startReserved true) ∈ [((0 : BitVec 2), Instr.startTest true), (1, .startRead true),
      (2, .startWrite true), (3, .startReserved true)] := by decide
theorem witness_ZeroLengthTransferIsNoOp : State.reset.st = .idle ∧ State.reset.len = 0 := by decide
theorem witness_PseudoWritesAreTheirExpansions :
    answers (exec (.start .write) State.reset) (fun t => t.op = 2 && t.irqEn = false) = true := by decide

/-- A LOAD of the last two bytes of DATA. -/
def loading : State :=
  { State.reset with prog := [.line .load [4094, 1, 2], .line .ack []], sched := [.fetch, .fetch, .seq] }

theorem witness_LoadStoresItsBytes : loading.st = .idle ∧ ([1, 2] : List Byte) ≠ [] ∧
    4094 + ([1, 2] : List Byte).length ≤ loading.params.bufBytes ∧
    loading.prog = encode (.load 4094 [1, 2]) :: [.line .ack []] ∧
    loading.sched = List.replicate ([1, 2] : List Byte).length .fetch ++ [.seq] := by decide
theorem witness_LoadWritesOneByteAStep : 4095 < State.reset.params.bufBytes ∧ State.reset.st = .idle ∧
    4095 < (reading .rx none).params.bufBytes ∧ (reading .rx none).st ≠ .idle ∧
    State.reset.params.bufBytes ≤ 4096 := by decide

theorem witness_EachStateIssuesItsRequest :
    (∀ q ∈ [St.clear, .dtrOn, .rtsOn, .tx, .flush, .rtsOff, .dtrOff, .waitC, .rx],
      (writing q none).pend = none ∧ (writing q none).st = q) ∧
    (writing .tx none).frame.length = (writing .tx none).flen.toNat ∧
    (writing .tx none).txIdx.toNat < (writing .tx none).flen.toNat ∧
    (reading .rx none).opl = 1 ∧ (reading .rx none).rxIdx.toNat < (reading .rx none).csize.toNat ∧
    (testing .rx none).opl = 0 := by decide
theorem witness_RequestOutOfPlaceIsRefused :
    (writing .tx (some .write)).pend ≠ none ∧ (writing .rx none).cannotIssue ≠ none ∧
      (writing .flush none).request ≠ some .clear ∧
      refuses (exec .tClear (writing .flush none)) .requestNotIssued = true := by decide
theorem witness_ControlLineStatesFollowTheirRules :
    ∀ q ∈ [(St.clear, TOp.clear), (.dtrOn, .setDtr), (.rtsOn, .setRts), (.flush, .flush), (.rtsOff, .setRts), (.waitC, .waitC)],
      (reading q.1 none).st = q.1 ∧ (reading q.1 none).pend = none ∧
        (reading q.1 (some q.2)).pend = some q.2 := by decide
theorem witness_DtrOffDispatchesOnTheOperation : (writing .dtrOff (some .setDtr)).st = .dtrOff ∧
    (writing .dtrOff (some .setDtr)).pend = some .setDtr ∧ (writing .dtrOff (some .setDtr)).opl = 2 ∧
    (reading .dtrOff (some .setDtr)).opl = 1 ∧ (testing .dtrOff (some .setDtr)).opl = 0 := by decide
theorem witness_DtrOffDispatchesOnTheOperation_good : (writing .dtrOff (some .setDtr)).Inv ∧ ok.ok = true :=
  ⟨⟨by decide, by decide, by decide, by decide, by decide, by decide, by decide, by decide, by decide, by decide, by decide⟩,
    rfl⟩

-- 11 bytes are left: k = 1, 11 are taken, k = 0, 12 are not.
theorem witness_PartialWriteIsResumed : (writing .tx (some .write)).Inv ∧
    ((writing .tx (some .write)).st = .tx ∧ (writing .tx (some .write)).pend = some .write ∧
      (writing .tx (some .write)).flen.toNat - (writing .tx (some .write)).txIdx.toNat = 11) :=
  ⟨good_writing_tx, by decide⟩
theorem witness_ReadStoresReceivedBytes : (reading .rx (some .read)).Inv ∧
    ((reading .rx (some .read)).st = .rx ∧ (reading .rx (some .read)).opl = 1 ∧
      (reading .rx (some .read)).pend = some .read ∧ (reading .rx (some .read)).rxIdx = 0 ∧
      ∀ n ∈ [1, 8], 1 ≤ n ∧ n ≤ (reading .rx (some .read)).csize.toNat ∧ (List.replicate n (0 : Byte)).length = n) :=
  ⟨good_reading_rx, by decide⟩
theorem witness_ZeroReadCountsOrTimesOut : (reading .rx (some .read)).Inv ∧
    (reading .rx (some .read)).st = .rx ∧ (reading .rx (some .read)).opl = 1 ∧
    (reading .rx (some .read)).pend = some .read ∧ ok.ok = true ∧ ok.count = 0 ∧ ok.bytes = [] :=
  ⟨good_reading_rx, by decide⟩

/-- A READ about to poll, with `k` zero reads to come. -/
def starving (k : Nat) : State :=
  { reading .rx none with sched := (List.replicate k [Act.seq, .complete ⟨true, 0, []⟩]).flatten ++ [] }

theorem witness_TimeoutAfterExactlyElevenZeroReads : ∀ k ∈ [0, 10, 11], (starving k).Inv ∧
    ((starving k).st = .rx ∧ (starving k).opl = 1 ∧ (starving k).pend = none ∧ (starving k).zeroCnt = 0 ∧
      (starving k).sched = (List.replicate k [Act.seq, .complete ⟨true, 0, []⟩]).flatten ++ [] ∧
      (k ≤ (starving k).params.zeroLimit ∨ k = (starving k).params.zeroLimit + 1)) :=
  fun k hk => ⟨good_of_environment good_reading_poll [] _, by revert k; decide⟩
/-- The same, answered ERR where the 11th zero read would come. -/
def starvingThenErr : State :=
  { reading .rx none with sched := (List.replicate 10 [Act.seq, .complete ⟨true, 0, []⟩]).flatten ++ [.seq, .complete err] }

theorem witness_TimeoutAfterExactlyElevenZeroReads_err : starvingThenErr.Inv ∧
    (starvingThenErr.st = .rx ∧ starvingThenErr.opl = 1 ∧ starvingThenErr.pend = none ∧ starvingThenErr.zeroCnt = 0 ∧
      10 ≤ starvingThenErr.params.zeroLimit ∧ err.ok = false) :=
  ⟨good_of_environment good_reading_poll [] _, by decide⟩
theorem witness_TestReadCompletesWithItsCount : (testing .rx (some .read)).Inv ∧
    ((testing .rx (some .read)).st = .rx ∧ (testing .rx (some .read)).opl = 0 ∧
      (testing .rx (some .read)).pend = some .read ∧ (testing .rx (some .read)).total.toNat = 2) :=
  ⟨good_testing_rx, by decide⟩
theorem witness_ErrorCompletionRaisesIo :
    (writing .tx (some .write)).pend = some .write ∧ (writing .tx (some .write)).st.op = some .write ∧
      err.ok = false ∧ (reading .rx (some .read)).st.op = some .read ∧
      (reading .rx (some .read)).rxMax.toNat < 9 ∧ ([] : List Byte).length ≠ 1 := by decide
theorem witness_ReadChunkBuildsItsFrame :
    (reading .chunk none).Inv ∧ (reading .chunk none).st = .chunk ∧ (reading .chunk none).opl = 1 :=
  ⟨good_reading_chunk, by decide⟩
theorem witness_WriteChunkBuildsItsFrame : (writing .chunk none).Inv ∧ (writing .chunk none).st = .chunk ∧
    (writing .chunk none).opl = 2 ∧ (writing .chunk none).data.get 0 = some 0xAA :=
  ⟨good_writing_chunk, by decide⟩
theorem witness_TestChunkBuildsItsFrame : (testing .chunk none).Inv ∧ (testing .chunk none).st = .chunk ∧
    (testing .chunk none).opl = 0 ∧ (testing .chunk none).data.get 1 = some 0xAD :=
  ⟨good_testing_chunk, by decide⟩
theorem witness_EmittedFramesAreInRange : (reading .chunk none).Inv ∧ (reading .chunk none).st = .chunk ∧
    answers (seqStep (reading .chunk none)) (fun t => t.st = .clear) = true :=
  ⟨good_reading_chunk, by decide⟩
theorem witness_WriteRequestsCarryTheChunkFrame : (writing .tx none).Inv ∧
    answers (exec (.tWrite (encWrite 0x10 [0xAA])) (writing .tx none)) (fun t => t.pend = some .write) = true :=
  ⟨good_writing_txIdle, by decide⟩

/-- FRAME holds the frame of another payload than the byte of DATA. -/
def misframed : State := { writing .tx none with frame := encWrite 0x10 [0xAB] }

-- FRAME must carry the bytes of DATA (R210).
theorem test_frame_carries_data : (writing .tx none).FrameOfChunk ∧ ¬misframed.FrameOfChunk :=
  ⟨by decide, by decide⟩

/-- In PACE with MIN_DUR = 10 from time 0. -/
def pacing (now : Time) (count : Word) : State := { reading .pace none with now := now, count := count }

theorem witness_PaceHoldsThenMovesOn :
    (pacing 9 40).st = .pace ∧ (pacing 9 40).now.toNat < (pacing 9 40).tStart.toNat + (pacing 9 40).minDur.toNat ∧
      (pacing 10 32).tStart.toNat + (pacing 10 32).minDur.toNat ≤ (pacing 10 32).now.toNat ∧
      (pacing 10 32).count.toNat < (pacing 10 32).total.toNat ∧
      (pacing 10 40).total.toNat ≤ (pacing 10 40).count.toNat := by decide
theorem witness_PaceIsNeverCutShort : (pacing 10 32).st = .pace ∧ Act.seq ≠ .reset ∧
    answers (runAct .seq (pacing 10 32)) (fun t => t.st ≠ .pace) = true := by decide

/-- A WRITE transaction whose frame of 11 bytes the transport takes in parts. -/
def writeTransaction (ks : List Word) : State :=
  { writing .clear none with
    sched := [.seq, .complete ok, .seq, .complete ok, .seq, .complete ok] ++ writeMoves ks ++
      [.seq, .complete ok, .seq, .complete ok, .seq, .complete ok] ++ [] }

-- Taken whole, and in parts.
theorem witness_WriteTransactionIssuesItsRequests : ∀ ks ∈ [[(11 : Word)], [7, 4], [1, 1, 9]],
    (writeTransaction ks).Inv ∧ (writeTransaction ks).st = .clear ∧ (writeTransaction ks).opl = 2 ∧
      (writeTransaction ks).pend = none ∧ (writeTransaction ks).txIdx = 0 ∧ (∀ k ∈ ks, 1 ≤ k.toNat) ∧
      (ks.map BitVec.toNat).sum = (writeTransaction ks).flen.toNat := by
  intro ks hk
  refine ⟨good_of_environment good_writing_clear [] _, rfl, rfl, rfl, rfl, ?_⟩
  simp only [List.mem_cons, List.not_mem_nil, or_false] at hk
  rcases hk with rfl | rfl | rfl <;> exact ⟨by simp, rfl⟩

/-- Reset with one clock step to come. -/
def ticking : State := { State.reset with sched := [.tick 1] }

theorem witness_NowNeverDecreases : answers (step ticking) (fun t => t.now = 1) = true ∧
    answers (runAct (.tick 1) State.reset) (fun t => t.now ≠ State.reset.now) = true ∧
    1 ≤ 2 ^ 64 - 1 ∧ State.reset.now.toNat + (2 ^ 64 - 1) < State.reset.timeEnd := by decide
/-- An idle block without a program: whatever moves, it stays one, and the clock does not fall. -/
theorem step_of_resting {s : State} (h1 : s.st = .idle) (h2 : s.pend = none) (h3 : s.prog = []) :
    ∃ t, step s = .next t ∧ t.st = .idle ∧ t.pend = none ∧ t.prog = [] := by
  have key : ∀ (a : Act) (u : State), u.st = .idle → u.pend = none → u.prog = [] →
      ∃ t, runAct a u = .next t ∧ t.st = .idle ∧ t.pend = none ∧ t.prog = [] := by
    intro a u g1 g2 g3
    cases a with
    | fetch => exact ⟨u, by simp [runAct, fetchStep, g3], g1, g2, g3⟩
    | seq => exact ⟨u, by simp [runAct, seqStep, g1], g1, g2, g3⟩
    | complete r => exact ⟨u, by simp [runAct, completeStep, g2], g1, g2, g3⟩
    | tick n => exact ⟨clockStep n u, rfl, by unfold clockStep; split_ifs <;> exact ⟨g1, g2, g3⟩⟩
    | reset => exact ⟨resetStep u, rfl, rfl, rfl, g3⟩
  unfold step moveStep
  rw [h1]
  cases hs : s.sched with
  | nil => exact key _ (s.drew 1) h1 h2 h3
  | cons a rest => exact key a (s.scheduled rest) h1 h2 h3

/-- A last chunk in PACE; the clock then counts to the end of its 64 bits, and the sequencer moves. -/
def lastPace : State := { pacing 0 40 with sched := [.tick (2 ^ 64 - 1), .seq] }

/-- A run from there, which goes on by the oracle's moves. -/
def fairRun : Nat → State
  | 0 => lastPace
  | n + 1 => match step (fairRun n) with
    | .next t => t
    | .fault _ => fairRun n
    | .refused _ => fairRun n

theorem fairRun_isRun : IsRun fairRun := by
  have h : ∀ n, ∃ t, step (fairRun (n + 2)) = .next t ∧ (fairRun (n + 2)).st = .idle ∧
      (fairRun (n + 2)).pend = none ∧ (fairRun (n + 2)).prog = [] := by
    intro n
    induction n with
    | zero =>
      have g1 : (fairRun 2).st = .idle := by decide
      have g2 : (fairRun 2).pend = none := by decide
      have g3 : (fairRun 2).prog = [] := by decide
      obtain ⟨t, ht, _⟩ := step_of_resting g1 g2 g3
      exact ⟨t, ht, g1, g2, g3⟩
    | succ n ih =>
      obtain ⟨t, ht, g1, g2, g3⟩ := ih
      obtain ⟨u, hu, k1, k2, k3⟩ := step_of_resting g1 g2 g3
      have e : fairRun (n + 1 + 2) = u := by rw [fairRun, hu]
      rw [e]
      obtain ⟨v, hv, _⟩ := step_of_resting k1 k2 k3
      exact ⟨v, hv, k1, k2, k3⟩
  intro n
  match n with
  | 0 => rfl
  | 1 => rfl
  | n + 2 =>
    obtain ⟨t, ht, _⟩ := h n
    rw [ht, fairRun, ht]

theorem witness_FairClockOpensPace : IsRun fairRun ∧ ClockFair fairRun ∧ (fairRun 0).st = .pace ∧
    (fairRun 0).tStart.toNat + (fairRun 0).minDur.toNat < (fairRun 0).timeEnd := by
  refine ⟨fairRun_isRun, fun b hb => ⟨1, ?_⟩, rfl, by decide⟩
  have h1 : (fairRun 1).now.toNat = 2 ^ 64 - 1 := by decide
  have h2 : (fairRun 0).timeEnd = 2 ^ 64 := by decide
  omega
theorem witness_AfterResetWords : State.reset.params = Params.srwp ∧ (writing .tx none).params = Params.srwp ∧
    answers (runAct .reset (writing .tx none)) (fun _ => true) = true := by decide
theorem witness_EveryStepKeepsTheInvariant :
    ({ testing .idle none with prog := [], sched := [.tick 1] } : State).Inv ∧
    answers (step { testing .idle none with prog := [], sched := [.tick 1] }) (fun _ => true) = true :=
  ⟨good_of_environment good_testing_idle _ _, by decide⟩
theorem witness_BlockMovesNeverStop : ((reading .chunk none).Inv ∧ Act.seq ≠ .fetch) ∧
    (reading .waitC none).pend = none ∧
    ((reading .waitC (some .waitC)).pend ≠ none ∧ (reading .waitC (some .waitC)).st.op ≠ none) ∧
    State.reset.st = .idle ∧
    ((pacing 9 40).st = .pace ∧ (pacing 9 40).now.toNat < (pacing 9 40).tStart.toNat + (pacing 9 40).minDur.toNat) ∧
    State.reset.timeEnd ≤ State.reset.now.toNat + 2 ^ 64 ∧ State.reset.prog = [] :=
  ⟨⟨good_reading_chunk, by decide⟩, by decide⟩
-- A request outstanding: the sequencer waits, and issues nothing a second time (R150).
theorem test_sequencer_waits : answers (seqStep (reading .waitC (some .waitC))) (fun t => t.log = (reading .waitC none).log) = true := by
  decide
theorem witness_NoDefectFromGoodState :
    ({ testing .idle none with prog := [.request 7 false [] 0], sched := [.fetch] } : State).Inv ∧
      faults (step { testing .idle none with prog := [.request 7 false [] 0], sched := [.fetch] }) .reservedRequest = true :=
  ⟨good_of_environment good_testing_idle _ _, by decide⟩
theorem witness_LogIsAppendOnly : answers (step { State.reset with sched := [.reset] })
    (fun t => t.log = State.reset.log ++ [.reset]) = true := by decide
-- The request of DTR_ON is SET_DTR(1), and not SET_DTR(0).
theorem test_request_dtrOn : (writing .dtrOn none).request = some (.setDtr true) := by decide
theorem witness_OneRequestOutstanding : answers (step { writing .clear none with sched := [.seq] })
    (fun t => t.log = (writing .clear none).log ++ [.issue .clear]) = true := by decide
theorem witness_LatchesHoldWhileBusy : (writing .tx none).st ≠ .idle ∧ Act.fetch ≠ .reset ∧
    answers (runAct .fetch { writing .tx none with prog := [.ctrl 0x101] }) (fun t => t.cmdrej) = true := by decide
theorem witness_DataIsOwnedWhileBusy : (reading .rx (some .read)).st ≠ .idle ∧
    answers (runAct (.complete ⟨true, 1, [0x55]⟩) (reading .rx (some .read)))
      (fun t => t.data ≠ (reading .rx (some .read)).data) = true := by decide
theorem witness_LinesChangeOnlyAtSetCompletions : Act.complete ok ≠ .reset ∧
    answers (runAct (.complete ok) (writing .dtrOn (some .setDtr))) (fun t => t.dtr ≠ false) = true ∧
    answers (runAct (.complete ok) { writing .rtsOff (some .setRts) with rts := true }) (fun t => t.rts ≠ true) = true := by
  decide
theorem witness_IdleLeavesOnlyByStart : State.reset.st = .idle ∧ State.reset.pend = none ∧
    answers (runAct .fetch { State.reset with prog := [.line .start [0]] }) (fun t => t.st = .chunk) = true ∧
    answers (runAct .fetch { State.reset with prog := [.busWrite 0x000 .b4 0x100] }) (fun t => t.st = .chunk) = true ∧
    startsOperation (.wr32 0x000 0x103) = false ∧ startsOperation (.wr32 0x000 0x012) = false := by decide
theorem witness_TransferCountChangesOnlyAtOutcomes : (testing .rx (some .read)).st ≠ .idle ∧
    answers (runAct (.complete ⟨true, 2, [0xDE, 0xAD]⟩) (testing .rx (some .read)))
      (fun t => t.xcount ≠ (testing .rx (some .read)).xcount) = true := by decide

end Sys2Proof.Tests
end

section
/-!
PROOFS, family 00_scope.md: which move a step is (R11, R20), the frame codec's three outcomes (R130 to R133) and the START rows
(R200, R201).
-/

namespace Sys2Proof.Machine

/-! ## The chosen move -/

theorem step_of_used {s : State} (h : s.st.isUnused = false) : step s = moveStep s := by
  simp only [step, h, Bool.false_eq_true, if_false]

/-- A choice that is written in `sched` is the move of the step (R11, assumption 6). -/
theorem step_of_sched {s : State} {a : Act} {rest : List Act} (h : s.st.isUnused = false) (hs : s.sched = a :: rest) :
    step s = runAct a (s.scheduled rest) := by
  rw [step_of_used h, moveStep, hs]

/-- With no choice written, the step is the oracle's move (assumption 6). -/
theorem step_of_oracle {s : State} (h : s.st.isUnused = false) (hs : s.sched = []) :
    step s = runAct (Config.freeAct s.draws) (s.drew 1) := by
  rw [step_of_used h, moveStep, hs]

/-- A fetch runs the decoded instruction with the program moved past its code (R110). -/
theorem fetchStep_of_instr {s : State} {c : Code} {more : List Code} {i : Instr} (hp : s.prog = c :: more)
    (hd : decode c = .instr i) : fetchStep s = exec i (s.advanced c more) := by
  rw [fetchStep, hp]
  simp only [present, hd]

/-- Settles O5: the fetch reaches `exec` through `step_of_sched` and `fetchStep_of_instr`. -/
theorem stepRunsTheFetchedInstruction : Obligations.StepRunsTheFetchedInstruction := by
  unfold Obligations.StepRunsTheFetchedInstruction
  refine ⟨?scheduled, ?oracle, ?fetch⟩
  case scheduled =>
    intro s rest c more i hst hsched hprog hdec
    have hprog' : (s.scheduled rest).prog = c :: more := hprog
    calc step s = runAct .fetch (s.scheduled rest) := step_of_sched hst hsched
      _ = exec i ((s.scheduled rest).advanced c more) := fetchStep_of_instr hprog' hdec
  case oracle => exact fun s hst hsched => step_of_oracle hst hsched
  case fetch => exact fun s c more i hprog hdec => fetchStep_of_instr hprog hdec

/-- Settles O6: `step_of_sched` at each of the other four agents' moves. -/
theorem stepIsTheChosenMove : Obligations.StepIsTheChosenMove := by
  unfold Obligations.StepIsTheChosenMove
  intro s rest hst
  refine ⟨?seq, ?complete, ?tick, ?reset⟩
  case seq => exact fun hs => step_of_sched hst hs
  case complete => exact fun r hs => step_of_sched hst hs
  case tick => exact fun n hs => step_of_sched hst hs
  case reset => exact fun hs => step_of_sched hst hs

/-! ## The frame codec -/

theorem exec_frameRead (a l : Word) (s : State) : exec (.frameRead a l) s = codeFrame 0 (encRead a l) s := rfl

theorem exec_frameWrite (a : Word) (p : List Byte) (s : State) :
    exec (.frameWrite a p) s = codeFrame p.length (encWrite a p) s := rfl

theorem exec_frameTest (p : List Byte) (s : State) : exec (.frameTest p) s = codeFrame p.length (encTest p) s := rfl

/-- The codec builds no frame over one that is still to be sent (R34, assumption 12). -/
theorem codeFrame_of_sending {n : Nat} {bs : List Byte} {s : State} (hs : s.st.sending = true) :
    codeFrame n bs s = .refused .frameInUse := by
  simp only [codeFrame, hs, if_true]

/-- A payload that its u32 length field cannot count faults (R103, I4). -/
theorem codeFrame_of_uncountable {n : Nat} {bs : List Byte} {s : State} (hs : s.st.sending = false) (h : 2 ^ 32 ≤ n) :
    codeFrame n bs s = .fault .lengthPastU32 := by
  simp only [codeFrame, hs, Nat.not_lt.mpr h, Bool.false_eq_true, if_false]

/-- The codec's next state for a frame of `m` bytes that the FRAME buffer holds (R130). -/
theorem codeFrame_of_fits {n m : Nat} {bs : List Byte} {s : State} (hs : s.st.sending = false) (hn : n < 2 ^ 32)
    (hm : bs.length = m) (hfit : m ≤ s.params.frameMax) :
    codeFrame n bs s = .next { s with frame := bs, flen := BitVec.ofNat 8 m, txIdx := 0 } := by
  subst hm
  rw [codeFrame_of hs hn, fillFrame_of_fits hfit]
  rfl

/-- The codec on a frame of `m` bytes that is longer than the FRAME buffer (assumption 12). -/
theorem codeFrame_of_overlong {n m : Nat} {bs : List Byte} {s : State} (hs : s.st.sending = false) (hn : n < 2 ^ 32)
    (hm : bs.length = m) (hlong : s.params.frameMax < m) :
    ∃ (f : List Byte) (len : BitVec 8),
      codeFrame n bs s = .next { s with frame := f, flen := len, txIdx := 0, draws := s.draws + 256 } ∧
      f.length = len.toNat ∧ (m < 256 → len.toNat = m) ∧
      ∀ j < len.toNat, j < s.params.frameMax → f[j]? = bs[j]? := by
  subst hm
  have hfill : fillFrame bs s = s.framedPast bs := if_neg (Nat.not_le.mpr hlong)
  refine ⟨(s.framedPast bs).frame, (s.framedPast bs).flen, ?next, framedPast_length s bs, ?flen, ?bytes⟩
  case next =>
    rw [codeFrame_of hs hn, hfill]
    rfl
  case flen =>
    intro h
    rw [State.framedPast_flen, frameLength_toNat h]
  case bytes => exact fun j hj hbuf => framedPast_getElem? s bs hj hbuf (hbuf.trans hlong)

/-- A frame of legal size is shorter than 2^8, as FLEN's u8 demands (R6, R29). -/
theorem Params.frameMax_lt {p : Params} (h : p.wf) : p.frameMax < 256 := by
  obtain ⟨-, hframe, -⟩ := h
  exact hframe

/-- Settles O19: `codeFrame_of_fits` at each encoder, and `codeFrame_of_sending`. -/
theorem encodersFillTheFrame : Obligations.EncodersFillTheFrame := by
  unfold Obligations.EncodersFillTheFrame
  intro s hwf
  have hmax : s.params.frameMax < 256 := Params.frameMax_lt hwf
  refine ⟨fun hs => ⟨?read, ?write, ?test⟩, ?refused⟩
  case read =>
    intro a l
    rw [exec_frameRead]
    exact codeFrame_of_fits hs (by decide) (encRead_length a l) (Nat.le_add_right 10 _)
  case write =>
    intro a p hfit
    rw [exec_frameWrite]
    exact codeFrame_of_fits hs (by omega) (encWrite_length a p) hfit
  case test =>
    intro p hfit
    rw [exec_frameTest]
    exact codeFrame_of_fits hs (by omega) (encTest_length p) hfit
  case refused =>
    intro hs a l p
    rw [exec_frameRead, exec_frameWrite, exec_frameTest]
    exact ⟨codeFrame_of_sending hs, codeFrame_of_sending hs, codeFrame_of_sending hs⟩

/-- Settles O20: `codeFrame_of_overlong` at the two encoders with a payload, and `codeFrame_of_uncountable`. -/
theorem overlongFramesFillTheBuffer : Obligations.OverlongFramesFillTheBuffer := by
  unfold Obligations.OverlongFramesFillTheBuffer
  intro s hs
  refine ⟨?write, ?test, ?fault⟩
  case write =>
    intro a p hlong hp
    rw [exec_frameWrite]
    exact codeFrame_of_overlong hs hp (encWrite_length a p) hlong
  case test =>
    intro p hlong hp
    rw [exec_frameTest]
    exact codeFrame_of_overlong hs hp (encTest_length p) hlong
  case fault =>
    intro a p hp
    rw [exec_frameWrite, exec_frameTest]
    exact ⟨codeFrame_of_uncountable hs hp, codeFrame_of_uncountable hs hp⟩

/-! ## The START rows -/

/-- Each START row is a CTRL write with START set, which the bus answers (R105, R106). -/
theorem exec_startRow {s : State} {irqEn : Bool} {r : BitVec 2 × Instr}
    (h : r ∈ [((0 : BitVec 2), Instr.startTest irqEn), (1, .startRead irqEn), (2, .startWrite irqEn),
      (3, .startReserved irqEn)]) :
    exec r.2 s = .next ((s.writeCtrl r.1 irqEn true).answered .written) := by
  simp only [List.mem_cons, List.not_mem_nil, or_false] at h
  rcases h with rfl | rfl | rfl | rfl
  · rfl
  · rfl
  · rfl
  · rfl

theorem busy_of_idle {s : State} (h : s.st = .idle) : s.busy = false := by simp [State.busy, h]

theorem busy_of_not_idle {s : State} (h : s.st ≠ .idle) : s.busy = true := by simp [State.busy, h]

theorem requestStart_of_busy {s : State} (h : s.st ≠ .idle) : s.requestStart = { s with cmdrej := true } :=
  if_pos (busy_of_not_idle h)

theorem requestStart_of_idle {s : State} (h : s.st = .idle) : s.requestStart = s.accept := by
  simp only [State.requestStart, busy_of_idle h, Bool.false_eq_true, if_false]

/-- READ and WRITE are the operations that are neither TEST nor the reserved one. -/
theorem isTransfer_iff {opl : BitVec 2} (h : opl ≠ 3) : isTransfer opl = true ↔ opl ≠ 0 := by
  rcases op2_cases opl with rfl | rfl | rfl | rfl
  · decide
  · decide
  · decide
  · exact absurd rfl h

/-- The six acceptance checks in the words of R201, where the reserved operation has been refused before the transfers' checks. -/
theorem startCheck_eq (p : Params) (opl : BitVec 2) (al total throughput : Word) :
    startCheck p opl al total throughput =
      if opl = 3 then .refuse .badCmd
      else if opl ≠ 0 ∧ total = 0 then .nothing
      else if opl ≠ 0 ∧ p.bufBytes < total.toNat then .refuse .len
      else if opl = 0 ∧ p.testMax < total.toNat then .refuse .len
      else if opl ≠ 0 ∧ 2 ^ p.addrW < al.toNat + total.toNat then .refuse .range
      else if opl ≠ 0 ∧ throughput = 0 then .refuse .config
      else .go := by
  by_cases h3 : opl = 3
  · rw [startCheck, if_pos h3, if_pos h3]
  · simp only [startCheck, isTransfer_iff h3]

/-- What a check's answer changes of a block that is idle and has latched: `accept_of_idle` ties it to the START step. -/
def State.afterCheck (s : State) : Check → State
  | .go => { s with st := .chunk }
  | .nothing => { s with done := true }
  | .refuse code => { s with err := code, done := true }

/-- An error on an idle block leaves ST as it is (R242). -/
theorem raiseError_of_idle {s : State} (h : s.st = .idle) (code : ErrCode) :
    s.raiseError code = { s with err := code, done := true } := by
  rw [State.raiseError, ← h]

/-- The latch has cleared what a completion clears, so that on an idle block only DONE is left to set (R200, R241). -/
theorem latched_finish_of_idle {s : State} (h : s.st = .idle) : s.latched.finish 0 = { s.latched with done := true } := by
  rw [State.finish, ← h]
  rfl

/-- An accepted START latches, and then the checks decide (R200, R201). -/
theorem accept_of_idle {s : State} (h : s.st = .idle) :
    s.accept = s.latched.afterCheck (startCheck s.params s.op s.addr s.len s.throughput) := by
  rcases accept_cases s with ⟨hcheck, haccept⟩ | ⟨hcheck, haccept⟩ | ⟨code, hcheck, haccept⟩
  · rw [hcheck, haccept]
    rfl
  · rw [hcheck, haccept]
    exact latched_finish_of_idle h
  · rw [hcheck, haccept]
    exact raiseError_of_idle (s := s.latched) h code

/-- Settles O22: a START row is a CTRL write, which is dropped while BUSY and else is decided by
`startCheck_eq` through `accept_of_idle`. -/
theorem startFollowsTheChecks : Obligations.StartFollowsTheChecks := by
  unfold Obligations.StartFollowsTheChecks
  intro s irqEn r hr
  rw [exec_startRow hr]
  refine ⟨?busy, ?idle⟩
  case busy =>
    intro hst
    have hdrop : s.writeCtrl r.1 irqEn true = { s with op := r.1, irqEn := irqEn, cmdrej := true } :=
      requestStart_of_busy (s := { s with op := r.1, irqEn := irqEn }) hst
    rw [hdrop]
    rfl
  case idle =>
    intro hst l
    have haccept : s.writeCtrl r.1 irqEn true = State.accept { s with op := r.1, irqEn := irqEn } :=
      requestStart_of_idle (s := { s with op := r.1, irqEn := irqEn }) hst
    rw [haccept, accept_of_idle (s := { s with op := r.1, irqEn := irqEn }) hst, startCheck_eq]
    split_ifs <;> rfl

end Sys2Proof.Machine
end

section
/-!
PROOFS, family 10_state.md: the host's view. What a register access is, LOAD, the words' fields, and the requests in and out of
their place.
-/

namespace Sys2Proof.Machine

/-! ## Register accesses (R28, R65, R66) -/

/-- Every register lies below DATA. -/
theorem placeAt_of_reg {p : Params} {off : Nat} {r : Reg} (h : regAt off = some r) : placeAt p off 4 = .reg r := by
  have hlt : off < 0x100 := by
    by_contra hge
    rw [regAt_none (by omega)] at h
    cases h
  rw [placeAt, if_pos hlt, if_pos rfl, h]

theorem busWrite_of_reg {s : State} {off : Nat} {r : Reg} (h : regAt off = some r) (v : Word) :
    s.busWrite off 4 v = (s.writeReg r v).answered .written := by
  rw [State.busWrite, placeAt_of_reg h]

theorem busRead_of_reg {s : State} {off : Nat} {r : Reg} (h : regAt off = some r) :
    s.busRead off 4 = s.answered (.value (s.readReg r)) := by
  rw [busRead_eq, State.readDraws, State.readAnswer, placeAt_of_reg h]
  rfl

theorem exec_wr32_of_reg {s : State} {off : Word} {r : Reg} (h : regAt off.toNat = some r) (v : Word) :
    exec (.wr32 off v) s = .next ((s.writeReg r v).answered .written) := congrArg Host.Outcome.next (busWrite_of_reg h v)

theorem exec_rd32_of_reg {s : State} {off : Word} {r : Reg} (h : regAt off.toNat = some r) :
    exec (.rd32 off) s = .next (s.answered (.value (s.readReg r))) := congrArg Host.Outcome.next (busRead_of_reg h)

/-- A word written to CTRL writes the fields OP, IRQ_EN and START that stand in it (R35). -/
theorem exec_wr32_ctrl (s : State) (w : Word) :
    exec (.wr32 0x000 w) s = .next ((s.writeCtrl (w.extractLsb' 0 2) (w.getLsbD 4) (w.getLsbD 8)).answered .written) :=
  exec_wr32_of_reg (r := .ctrl) rfl w

/-- Settles O4: a CTRL or STATUS row is the register write of the word's fields. -/
theorem controlWordWriteIsItsRow : Obligations.ControlWordWriteIsItsRow := by
  unfold Obligations.ControlWordWriteIsItsRow
  intro s w
  rw [exec_wr32_ctrl]
  refine ⟨?test, ?read, ?write, ?reserved, ?set, ?status⟩
  case test => intro hstart hop; rw [hstart, hop]; rfl
  case read => intro hstart hop; rw [hstart, hop]; rfl
  case write => intro hstart hop; rw [hstart, hop]; rfl
  case reserved => intro hstart hop; rw [hstart, hop]; rfl
  case set => intro hstart; rw [hstart]; rfl
  case status => exact exec_wr32_of_reg (r := .status) rfl w

/-- Settles O9: `exec_rd32_of_reg` at each of the ten offsets. -/
theorem registerReadAnswersItsWord : Obligations.RegisterReadAnswersItsWord := by
  unfold Obligations.RegisterReadAnswersItsWord
  intro s p hp
  simp only [List.mem_cons, List.not_mem_nil, or_false] at hp
  rcases hp with rfl | rfl | rfl | rfl | rfl | rfl | rfl | rfl | rfl | rfl
  · exact exec_rd32_of_reg (r := .ctrl) rfl
  · exact exec_rd32_of_reg (r := .status) rfl
  · exact exec_rd32_of_reg (r := .addr) rfl
  · exact exec_rd32_of_reg (r := .len) rfl
  · exact exec_rd32_of_reg (r := .throughput) rfl
  · exact exec_rd32_of_reg (r := .minDur) rfl
  · exact exec_rd32_of_reg (r := .xcount) rfl
  · exact exec_rd32_of_reg (r := .lines) rfl
  · exact exec_rd32_of_reg (r := .params) rfl
  · exact exec_rd32_of_reg (r := .bufsize) rfl

/-- A register of 32 bits keeps the whole word (R37, R38). -/
theorem lowBits_full (w : Word) : lowBits 32 w = w := by
  rw [lowBits, Nat.mod_eq_of_lt w.isLt, BitVec.ofNat_toNat, BitVec.setWidth_eq]

/-- Settles O11: `exec_wr32_of_reg` at each writable and each read-only register. -/
theorem registerWriteStoresOrIsIgnored : Obligations.RegisterWriteStoresOrIsIgnored := by
  unfold Obligations.RegisterWriteStoresOrIsIgnored
  intro s w
  have haddr := exec_wr32_of_reg (s := s) (off := 0x008) (r := .addr) rfl w
  have hlen := exec_wr32_of_reg (s := s) (off := 0x00C) (r := .len) rfl w
  refine ⟨haddr, hlen, fun hp => ?srwp, ?throughput, ?ignored⟩
  case srwp =>
    have haddrW : s.params.addrW = 32 := by rw [hp]; rfl
    have hlenW : s.params.lenW = 32 := by rw [hp]; rfl
    rw [haddr, hlen, State.writeReg, State.writeReg, haddrW, hlenW, lowBits_full]
    exact ⟨rfl, rfl⟩
  case throughput => exact exec_wr32_of_reg (r := .throughput) rfl w
  case ignored =>
    intro off hoff
    simp only [List.mem_cons, List.not_mem_nil, or_false] at hoff
    rcases hoff with rfl | rfl | rfl | rfl | rfl
    · exact exec_wr32_of_reg (r := .minDur) rfl w
    · exact exec_wr32_of_reg (r := .xcount) rfl w
    · exact exec_wr32_of_reg (r := .lines) rfl w
    · exact exec_wr32_of_reg (r := .params) rfl w
    · exact exec_wr32_of_reg (r := .bufsize) rfl w

/-- A W1C bit clears where it is 1 (R36). -/
theorem w1c_eq (b clear : Bool) : (b && !clear) = if clear then false else b := by
  cases clear
  · exact Bool.and_true b
  · exact Bool.and_false b

/-- Settles O12: CTRL_SET is a CTRL write without START, and STATUS_W1C clears by `w1c_eq`. -/
theorem ctrlSetAndStatusClear : Obligations.CtrlSetAndStatusClear := by
  unfold Obligations.CtrlSetAndStatusClear
  intro s
  refine ⟨fun op irqEn => rfl, fun d c => ?_⟩
  rw [← w1c_eq, ← w1c_eq]
  rfl

/-! ## The fields of the words (R35 to R44) -/

/-- A concatenation weighs its high part by the low part's width. -/
theorem toNat_append_eq {m n : Nat} (x : BitVec m) (y : BitVec n) : (x ++ y).toNat = x.toNat * 2 ^ n + y.toNat := by
  rw [BitVec.toNat_append, ← Nat.shiftLeft_add_eq_or_of_lt y.isLt, Nat.shiftLeft_eq]

/-- STATUS by its weights (R36). -/
theorem statusWord_toNat (s : State) :
    s.statusWord.toNat = (if s.st = .idle then 0 else 1) + 2 * s.done.toNat + 4 * s.cmdrej.toNat +
      256 * s.err.code.toNat := by
  have hbusy : s.busy.toNat = if s.st = .idle then 0 else 1 := by
    by_cases h : s.st = .idle
    · rw [busy_of_idle h, if_pos h]; rfl
    · rw [busy_of_not_idle h, if_neg h]; rfl
  rw [← hbusy]
  simp only [State.statusWord, toNat_append_eq, BitVec.toNat_ofBool, BitVec.ofNat_eq_ofNat, BitVec.toNat_ofNat]
  omega

/-- MINDUR fits its u32 with legal parameters (R207). -/
theorem minDurWord_toNat {s : State} (hfit : s.params.msPerS * s.params.chunkMax < 2 ^ 32) (h : s.throughput ≠ 0) :
    s.minDurWord.toNat = s.params.msPerS * s.params.chunkMax / s.throughput.toNat := by
  rw [State.minDurWord, if_neg h, BitVec.toNat_ofNat]
  exact Nat.mod_eq_of_lt ((Nat.div_le_self _ _).trans_lt hfit)

/-- Settles O10: the concatenations by their weights (`toNat_append_eq`), and the widths of the fields. -/
theorem registerWordsHoldTheirFields : Obligations.RegisterWordsHoldTheirFields := by
  unfold Obligations.RegisterWordsHoldTheirFields
  intro s
  refine ⟨?ctrl, ?status, ?lines, ?marker, ?minDur, ?minDurSrwp, ?params, ?bufsize, ?srwp⟩
  case ctrl =>
    simp only [State.ctrlWord, toNat_append_eq, BitVec.toNat_ofBool, BitVec.ofNat_eq_ofNat, BitVec.toNat_ofNat]
    omega
  case status => exact (statusWord_toNat s).trans (by cases s.err <;> rfl)
  case lines =>
    simp only [State.linesWord, toNat_append_eq, BitVec.toNat_ofBool, BitVec.ofNat_eq_ofNat, BitVec.toNat_ofNat]
    omega
  case marker => exact fun h => if_pos h
  case minDur =>
    rintro ⟨-, -, -, -, -, hfit, -⟩ h
    exact minDurWord_toNat hfit h
  case minDurSrwp =>
    intro hp h
    rw [minDurWord_toNat (by rw [hp]; decide) h, hp]
    rfl
  case params =>
    rintro ⟨-, hmax, hlimit, -⟩
    simp only [State.paramsWord, toNat_append_eq, BitVec.ofNat_eq_ofNat, BitVec.toNat_ofNat]
    omega
  case bufsize =>
    rintro ⟨-, -, -, -, hbuf, -⟩
    rw [State.bufsizeWord, BitVec.toNat_ofNat]
    omega
  case srwp =>
    intro hp
    rw [State.paramsWord, State.bufsizeWord, hp]
    exact ⟨rfl, rfl⟩

/-! ## LOAD (R111) -/

/-- The line that a LOAD of `b :: bs` leaves in front of the program. -/
def loadRest (i : Nat) (bs : List Byte) (prog : List Code) : List Code :=
  if bs = [] then prog else encode (.load (i + 1) bs) :: prog

/-- One LOAD step is WR8 of its first byte, with the rest of its line in front of the program. -/
theorem exec_load_cons (s : State) (i : Nat) (b : Byte) (bs : List Byte) :
    exec (.load i (b :: bs)) s =
      .next { s.busWrite (0x100 + i) 1 (b.setWidth 32) with
        prog := loadRest i bs (s.busWrite (0x100 + i) 1 (b.setWidth 32)).prog } := by
  cases bs with
  | nil => rfl
  | cons c rest => rfl

/-- The one byte that WR8 stores (R68). -/
theorem leBytes_one (b : Byte) : leBytes 1 (b.setWidth 32) = [b] := by
  have hb : (b.setWidth 32).extractLsb' 0 8 = b := by
    apply BitVec.eq_of_toNat_eq
    rw [BitVec.extractLsb'_toNat, BitVec.toNat_setWidth, Nat.shiftRight_zero]
    omega
  rw [leBytes, leBytes, hb]

/-- LOAD's byte on an idle block, inside the buffer (R68). -/
theorem exec_load_of_idle {s : State} {i : Nat} (b : Byte) (bs : List Byte) (hi : i < s.params.bufBytes)
    (hs : s.st = .idle) : exec (.load i (b :: bs)) s = .next { s with
      data := s.data.set i b, answers := s.answers ++ [.written], prog := loadRest i bs s.prog } := by
  rw [exec_load_cons, busWrite_of_idle hs (by omega) (by omega) (Nat.mod_one _), leBytes_one, Nat.add_sub_cancel_left]
  rfl

/-- LOAD's byte on a busy block is dropped (R69). -/
theorem exec_load_of_busy {s : State} {i : Nat} (b : Byte) (bs : List Byte) (hi : i < s.params.bufBytes)
    (hs : s.st ≠ .idle) : exec (.load i (b :: bs)) s = .next { s with
      answers := s.answers ++ [.written], prog := loadRest i bs s.prog } := by
  have hw : s.busWrite (0x100 + i) 1 (b.setWidth 32) = s.answered .written := by
    simp only [State.busWrite, placeAt_of_data (p := s.params) (off := 0x100 + i) (n := 1) (by omega) (by omega)
      (Nat.mod_one _), busy_of_not_idle hs, if_true]
  rw [exec_load_cons, hw]
  rfl

/-- LOAD's byte past the buffer answers BUSERR (R64). -/
theorem exec_load_past {s : State} {i : Nat} (b : Byte) (bs : List Byte) (hi : s.params.bufBytes ≤ i) :
    exec (.load i (b :: bs)) s = .next { s with
      answers := s.answers ++ [.busErrWrite], prog := loadRest i bs s.prog } := by
  have hw : s.busWrite (0x100 + i) 1 (b.setWidth 32) = s.answered .busErrWrite := by
    rw [State.busWrite, placeAt_of_nowhere (p := s.params) (off := 0x100 + i) (n := 1) nofun (by omega)]
  rw [exec_load_cons, hw]
  rfl

/-- Settles O27, by the three equations of one LOAD step. -/
theorem loadWritesOneByteAStep : Obligations.LoadWritesOneByteAStep := by
  unfold Obligations.LoadWritesOneByteAStep
  intro s i b bs rest
  refine ⟨fun hi hs => ?_, fun hi hs => exec_load_of_busy b bs hi hs, fun hi => exec_load_past b bs hi⟩
  exact ⟨_, exec_load_of_idle b bs hi hs, rfl, fun a => Memory.get_set s.data i a b⟩

theorem decode_load (i : Nat) (b : Byte) (bs : List Byte) :
    decode (encode (.load i (b :: bs))) = .instr (.load i (b :: bs)) := by
  have hbytes := bytesOfNats_map (b :: bs)
  rw [List.map_cons] at hbytes
  simp only [encode, List.map_cons, decode, decodeLine, decodeLoadLine, hbytes]

/-- One scheduled fetch of a LOAD on an idle block. -/
theorem step_of_load {s : State} {i : Nat} {b : Byte} {bs : List Byte} {code : List Code} {acts : List Act}
    (hs : s.st = .idle) (hi : i < s.params.bufBytes) (hprog : s.prog = encode (.load i (b :: bs)) :: code)
    (hsched : s.sched = .fetch :: acts) :
    step s = .next { s with
      data := s.data.set i b, answers := s.answers ++ [.written], prog := loadRest i bs code, sched := acts } := by
  have hst : s.st.isUnused = false := by rw [hs]; rfl
  have hfetch := fetchStep_of_instr (s := s.scheduled acts) hprog (decode_load i b bs)
  rw [step_of_sched hst hsched, runAct, hfetch]
  exact exec_load_of_idle b bs hi hs

/-- As many fetches as a LOAD has bytes run it to its end. -/
theorem run_of_load {s : State} {i : Nat} {bs : List Byte} {code : List Code} {acts : List Act} (hs : s.st = .idle)
    (hne : bs ≠ []) (hfit : i + bs.length ≤ s.params.bufBytes) (hprog : s.prog = encode (.load i bs) :: code)
    (hsched : s.sched = List.replicate bs.length .fetch ++ acts) :
    Sys2Proof.core.run bs.length s = .next { s with
      data := s.data.setMany i bs, prog := code, sched := acts
      answers := s.answers ++ List.replicate bs.length .written } := by
  induction bs generalizing s i with
  | nil => exact absurd rfl hne
  | cons b bs ih =>
    rw [List.length_cons] at hfit
    rw [List.length_cons, List.replicate_succ, List.cons_append] at hsched
    have hstep := step_of_load hs (by omega) hprog hsched
    rw [List.length_cons, core_run_of_step hstep]
    by_cases hbs : bs = []
    · subst hbs
      rfl
    · have hrest : loadRest i bs code = encode (.load (i + 1) bs) :: code := if_neg hbs
      have hfit' : i + 1 + bs.length ≤ s.params.bufBytes := by omega
      rw [hrest, ih (i := i + 1) (s := { s with
        data := s.data.set i b, answers := s.answers ++ [.written], prog := encode (.load (i + 1) bs) :: code
        sched := List.replicate bs.length .fetch ++ acts }) hs hbs hfit' rfl rfl]
      simp only [Memory.setMany, List.replicate_succ, List.append_assoc, List.singleton_append]

/-- Settles O26, by `run_of_load` and what a read finds after MemWrite. -/
theorem loadStoresItsBytes : Obligations.LoadStoresItsBytes := by
  unfold Obligations.LoadStoresItsBytes
  intro s i bs code acts hs hne hfit hprog hsched
  exact ⟨_, run_of_load hs hne hfit hprog hsched, rfl, fun a => Memory.get_setMany s.data i a bs⟩

/-! ## Requests in and out of their place (R27, R150) -/

/-- The T_ instruction of a request is the request at the port (R108). -/
theorem exec_request (r : Req) (s : State) : exec r.instr s = issueRequest r s := by cases r <;> rfl

/-- In a transport state the sequencer's step is the issue step (R30, R150). -/
theorem seqStep_of_transport {s : State} (hs : s.st.op ≠ none) : seqStep s = issueStep s := by
  unfold seqStep
  cases hst : s.st with
  | idle | chunk | pace | unused => exact absurd (by rw [hst]; rfl) hs
  | clear | dtrOn | rtsOn | tx | flush | rtsOff | dtrOff | waitC | rx => rfl

/-- Settles O8: the sequencer's step and the T_ instruction both issue ST's request. -/
theorem sequencerStepIsItsRequest : Obligations.SequencerStepIsItsRequest := by
  unfold Obligations.SequencerStepIsItsRequest
  intro s r hp hc hr
  have hseq : seqStep s = .next (s.issued r) := by
    rw [seqStep_of_transport (by rw [request_op hr]; exact nofun), issueStep, if_pos hp, hc, hr]
  refine ⟨?_, hseq⟩
  rw [hseq, exec_request, issueRequest_of hp hc hr]

/-- Settles O29: a request out of its place fails the one check of the port; T_RESERVED has no other meaning. -/
theorem requestOutOfPlaceIsRefused : Obligations.RequestOutOfPlaceIsRefused := by
  unfold Obligations.RequestOutOfPlaceIsRefused
  refine ⟨fun s r h => ?_, fun s => rfl⟩
  have hout : ¬(s.pend = none ∧ s.cannotIssue = none ∧ s.request = some r) := by
    rintro ⟨hp, hc, hr⟩
    rcases h with h | h | h
    · exact h hp
    · exact h hc
    · exact h hr
  rw [exec_request, issueRequest, if_neg hout]

/-! ## ST and reset -/

/-- Settles O7: `step` looks at ST before it looks at the agents (R30, I15). -/
theorem unusedStateFaults : Obligations.UnusedStateFaults := by
  unfold Obligations.UnusedStateFaults
  intro s k hs
  have hunused : s.st.isUnused = true := by rw [hs]; rfl
  exact if_pos hunused

/-- Settles O48: the reset step is the record of R50 (R270). -/
theorem resetStepSetsEveryRegister : Obligations.ResetStepSetsEveryRegister := by
  unfold Obligations.ResetStepSetsEveryRegister
  exact fun s => congrArg Host.Outcome.next (rfl : resetStep s = _)

end Sys2Proof.Machine
end

section
/-!
PROOFS, family 10_state.md: what one move can do to the block. `InstrEffect` lists what a presented instruction does,
`MoveEffect` what a move of any agent does, and the frame equations say which registers the moves of each agent leave alone.
-/

namespace Sys2Proof.Machine

/-! ## The block and its environment -/

/-- The same block: at most the model's own record of the environment (R11, R110) differs. -/
def State.SameBlock (s t : State) : Prop :=
  t = { s with answers := t.answers, verdict := t.verdict, prog := t.prog, sched := t.sched, draws := t.draws }

theorem State.SameBlock.refl (s : State) : s.SameBlock s := rfl

theorem State.SameBlock.trans {s t u : State} (h1 : s.SameBlock t) (h2 : t.SameBlock u) : s.SameBlock u := by
  rw [State.SameBlock, h2, h1]

section
variable {s t : State} (h : s.SameBlock t)
include h
theorem State.SameBlock.st_eq : t.st = s.st := by rw [h]
theorem State.SameBlock.pend_eq : t.pend = s.pend := by rw [h]
theorem State.SameBlock.log_eq : t.log = s.log := by rw [h]
theorem State.SameBlock.now_eq : t.now = s.now := by rw [h]
theorem State.SameBlock.xcount_eq : t.xcount = s.xcount := by rw [h]
theorem State.SameBlock.tStart_eq : t.tStart = s.tStart := by rw [h]
theorem State.SameBlock.minDur_eq : t.minDur = s.minDur := by rw [h]
end

theorem sameBlock_answered (s : State) (a : Answer) : s.SameBlock (s.answered a) := rfl
theorem sameBlock_again (s : State) (c : Code) : s.SameBlock (s.again c) := rfl
theorem sameBlock_judged (s : State) (v : Verdict) : s.SameBlock (s.judged v) := rfl
theorem sameBlock_drew (s : State) (n : Nat) : s.SameBlock (s.drew n) := rfl
theorem sameBlock_scheduled (s : State) (rest : List Act) : s.SameBlock (s.scheduled rest) := rfl
theorem sameBlock_advanced (s : State) (c : Code) (rest : List Code) : s.SameBlock (s.advanced c rest) := rfl
theorem sameBlock_busRead (s : State) (off n : Nat) : s.SameBlock (s.busRead off n) := rfl

theorem sameBlock_pollOnce (s : State) (off : Nat) (mask v : Word) (c : Code) :
    s.SameBlock (s.pollOnce off mask v c) := by
  rcases pollOnce_cases s off mask v c with ⟨-, h⟩ | ⟨-, h⟩
  · rw [h]; exact sameBlock_busRead s off 4
  · rw [h]; exact (sameBlock_busRead s off 4).trans (sameBlock_again _ c)

/-! ## What a presented instruction does -/

/-- What an instruction can do to the block: one constructor for each way the families of instructions change it. -/
inductive InstrEffect (i : Instr) (s : State) : State → Prop
  /-- A read, a judged frame, an access that is not admitted, or a DATA write while BUSY (R64, R65, R69, R135). -/
  | nothing : InstrEffect i s s
  /-- A write to ADDR, LEN or THROUGHPUT (R66). -/
  | register (addr len throughput : Word) :
      InstrEffect i s { s with addr := addr, len := len, throughput := throughput }
  /-- A write to STATUS (R36). -/
  | status (done cmdrej : Bool) : InstrEffect i s (s.writeStatus done cmdrej)
  /-- A write to CTRL without START (R35). -/
  | control (op : BitVec 2) (irqEn : Bool) : InstrEffect i s { s with op := op, irqEn := irqEn }
  /-- A START while BUSY (R201). -/
  | dropped (op : BitVec 2) (irqEn : Bool) (hs : s.st ≠ .idle) :
      InstrEffect i s { s with op := op, irqEn := irqEn, cmdrej := true }
  /-- A START on an idle block (R200, R201). -/
  | accepted (op : BitVec 2) (irqEn : Bool) (hs : s.st = .idle) (hi : op ≠ 3 → startsOperation i = true) :
      InstrEffect i s (State.accept { s with op := op, irqEn := irqEn })
  /-- A DATA write on an idle block (R68). -/
  | stored (a : Nat) (bytes : List Byte) (hs : s.st = .idle) (ha : a + bytes.length ≤ s.params.bufBytes) :
      InstrEffect i s (s.stored a bytes)
  /-- The frame codec (R130). -/
  | framed (frame : List Byte) (flen : BitVec 8) (hs : s.st.sending = false)
      (hf : s.params.wf → frame.length = flen.toNat) :
      InstrEffect i s { s with frame := frame, flen := flen, txIdx := 0 }
  /-- A transport request in its place (R150). -/
  | issued (r : Req) (hp : s.pend = none) (hc : s.cannotIssue = none) (hr : s.request = some r) :
      InstrEffect i s (s.issued r)

/-- What an instruction that answers `t` has done: an effect on the block, and a record in the environment. -/
def HasEffect (i : Instr) (s t : State) : Prop := ∃ u, InstrEffect i s u ∧ u.SameBlock t

theorem hasEffect_of_sameBlock {i : Instr} {s t : State} (h : s.SameBlock t) : HasEffect i s t := ⟨s, .nothing, h⟩

theorem fillFrame_effect {i : Instr} {s : State} (bs : List Byte) (hs : s.st.sending = false) :
    HasEffect i s (fillFrame bs s) := by
  rcases fillFrame_cases bs s with ⟨hfit, h⟩ | ⟨-, h⟩
  · refine ⟨_, .framed bs (BitVec.ofNat 8 bs.length) hs fun hwf => ?_, ?_⟩
    · have hmax := Params.frameMax_lt hwf
      rw [BitVec.toNat_ofNat, Nat.mod_eq_of_lt (by omega)]
    · rw [h]; rfl
  · refine ⟨_, .framed (s.framedPast bs).frame (s.framedPast bs).flen hs fun _ => framedPast_length s bs, ?_⟩
    rw [h]; rfl

theorem codeFrame_effect {i : Instr} {n : Nat} {bs : List Byte} {s t : State} (h : codeFrame n bs s = .next t) :
    HasEffect i s t := by
  obtain ⟨hs, -, rfl⟩ := codeFrame_next h
  exact fillFrame_effect bs hs

theorem issueRequest_effect {i : Instr} {r : Req} {s t : State} (h : issueRequest r s = .next t) : HasEffect i s t := by
  obtain ⟨hp, hc, hr, rfl⟩ := issueRequest_next h
  exact ⟨_, .issued r hp hc hr, .refl _⟩

/-- A CTRL write is one of three: no START, a dropped START, an accepted START (R35, R200, R201). -/
theorem writeCtrl_effect {i : Instr} {op : BitVec 2} {start : Bool} (s : State) (irqEn : Bool)
    (hi : start = true → op ≠ 3 → startsOperation i = true) : InstrEffect i s (s.writeCtrl op irqEn start) := by
  rcases writeCtrl_cases s op irqEn start with ⟨-, h⟩ | ⟨hstart, h⟩
  · rw [h]; exact .control op irqEn
  · by_cases hs : s.st = .idle
    · rw [h, requestStart_of_idle (s := { s with op := op, irqEn := irqEn }) hs]
      exact .accepted op irqEn hs (hi hstart)
    · rw [h, requestStart_of_busy (s := { s with op := op, irqEn := irqEn }) hs]
      exact .dropped op irqEn hs

theorem writeReg_effect {i : Instr} {r : Reg} {v : Word} (s : State)
    (hi : r = .ctrl → ctrlStart v = true → ctrlOp v ≠ 3 → startsOperation i = true) :
    InstrEffect i s (s.writeReg r v) := by
  cases r with
  | ctrl => exact writeCtrl_effect s _ (hi rfl)
  | status => exact .status _ _
  | addr => exact .register (lowBits s.params.addrW v) s.len s.throughput
  | len => exact .register s.addr (lowBits s.params.lenW v) s.throughput
  | throughput => exact .register s.addr s.len v
  | minDur | xcount | lines | params | bufsize => exact .nothing

theorem idle_of_not_busy {s : State} (h : s.busy = false) : s.st = .idle := by simpa [State.busy] using h

/-- One host write (R64, R66, R68, R69). -/
theorem busWrite_effect {i : Instr} {off n : Nat} {v : Word} (s : State)
    (hi : placeAt s.params off n = .reg .ctrl → ctrlStart v = true → ctrlOp v ≠ 3 → startsOperation i = true) :
    HasEffect i s (s.busWrite off n v) := by
  rcases busWrite_cases s off n v with ⟨r, hpl, h⟩ | ⟨a, -, -, h⟩ | ⟨a, hpl, hb, h⟩ | ⟨-, h⟩
  · rw [h]
    exact ⟨_, writeReg_effect s fun hr => hi (hr ▸ hpl), sameBlock_answered _ _⟩
  · rw [h]
    exact hasEffect_of_sameBlock (sameBlock_answered s _)
  · obtain ⟨-, hfit, -⟩ := placeAt_data hpl
    rw [h]
    exact ⟨_, .stored a _ (idle_of_not_busy hb) (by rw [leBytes_length]; exact hfit), sameBlock_answered _ _⟩
  · rw [h]
    exact hasEffect_of_sameBlock (sameBlock_answered s _)

theorem regAt_ctrl {off : Nat} (h : regAt off = some .ctrl) : off = 0 := by
  by_contra h0
  rw [regAt, if_neg h0] at h
  split_ifs at h
  all_goals cases h

/-- An access of another size than 4, or at another offset than 0x000, does not reach CTRL (R28, R63). -/
theorem placeAt_ctrl {p : Params} {off n : Nat} (h : placeAt p off n = .reg .ctrl) : n = 4 ∧ off = 0 := by
  obtain ⟨hn, hreg⟩ := placeAt_reg h
  exact ⟨hn, regAt_ctrl hreg⟩

/-- A sub-word write starts nothing (R63). -/
theorem busWrite_effect_subword {i : Instr} {off n : Nat} {v : Word} (s : State) (hn : n ≠ 4) :
    HasEffect i s (s.busWrite off n v) :=
  busWrite_effect s fun hpl => absurd (placeAt_ctrl hpl).1 hn

/-- One access of a LOAD (R111). -/
theorem execLoad_effect {i : Instr} {a : Nat} {bytes : List Byte} {s t : State} (h : execLoad a bytes s = .next t) :
    HasEffect i s t := by
  match bytes with
  | [] => cases h; exact hasEffect_of_sameBlock (.refl _)
  | [b] => cases h; exact busWrite_effect_subword s (by decide)
  | b :: c :: rest =>
    cases h
    obtain ⟨u, hu, hsame⟩ := busWrite_effect_subword (i := i) (off := 0x100 + a) (v := b.setWidth 32) s
      (show 1 ≠ 4 by decide)
    exact ⟨u, hu, hsame.trans (sameBlock_again _ _)⟩

/-- Every instruction that answers a next state has one of the effects. -/
theorem exec_effect {i : Instr} {s t : State} (h : exec i s = .next t) : HasEffect i s t := by
  cases i with
  | frameTest p => exact codeFrame_effect h
  | frameRead a l => exact codeFrame_effect h
  | frameWrite a p => exact codeFrame_effect h
  | frameInvalidOpcode opc => cases h; exact hasEffect_of_sameBlock (sameBlock_judged s _)
  | frameInvalidPrefix cls opc => cases h; exact hasEffect_of_sameBlock (sameBlock_judged s _)
  | startTest b => cases h; exact ⟨_, writeCtrl_effect s b fun _ _ => rfl, sameBlock_answered _ _⟩
  | startRead b => cases h; exact ⟨_, writeCtrl_effect s b fun _ _ => rfl, sameBlock_answered _ _⟩
  | startWrite b => cases h; exact ⟨_, writeCtrl_effect s b fun _ _ => rfl, sameBlock_answered _ _⟩
  | startReserved b => cases h; exact ⟨_, writeCtrl_effect s b fun _ hop => absurd rfl hop, sameBlock_answered _ _⟩
  | ctrlSet op b => cases h; exact ⟨_, writeCtrl_effect (op := op) (start := false) s b nofun, sameBlock_answered _ _⟩
  | statusW1c d c => cases h; exact ⟨_, .status d c, sameBlock_answered _ _⟩
  | tClear => exact issueRequest_effect h
  | tSetDtr b => exact issueRequest_effect h
  | tSetRts b => exact issueRequest_effect h
  | tWrite d => exact issueRequest_effect h
  | tFlush => exact issueRequest_effect h
  | tRead m => exact issueRequest_effect h
  | tWaitC => exact issueRequest_effect h
  | tReserved => cases h
  | wr32 off v =>
    cases h
    refine busWrite_effect s fun hpl hstart hop => ?_
    have hoff : off = 0 := BitVec.eq_of_toNat_eq (placeAt_ctrl hpl).2
    simp only [startsOperation, hoff, hstart, hop, decide_true, ne_eq, not_false_eq_true, Bool.and_self]
  | wr16 off v => cases h; exact busWrite_effect_subword s (by decide)
  | wr8 off v => cases h; exact busWrite_effect_subword s (by decide)
  | rd32 off => cases h; exact hasEffect_of_sameBlock (sameBlock_busRead s _ _)
  | rd16 off => cases h; exact hasEffect_of_sameBlock (sameBlock_busRead s _ _)
  | rd8 off => cases h; exact hasEffect_of_sameBlock (sameBlock_busRead s _ _)
  | start op => cases h; exact busWrite_effect s fun _ _ _ => rfl
  | starti op => cases h; exact busWrite_effect s fun _ _ _ => rfl
  | poll off m v => cases h; exact hasEffect_of_sameBlock (sameBlock_pollOnce s _ _ _ _)
  | waitdone => cases h; exact hasEffect_of_sameBlock (sameBlock_pollOnce s _ _ _ _)
  | ack => cases h; exact busWrite_effect s fun hpl => absurd (placeAt_ctrl hpl).2 (by decide)
  | load a bs => exact execLoad_effect h

/-! ## What a move does -/

/-- What a move of an agent can do (R20), one constructor for each kind of step. -/
inductive MoveEffect (s : State) : Act → State → Prop
  /-- The agent has no enabled step (assumption 7). -/
  | disabled (a : Act) : MoveEffect s a s
  /-- A frame that is not whole is judged (R136). -/
  | judged (t : State) (hsame : s.SameBlock t) : MoveEffect s .fetch t
  /-- The next code of the program is executed (R110). -/
  | instr (c : Code) (rest : List Code) (i : Instr) (t : State) (hprog : s.prog = c :: rest)
      (hdec : decode c = .instr i) (heff : HasEffect i (s.advanced c rest) t) : MoveEffect s .fetch t
  /-- CHUNK (R208). -/
  | chunk (t : State) (hs : s.st = .chunk) (ht : chunkStep s = .next t) : MoveEffect s .seq t
  /-- PACE's exit (R213, R214). -/
  | paced (hs : s.st = .pace) (hp : s.paced = true) : MoveEffect s .seq s.afterPace
  /-- The issue of ST's request (R150). -/
  | issue (r : Req) (hp : s.pend = none) (hc : s.cannotIssue = none) (hr : s.request = some r) :
      MoveEffect s .seq (s.issued r)
  /-- A completion (R150). -/
  | completion (r : Resp) (op : TOp) (t : State) (hp : s.pend = some op) (hs : s.st.op = some op)
      (ht : onResp r ((s.logged (.complete op r)).settled) = .next t) : MoveEffect s (.complete r) t
  /-- The clock (R22). -/
  | clock (n : Nat) (hn : 1 ≤ n) (hend : s.now.toNat + n < s.timeEnd) :
      MoveEffect s (.tick n) { s with now := BitVec.ofNat 64 (s.now.toNat + n) }
  /-- RESET (R270). -/
  | reset : MoveEffect s .reset (resetStep s)

/-- The clock step is enabled as far as NOW's bits go (R22, assumption 3). -/
theorem clockStep_of_enabled {s : State} {n : Nat} (h1 : 1 ≤ n) (h2 : s.now.toNat + n < s.timeEnd) :
    clockStep n s = { s with now := BitVec.ofNat 64 (s.now.toNat + n) } := if_pos ⟨h1, h2⟩

theorem clockStep_of_disabled {s : State} {n : Nat} (h : n = 0 ∨ s.timeEnd ≤ s.now.toNat + n) : clockStep n s = s :=
  if_neg (by omega)

/-- Every move that answers a next state has one of the effects. -/
theorem runAct_effect {a : Act} {s t : State} (h : runAct a s = .next t) : MoveEffect s a t := by
  cases a with
  | fetch =>
    rcases fetchStep_next h with ⟨-, rfl⟩ | ⟨c, rest, hprog, ⟨i, hdec, hexec⟩ | ⟨-, rfl⟩⟩
    · exact .disabled _
    · exact .instr c rest i t hprog hdec (exec_effect hexec)
    · exact .judged _ ((sameBlock_advanced s c rest).trans (sameBlock_judged _ _))
  | seq =>
    rcases seqStep_next h with rfl | ⟨hs, ht⟩ | ⟨hs, hp, rfl⟩ | ⟨r, hp, hc, hr, rfl⟩
    · exact .disabled _
    · exact .chunk t hs ht
    · exact .paced hs hp
    · exact .issue r hp hc hr
  | complete r =>
    rcases completeStep_next h with ⟨-, rfl⟩ | ⟨op, hp, hs, ht⟩
    · exact .disabled _
    · exact .completion r op t hp hs ht
  | tick n =>
    cases h
    by_cases hn : 1 ≤ n ∧ s.now.toNat + n < s.timeEnd
    · obtain ⟨hpos, hend⟩ := hn
      rw [clockStep_of_enabled hpos hend]
      exact .clock n hpos hend
    · rw [clockStep_of_disabled (by omega)]
      exact .disabled _
  | reset => cases h; exact .reset

/-- A step is one move, made on the same block (R11, R20). -/
theorem step_runAct {s t : State} (h : step s = .next t) : ∃ a s', s.SameBlock s' ∧ runAct a s' = .next t := by
  obtain ⟨-, ⟨a, rest, -, ht⟩ | ⟨-, ht⟩⟩ := step_next h
  · exact ⟨a, _, sameBlock_scheduled s rest, ht⟩
  · exact ⟨_, _, sameBlock_drew s 1, ht⟩

/-! ## What a move leaves alone -/

/-- A START on an idle block latches and then sets at most ST, DONE and ERR: XCOUNT is 0 whatever the checks say (R200, R201). -/
theorem accept_frame (s : State) :
    s.accept = { s.latched with st := s.accept.st, done := s.accept.done, err := s.accept.err } := by
  rcases accept_cases s with ⟨-, h⟩ | ⟨-, h⟩ | ⟨e, -, h⟩ <;> rw [h] <;> rfl

/-- What no instruction changes, but by issuing a request: the lines, the counters of a running operation, NOW, the log and PEND. -/
theorem InstrEffect.frame {i : Instr} {s u : State} (h : InstrEffect i s u) :
    (∃ r, s.pend = none ∧ s.cannotIssue = none ∧ s.request = some r ∧ u = s.issued r) ∨
    u = { s with
      op := u.op, irqEn := u.irqEn, done := u.done, cmdrej := u.cmdrej, err := u.err, addr := u.addr, len := u.len
      throughput := u.throughput, xcount := u.xcount, data := u.data, frame := u.frame, flen := u.flen, txIdx := u.txIdx
      st := u.st, opl := u.opl, al := u.al, total := u.total, minDur := u.minDur, count := u.count } := by
  cases h with
  | issued r hp hc hr => exact .inl ⟨r, hp, hc, hr, rfl⟩
  | accepted op irqEn hs hi => right; rw [accept_frame]; rfl
  | nothing | register | status | control | dropped | stored | framed => exact .inr rfl

/-- While BUSY an instruction changes CTRL's and STATUS's fields, the three writable registers and FRAME, or issues a request: a
START is dropped and a DATA write too (R69, R201). -/
theorem InstrEffect.frame_busy {i : Instr} {s u : State} (h : InstrEffect i s u) (hb : s.st ≠ .idle) :
    u = { s with
      op := u.op, irqEn := u.irqEn, done := u.done, cmdrej := u.cmdrej, addr := u.addr, len := u.len
      throughput := u.throughput, frame := u.frame, flen := u.flen, txIdx := u.txIdx, pend := u.pend, log := u.log } := by
  cases h with
  | accepted op irqEn hs => exact absurd hs hb
  | stored a bytes hs => exact absurd hs hb
  | nothing | register | status | control | dropped | framed | issued => rfl

/-- What CHUNK changes (R208). -/
theorem chunkStep_frame {s t : State} (h : chunkStep s = .next t) :
    t = { s with
      frame := t.frame, flen := t.flen, txIdx := t.txIdx, st := .clear, csize := t.csize, tStart := t.tStart
      draws := t.draws } := by
  have key : ∀ bs u, ((fillFrame bs u).goto .clear) = { u with
      frame := (fillFrame bs u).frame, flen := (fillFrame bs u).flen, txIdx := (fillFrame bs u).txIdx, st := .clear
      draws := (fillFrame bs u).draws } := by
    intro bs u
    rcases fillFrame_cases bs u with ⟨-, e⟩ | ⟨-, e⟩ <;> rw [e] <;> rfl
  rcases chunkStep_next h with ⟨-, -, rfl⟩ | ⟨-, -, -, rfl⟩ | ⟨-, -, rfl⟩ <;> rw [key] <;> rfl

/-- What PACE's exit changes (R214). -/
theorem afterPace_frame (s : State) :
    s.afterPace = { s with
      st := s.afterPace.st, xcount := s.afterPace.xcount, err := s.afterPace.err, done := s.afterPace.done } := by
  unfold State.afterPace
  split_ifs <;> rfl

theorem afterPace_st_ne (s : State) : s.afterPace.st ≠ .pace := by
  unfold State.afterPace
  split_ifs <;> exact nofun

theorem onZeroRead_frame (s : State) :
    onZeroRead s = { s with
      zeroCnt := (onZeroRead s).zeroCnt, st := (onZeroRead s).st, err := (onZeroRead s).err
      done := (onZeroRead s).done } := by
  unfold onZeroRead
  simp only
  split_ifs <;> rfl

theorem received_frame (s : State) (n : Word) :
    s.received n = { s with
      rxIdx := (s.received n).rxIdx, zeroCnt := (s.received n).zeroCnt, count := (s.received n).count
      st := (s.received n).st } := by
  unfold State.received
  simp only
  split_ifs <;> rfl

/-- The "on" clauses (R154 to R167) change the lines, DATA, the counters, ST, DONE and ERR, and XCOUNT only where a TEST succeeds (R165,
R241). -/
theorem onResp_cases {r : Resp} {s t : State} (h : onResp r s = .next t) :
    t = { s with
      done := t.done, err := t.err, dtr := t.dtr, rts := t.rts, data := t.data, txIdx := t.txIdx, st := t.st
      count := t.count, rxIdx := t.rxIdx, zeroCnt := t.zeroCnt } ∨
    (s.opl = 0 ∧ ∃ bytes v, t = (s.stored 0 bytes).finish v) := by
  rcases onResp_next h with ⟨-, rfl⟩ | ⟨-, rfl⟩ | ⟨-, rfl⟩ | ⟨-, rfl⟩ | ⟨-, -, rfl⟩ | ⟨-, rfl⟩ | ⟨-, rfl⟩ | ⟨-, hoff⟩ |
    ⟨-, rfl⟩ | ⟨-, -, hread⟩
  · exact .inl rfl
  · exact .inl rfl
  · exact .inl rfl
  · exact .inl rfl
  · exact .inl rfl
  · exact .inl rfl
  · exact .inl rfl
  · rcases onDtrOff_next hoff with ⟨-, rfl⟩ | ⟨-, rfl⟩ | ⟨-, rfl⟩ <;> exact .inl rfl
  · exact .inl rfl
  · rcases onRead_next hread with ⟨-, -, rfl⟩ | ⟨-, -, -, rfl⟩ | ⟨hop, -, rfl⟩
    · left; rw [onZeroRead_frame]
    · left; rw [received_frame]; rfl
    · exact .inr ⟨hop, _, _, rfl⟩

/-- What the "on" clauses leave alone: FRAME, the latched copies, PEND, NOW and the log (R154 to R167). -/
theorem onResp_frame {r : Resp} {s t : State} (h : onResp r s = .next t) :
    t = { s with
      done := t.done, err := t.err, xcount := t.xcount, dtr := t.dtr, rts := t.rts, data := t.data, txIdx := t.txIdx
      st := t.st, count := t.count, rxIdx := t.rxIdx, zeroCnt := t.zeroCnt } := by
  rcases onResp_cases h with hframe | ⟨-, bytes, v, rfl⟩
  · rw [hframe]
  · rfl

end Sys2Proof.Machine
end

section
/-!
PROOFS, family 10_state.md: the invariant. One lemma for each kind of update says what keeps the invariant under it; the moves are
assembled from them.
-/

namespace Sys2Proof.Machine

/-! ## What the parts of the invariant say of a state -/

theorem busy_of_inTransaction {s : State} (h : s.st.inTransaction = true) : s.busy = true :=
  busy_of_not_idle fun e => by simp [e, St.inTransaction] at h

theorem St.used_of_inTransaction {x : St} (h : x.inTransaction = true) : x.isUnused = false := by
  cases x <;> first | rfl | cases h

/-- A transport state is a state of a transaction (R30, R153). -/
theorem St.inTransaction_of_op {x : St} {op : TOp} (h : x.op = some op) : x.inTransaction = true := by
  cases x <;> first | rfl | cases h

theorem State.Inv.used {s : State} (h : s.Inv) : s.st.isUnused = false := by
  obtain ⟨hused, -⟩ := h.port
  exact hused

/-- Outside the transport states nothing is outstanding (R49). -/
theorem State.Inv.pend_none {s : State} (h : s.Inv) (ho : s.st.op = none) : s.pend = none := by
  obtain ⟨-, hp | hp⟩ := h.port
  · exact hp
  · exact hp.trans ho

/-- The chunk that a transaction moves is not empty, at most CHUNK_MAX and in the request (R208, R209). -/
theorem State.Inv.chunk_range {s : State} (h : s.Inv) (hop : s.opl = 1 ∨ s.opl = 2) (hs : s.st.inTransaction = true) :
    1 ≤ s.csize.toNat ∧ s.csize.toNat ≤ s.params.chunkMax ∧ s.count.toNat + s.csize.toNat ≤ s.total.toNat := by
  obtain ⟨-, -, hchunk⟩ := h.chunk hop
  exact hchunk hs

/-- While BUSY the operation is TEST, READ or WRITE (R201). -/
theorem State.Inv.opl_cases {s : State} (h : s.Inv) (hb : s.busy = true) : s.opl = 0 ∨ s.opl = 1 ∨ s.opl = 2 := by
  obtain ⟨h0, -⟩ | ⟨hop, -⟩ := h.request hb
  · exact .inl h0
  · exact .inr hop

/-- A READ's or a WRITE's request lies in the buffer and in the device's address space (R204, R205). -/
theorem State.Inv.transfer_range {s : State} (h : s.Inv) (hb : s.busy = true) (hop : s.opl = 1 ∨ s.opl = 2) :
    s.total.toNat ≤ s.params.bufBytes ∧ s.al.toNat + s.total.toNat ≤ 2 ^ 32 := by
  obtain ⟨h0, -⟩ | ⟨-, -, hbuf, haddr⟩ := h.request hb
  · rw [h0] at hop
    exact absurd hop (by decide)
  · exact ⟨hbuf, haddr⟩

/-- A TEST's length is at most TEST_MAX (R203). -/
theorem State.Inv.test_range {s : State} (h : s.Inv) (hb : s.busy = true) (hop : s.opl = 0) :
    s.total.toNat ≤ s.params.testMax := by
  obtain ⟨-, hmax⟩ | ⟨hop', -⟩ := h.request hb
  · exact hmax
  · rw [hop] at hop'
    exact absurd hop' (by decide)

/-- Once DTR_OFF is done both lines are low (R159, R160). -/
theorem State.Inv.lines_low {s : State} (h : s.Inv) (hs : s.st = .waitC ∨ s.st = .rx ∨ s.st = .pace) :
    s.dtr = false ∧ s.rts = false := by
  obtain ⟨-, hlow⟩ := h.lines
  exact hlow hs

/-- In the receive loop of a READ bytes of the chunk are missing, and the zero reads are within ZERO_LIMIT (R163, R164). -/
theorem State.Inv.rx_range {s : State} (h : s.Inv) (hs : s.st = .rx) (hop : s.opl = 1) :
    s.rxIdx.toNat < s.csize.toNat ∧ s.zeroCnt.toNat ≤ s.params.zeroLimit := by
  obtain ⟨-, hloop⟩ := h.rx
  exact hloop hs hop

/-! ## Updates of the environment, the request and single registers -/

/-- The invariant speaks of the block only. -/
theorem State.Inv.of_sameBlock {s t : State} (h : s.Inv) (hsame : s.SameBlock t) : t.Inv := by
  rw [hsame]
  exact { h with }

theorem State.Inv.settled {s : State} (h : s.Inv) (e : Event) : ((s.logged e).settled).Inv :=
  { h with port := ⟨h.used, .inl rfl⟩ }

theorem State.Inv.issued {s : State} {r : Req} (h : s.Inv) (hr : s.request = some r) : (s.issued r).Inv :=
  { h with port := ⟨h.used, .inr (request_op hr).symm⟩ }

theorem State.Inv.withLines {s : State} {dtr rts : Bool} (h : s.Inv)
    (hlines : ({ s with dtr := dtr, rts := rts } : State).GoodLines) : ({ s with dtr := dtr, rts := rts } : State).Inv :=
  { h with lines := hlines }

theorem State.Inv.withRx {s : State} {i : Word} {z : BitVec 8} (h : s.Inv)
    (hrx : ({ s with rxIdx := i, zeroCnt := z } : State).GoodRx) : ({ s with rxIdx := i, zeroCnt := z } : State).Inv :=
  { h with rx := hrx }

theorem State.Inv.withTxIdx {s : State} {i : BitVec 8} (h : s.Inv) (hi : i.toNat ≤ s.flen.toNat)
    (hsend : s.st.sending = true → i.toNat < s.flen.toNat) : ({ s with txIdx := i } : State).Inv := by
  obtain ⟨hlen, -, hframe⟩ := h.frame
  refine { h with frame := ⟨hlen, hi, fun hs => ?_⟩ }
  obtain ⟨hchunk, -, hmax⟩ := hframe hs
  exact ⟨hchunk, hsend hs, hmax⟩

/-- A frame that is not the transaction's may stand in FRAME while none is being sent (R34). -/
theorem State.Inv.withFrame {s : State} {frame : List Byte} {flen : BitVec 8} (h : s.Inv) (hs : s.st.sending = false)
    (hf : frame.length = flen.toNat) : ({ s with frame := frame, flen := flen, txIdx := 0 } : State).Inv :=
  { h with frame := ⟨hf, Nat.zero_le _, fun hsend => absurd (hs.symm.trans hsend) (by decide)⟩ }

/-- Bytes stored inside the buffer, while no frame carries bytes of DATA (R33). -/
theorem State.Inv.stored {s : State} {a : Nat} {bytes : List Byte} (h : s.Inv) (hs : s.st.sending = false)
    (ha : a + bytes.length ≤ s.params.bufBytes) : (s.stored a bytes).Inv := by
  obtain ⟨hwf, hbelow⟩ := h.data
  obtain ⟨hlen, hidx, -⟩ := h.frame
  exact { h with
    data := ⟨Memory.wf_setMany a bytes hwf, Memory.below_setMany a bytes hbelow ha⟩
    frame := ⟨hlen, hidx, fun hsend => absurd (hs.symm.trans hsend) (by decide)⟩ }

/-! ## Updates of ST -/

/-- An operation ends, with whatever outcome: an idle block owes nothing to the request (R241, R242). -/
theorem State.Inv.ended {s : State} {done : Bool} {err : ErrCode} {xcount : Word} (h : s.Inv) (hp : s.pend = none) :
    ({ s with done := done, err := err, xcount := xcount, st := .idle } : State).Inv := by
  obtain ⟨hlen, hidx, -⟩ := h.frame
  obtain ⟨hzero, -⟩ := h.rx
  exact { h with
    port := ⟨rfl, .inl hp⟩
    status := nofun
    request := nofun
    chunk := fun _ => ⟨nofun, nofun, nofun⟩
    path := ⟨nofun, nofun, nofun⟩
    frame := ⟨hlen, hidx, nofun⟩
    lines := ⟨nofun, by simp⟩
    rx := ⟨hzero, nofun⟩ }

theorem State.Inv.finish {s : State} (h : s.Inv) (hp : s.pend = none) (v : Word) : (s.finish v).Inv := h.ended hp

theorem State.Inv.raiseError {s : State} (h : s.Inv) (hp : s.pend = none) (e : ErrCode) : (s.raiseError e).Inv := h.ended hp

/-- From one state of a transaction to another (R153): only what the target itself asks for is new. -/
theorem State.Inv.goto {s : State} {x : St} (h : s.Inv) (hp : s.pend = none) (hs : s.st.inTransaction = true)
    (hx : x.inTransaction = true) (hsend : x.sending = true → s.st.sending = true) (hpath : (s.goto x).GoodPath)
    (hlines : (s.goto x).GoodLines) (hrx : (s.goto x).GoodRx) : (s.goto x).Inv := by
  have hbusy := busy_of_inTransaction hs
  obtain ⟨hlen, hidx, hframe⟩ := h.frame
  exact { h with
    port := ⟨St.used_of_inTransaction hx, .inl hp⟩
    status := fun _ => h.status hbusy
    request := fun _ => h.request hbusy
    chunk := fun hop => ⟨fun e : x = .chunk => by simp [e, St.inTransaction] at hx,
      fun e : x = .pace => by simp [e, St.inTransaction] at hx, fun _ => h.chunk_range hop hs⟩
    path := hpath
    frame := ⟨hlen, hidx, fun hsx => hframe (hsend hsx)⟩
    lines := hlines
    rx := hrx }

/-- Before DTR_OFF a state of a transaction asks nothing of the lines, of the operation or of the receive loop. -/
theorem State.Inv.gotoEarly {s : State} {x : St} (h : s.Inv) (hp : s.pend = none) (hs : s.st.inTransaction = true)
    (hx : x ∈ [St.dtrOn, .rtsOn, .tx, .flush, .rtsOff]) (hsend : x.sending = true → s.st.sending = true) :
    (s.goto x).Inv := by
  obtain ⟨hzero, -⟩ := h.rx
  simp only [List.mem_cons, List.not_mem_nil, or_false] at hx
  rcases hx with rfl | rfl | rfl | rfl | rfl
  all_goals exact h.goto hp hs rfl hsend ⟨nofun, nofun, nofun⟩ ⟨nofun, by simp⟩ ⟨hzero, nofun⟩

/-- The chunk is done: COUNT moves past it and PACE begins (R212). -/
theorem State.Inv.chunkEnd {s : State} (h : s.Inv) (hp : s.pend = none) (hs : s.st.inTransaction = true)
    (hop : s.opl = 1 ∨ s.opl = 2) (hlines : s.dtr = false ∧ s.rts = false) : s.chunkEnd.Inv := by
  have hbusy := busy_of_inTransaction hs
  obtain ⟨hlen, hidx, -⟩ := h.frame
  obtain ⟨hzero, -⟩ := h.rx
  obtain ⟨-, -, hrange⟩ := h.chunk_range hop hs
  have hcount : (s.count + s.csize).toNat ≤ s.total.toNat := by
    rw [BitVec.toNat_add]
    exact (Nat.mod_le _ _).trans hrange
  exact { h with
    port := ⟨rfl, .inl hp⟩
    status := fun _ => h.status hbusy
    request := fun _ => h.request hbusy
    chunk := fun _ => ⟨nofun, fun _ => hcount, nofun⟩
    path := ⟨nofun, nofun, fun _ => hop⟩
    frame := ⟨hlen, hidx, nofun⟩
    lines := ⟨nofun, fun _ => hlines⟩
    rx := ⟨hzero, nofun⟩ }

/-- PACE's exit (R214). -/
theorem State.Inv.afterPace {s : State} (h : s.Inv) (hs : s.st = .pace) : s.afterPace.Inv := by
  have hbusy : s.busy = true := busy_of_not_idle (by rw [hs]; decide)
  have hp : s.pend = none := h.pend_none (by rw [hs]; rfl)
  obtain ⟨hlen, hidx, -⟩ := h.frame
  obtain ⟨hzero, -⟩ := h.rx
  unfold State.afterPace
  split_ifs with hmore
  · exact { h with
      port := ⟨rfl, .inl hp⟩
      status := fun _ => h.status hbusy
      request := fun _ => h.request hbusy
      chunk := fun _ => ⟨fun _ => hmore, nofun, nofun⟩
      path := ⟨nofun, nofun, nofun⟩
      frame := ⟨hlen, hidx, nofun⟩
      lines := ⟨nofun, by simp⟩
      rx := ⟨hzero, nofun⟩ }
  · exact h.finish hp _

/-! ## START -/

/-- On an idle block the latch touches nothing that the invariant asks for (R200). -/
theorem State.Inv.latched {s : State} (h : s.Inv) (hs : s.st = .idle) : s.latched.Inv := by
  have hpend : s.pend = none := h.pend_none (by rw [hs]; rfl)
  have he : s.latched = { s.latched with done := false, err := .none, xcount := 0, st := .idle } := by
    rw [← hs]; rfl
  rw [he]
  obtain ⟨hlen, hidx, -⟩ := h.frame
  obtain ⟨hzero, -⟩ := h.rx
  exact { h with
    port := ⟨rfl, .inl hpend⟩
    status := nofun
    request := nofun
    chunk := fun _ => ⟨nofun, nofun, nofun⟩
    path := ⟨nofun, nofun, nofun⟩
    frame := ⟨hlen, hidx, nofun⟩
    lines := ⟨nofun, by simp⟩
    rx := ⟨hzero, nofun⟩ }

/-- What the acceptance checks establish (R201, R203 to R205). -/
theorem goodRequest_of_go {s : State} (hwf : s.params.wf)
    (hgo : startCheck s.params s.op s.addr s.len s.throughput = .go) : (s.latched.goto .chunk).GoodRequest := by
  intro _
  obtain ⟨-, -, -, -, -, -, haddrW, -, -⟩ := hwf
  have hspace : 2 ^ s.params.addrW ≤ 2 ^ 32 := Nat.pow_le_pow_right (by decide) haddrW
  rcases startCheck_go hgo with ⟨hop, hlen⟩ | ⟨hop, hlen, hbuf, haddr, -⟩
  · exact .inl ⟨hop, hlen⟩
  · have hpos : s.len.toNat ≠ 0 := fun e => hlen (BitVec.eq_of_toNat_eq e)
    exact .inr ⟨hop, Nat.pos_of_ne_zero hpos, hbuf, haddr.trans hspace⟩

/-- An accepted START leads to a good state whatever the checks say (R201). -/
theorem State.Inv.accept {s : State} (h : s.Inv) (hs : s.st = .idle) : s.accept.Inv := by
  have hl := h.latched hs
  have hpend : s.latched.pend = none := h.pend_none (by rw [hs]; rfl)
  rcases accept_cases s with ⟨hgo, e⟩ | ⟨-, e⟩ | ⟨code, -, e⟩
  · rw [e]
    have hreq := goodRequest_of_go h.params hgo
    obtain ⟨hlen, hidx, -⟩ := h.frame
    obtain ⟨hzero, -⟩ := h.rx
    refine { h with
      port := ⟨rfl, .inl hpend⟩
      status := fun _ => ⟨rfl, rfl, rfl⟩
      request := hreq
      chunk := fun hop => ⟨fun _ => ?_, nofun, nofun⟩
      path := ⟨nofun, nofun, nofun⟩
      frame := ⟨hlen, hidx, nofun⟩
      lines := ⟨nofun, by simp⟩
      rx := ⟨hzero, nofun⟩ }
    rcases hreq rfl with ⟨h0, -⟩ | ⟨-, hpos, -⟩
    · rw [h0] at hop
      exact absurd hop (by decide)
    · exact hpos
  · rw [e]; exact hl.finish hpend 0
  · rw [e]; exact hl.raiseError hpend code

/-- Every effect of an instruction keeps the invariant. -/
theorem State.Inv.instrEffect {i : Instr} {s u : State} (h : s.Inv) (hu : InstrEffect i s u) : u.Inv := by
  cases hu with
  | nothing => exact h
  | register addr len throughput => exact { h with }
  | status done cmdrej =>
    refine { h with status := fun hb => ?_ }
    obtain ⟨hdone, herr, hx⟩ := h.status hb
    exact ⟨by simp [hdone], herr, hx⟩
  | control op irqEn => exact { h with }
  | dropped op irqEn hs => exact { h with }
  | accepted op irqEn hs =>
    have hctrl : ({ s with op := op, irqEn := irqEn } : State).Inv := { h with }
    exact hctrl.accept hs
  | stored a bytes hs ha => exact h.stored (by rw [hs]; rfl) ha
  | framed frame flen hs hf => exact h.withFrame hs (hf h.params)
  | issued r hp hc hr => exact h.issued hr

/-! ## CHUNK -/

theorem chunkSize_toNat {s : State} (h : s.params.wf) : (BitVec.ofNat 32 s.chunkSize).toNat = s.chunkSize := by
  obtain ⟨-, hmax, -⟩ := h
  have hle : s.chunkSize ≤ s.params.chunkMax := Nat.min_le_right _ _
  rw [BitVec.toNat_ofNat, Nat.mod_eq_of_lt (by omega)]

/-- The size of a chunk, while bytes are left (R208). -/
theorem chunkSize_range {s : State} (hwf : s.params.wf) (hmore : s.count.toNat < s.total.toNat) :
    1 ≤ s.chunkSize ∧ s.chunkSize ≤ s.params.chunkMax ∧ s.count.toNat + s.chunkSize ≤ s.total.toNat := by
  obtain ⟨hpos, -⟩ := hwf
  unfold State.chunkSize
  omega

theorem encWrite_drop (a : Word) (p : List Byte) : (encWrite a p).drop 10 = p := List.drop_left' (by simp)

theorem encTest_drop (p : List Byte) : (encTest p).drop 6 = p := List.drop_left' (by simp)

/-- MemRead carries each defined byte in its place (R10, R208, assumption 4). -/
theorem dataBytes_carries (m : Memory) (d a : Nat) {n j : Nat} (hj : j < n) :
    m.get (a + j) = none ∨ m.get (a + j) = (dataBytes m d a n)[j]? := by
  rw [dataBytes_getElem? m d a n j hj, dataByte]
  cases m.get (a + j) with
  | none => exact .inl rfl
  | some b => exact .inr rfl

/-- CHUNK begins to send a frame `bs` of its chunk of `c` bytes (R208). -/
theorem State.Inv.sending {s : State} {bs : List Byte} {c : Word} {ts : Time} (h : s.Inv) (hs : s.st = .chunk)
    (hts : ts.toNat ≤ s.now.toNat)
    (hc : s.opl = 1 ∨ s.opl = 2 →
      1 ≤ c.toNat ∧ c.toNat ≤ s.params.chunkMax ∧ s.count.toNat + c.toNat ≤ s.total.toNat)
    (hpos : 0 < bs.length) (hmax : bs.length ≤ s.params.frameMax)
    (hframe : ({ s with frame := bs, csize := c } : State).FrameOfChunk) :
    ({ s.framed bs with st := .clear, csize := c, tStart := ts } : State).Inv := by
  have hbusy : s.busy = true := busy_of_not_idle (by rw [hs]; decide)
  have hlen : (BitVec.ofNat 8 bs.length).toNat = bs.length := by
    have := Params.frameMax_lt h.params
    rw [BitVec.toNat_ofNat, Nat.mod_eq_of_lt (by omega)]
  obtain ⟨hzero, -⟩ := h.rx
  exact { h with
    port := ⟨rfl, .inl (h.pend_none (by rw [hs]; rfl))⟩
    status := fun _ => h.status hbusy
    time := hts
    request := fun _ => h.request hbusy
    chunk := fun hop => ⟨nofun, nofun, fun _ => hc hop⟩
    path := ⟨nofun, nofun, nofun⟩
    frame := ⟨hlen.symm, Nat.zero_le _, fun _ => ⟨hframe, hlen.symm ▸ hpos, hlen.symm ▸ hmax⟩⟩
    lines := ⟨nofun, by simp⟩
    rx := ⟨hzero, nofun⟩ }

/-- CHUNK of a READ (R208, R209). -/
theorem State.Inv.chunkRead {s : State} (h : s.Inv) (hs : s.st = .chunk) (hop : s.opl = 1)
    (hmore : s.count.toNat < s.total.toNat) :
    ((fillFrame (encRead (s.al + s.count) (BitVec.ofNat 32 s.chunkSize)) s.chunkBegun).goto .clear).Inv := by
  have hfit : (encRead (s.al + s.count) (BitVec.ofNat 32 s.chunkSize)).length ≤ s.params.frameMax := by
    rw [encRead_length]
    exact Nat.le_add_right 10 _
  rw [fillFrame_of_fits (s := s.chunkBegun) hfit]
  refine h.sending (c := BitVec.ofNat 32 s.chunkSize) hs (le_refl s.now.toNat) (fun _ => ?_)
    (by rw [encRead_length]; decide) hfit ⟨fun _ => rfl, fun e => ?_, fun e => ?_⟩
  · rw [chunkSize_toNat h.params]
    exact chunkSize_range h.params hmore
  · exact absurd (hop.symm.trans e) (by decide)
  · exact absurd (hop.symm.trans e) (by decide)

/-- CHUNK of a WRITE: the frame carries the chunk's bytes of DATA (R208, R210). -/
theorem State.Inv.chunkWrite {s : State} (h : s.Inv) (hs : s.st = .chunk) (hop : s.opl = 2)
    (hmore : s.count.toNat < s.total.toNat) :
    ((fillFrame (encWrite (s.al + s.count) (dataBytes s.data s.draws s.count.toNat s.chunkSize))
      (s.chunkBegun.drew s.chunkSize)).goto .clear).Inv := by
  have hrange := chunkSize_range h.params hmore
  have hsize := chunkSize_toNat h.params
  have hfit : (encWrite (s.al + s.count) (dataBytes s.data s.draws s.count.toNat s.chunkSize)).length ≤
      s.params.frameMax := by
    obtain ⟨-, hmax, -⟩ := hrange
    rw [encWrite_length, dataBytes_length]
    exact Nat.add_le_add_left hmax 10
  rw [fillFrame_of_fits (s := s.chunkBegun.drew s.chunkSize) hfit]
  refine (h.sending (c := BitVec.ofNat 32 s.chunkSize) hs (le_refl s.now.toNat) (fun _ => ?_)
    (by rw [encWrite_length]; omega) hfit ⟨fun e => ?_, fun _ => ?_, fun e => ?_⟩).of_sameBlock rfl
  · rw [hsize]
    exact hrange
  · exact absurd (hop.symm.trans e) (by decide)
  · simp only [encWrite_drop, dataBytes_length, hsize, State.FrameCarries, encWrite_payload, true_and]
    exact fun j hj => dataBytes_carries _ _ _ hj
  · exact absurd (hop.symm.trans e) (by decide)

/-- CHUNK of a TEST: the frame carries DATA[0..TOTAL] (R217). -/
theorem State.Inv.chunkTest {s : State} (h : s.Inv) (hs : s.st = .chunk) (hop : s.opl = 0) :
    ((fillFrame (encTest (dataBytes s.data s.draws 0 s.total.toNat))
      (State.drew { s with csize := s.total } s.total.toNat)).goto .clear).Inv := by
  have hmax : s.total.toNat ≤ s.params.chunkMax := h.test_range (busy_of_not_idle (by rw [hs]; decide)) hop
  have hfit : (encTest (dataBytes s.data s.draws 0 s.total.toNat)).length ≤ s.params.frameMax := by
    rw [encTest_length, dataBytes_length]
    exact Nat.add_le_add (by decide) hmax
  rw [fillFrame_of_fits (s := State.drew { s with csize := s.total } s.total.toNat) hfit]
  refine (h.sending (c := s.total) (ts := s.tStart) hs h.time (fun hop' => ?_)
    (by rw [encTest_length]; omega) hfit ⟨fun e => ?_, fun e => ?_, fun _ => ?_⟩).of_sameBlock rfl
  · rw [hop] at hop'
    exact absurd hop' (by decide)
  · exact absurd (hop.symm.trans e) (by decide)
  · exact absurd (hop.symm.trans e) (by decide)
  · simp only [encTest_drop, dataBytes_length, State.FrameCarries, encTest_payload, true_and]
    exact fun j hj => dataBytes_carries _ _ _ hj

theorem State.Inv.chunkStep {s t : State} (h : s.Inv) (hs : s.st = .chunk) (ht : chunkStep s = .next t) : t.Inv := by
  rcases chunkStep_next ht with ⟨hop, hmore, rfl⟩ | ⟨hop, hmore, -, rfl⟩ | ⟨hop, -, rfl⟩
  · exact h.chunkRead hs hop hmore
  · exact h.chunkWrite hs hop hmore
  · exact h.chunkTest hs hop

/-! ## Completions -/

/-- What TX still offers is what FRAME holds from TX_IDX on (R157). -/
theorem State.Inv.unsent_eq {s : State} (h : s.Inv) : s.unsent = s.frame.drop s.txIdx.toNat := by
  obtain ⟨hlen, -, -⟩ := h.frame
  rw [State.unsent, ← hlen, List.take_length]

theorem State.Inv.unsent_length {s : State} (h : s.Inv) : s.unsent.length = s.flen.toNat - s.txIdx.toNat := by
  obtain ⟨hlen, -, -⟩ := h.frame
  rw [h.unsent_eq, List.length_drop, hlen]

/-- An OK completion of TX moves TX_IDX inside the frame (R151, R157). -/
theorem State.Inv.txIdx_add {s : State} {r : Resp} (h : s.Inv) (hok : writeOk s.unsent.length r = true) :
    (s.txIdx + r.count.setWidth 8).toNat = s.txIdx.toNat + r.count.toNat ∧
      s.txIdx.toNat + r.count.toNat ≤ s.flen.toNat := by
  simp only [writeOk, h.unsent_length, Bool.and_eq_true, decide_eq_true_eq] at hok
  obtain ⟨-, hidx, -⟩ := h.frame
  have := s.flen.isLt
  simp only [BitVec.toNat_add, BitVec.toNat_setWidth]
  omega

/-- TX resumes after a write in part, and moves on once the frame is sent (R157). -/
theorem State.Inv.sent {s : State} {r : Resp} (h : s.Inv) (hp : s.pend = none) (hs : s.st = .tx)
    (hok : writeOk s.unsent.length r = true) : (s.sent r.count).Inv := by
  obtain ⟨hadd, hle⟩ := h.txIdx_add hok
  have htx : s.st.inTransaction = true := by rw [hs]; rfl
  unfold State.sent
  by_cases hall : s.txIdx + r.count.setWidth 8 = s.flen
  · simp only [if_pos hall]
    have hflush : (s.goto .flush).Inv := h.gotoEarly hp htx (by decide) nofun
    exact hflush.withTxIdx (by rw [hadd]; exact hle) nofun
  · simp only [if_neg hall]
    have hne : s.txIdx.toNat + r.count.toNat ≠ s.flen.toNat := fun e => hall (BitVec.eq_of_toNat_eq (hadd.trans e))
    have hidx := h.withTxIdx (hadd ▸ hle) fun _ => hadd ▸ Nat.lt_of_le_of_ne hle hne
    exact hidx.gotoEarly hp htx (by decide) fun _ => by rw [hs]; rfl

/-- DTR_OFF's completion leaves both lines low (R160); a READ waits for C, a WRITE's chunk is done, a TEST receives (R161, R165,
R166). -/
theorem State.Inv.onDtrOff {s t : State} (h : s.Inv) (hp : s.pend = none) (hs : s.st = .dtrOff)
    (ht : onDtrOff s = .next t) : t.Inv := by
  obtain ⟨hrts, -⟩ := h.lines
  obtain ⟨hzero, -⟩ := h.rx
  have htx : s.st.inTransaction = true := by rw [hs]; rfl
  have hlow : ({ s with dtr := false } : State).Inv := h.withLines ⟨hrts, fun _ => ⟨rfl, hrts hs⟩⟩
  rcases onDtrOff_next ht with ⟨hop, rfl⟩ | ⟨hop, rfl⟩ | ⟨hop, rfl⟩
  · exact hlow.goto hp htx rfl nofun ⟨fun _ => hop, nofun, nofun⟩ ⟨nofun, fun _ => ⟨rfl, hrts hs⟩⟩ ⟨hzero, nofun⟩
  · exact hlow.chunkEnd hp htx (.inr hop) ⟨rfl, hrts hs⟩
  · exact hlow.goto hp htx rfl nofun ⟨nofun, fun _ => .inr hop, nofun⟩ ⟨nofun, fun _ => ⟨rfl, hrts hs⟩⟩
      ⟨hzero, fun _ e => absurd (hop.symm.trans e) (by decide)⟩

/-- The receive-loop entry (R162). -/
theorem State.Inv.enterRx {s : State} (h : s.Inv) (hp : s.pend = none) (hs : s.st = .waitC) : s.enterRx.Inv := by
  obtain ⟨hwait, -, -⟩ := h.path
  have htx : s.st.inTransaction = true := by rw [hs]; rfl
  have hcleared : ({ s with rxIdx := 0, zeroCnt := 0 } : State).Inv :=
    h.withRx ⟨Nat.zero_le _, fun e => by rw [hs] at e; cases e⟩
  obtain ⟨hpos, -⟩ := h.chunk_range (.inl (hwait hs)) htx
  exact hcleared.goto hp htx rfl nofun ⟨nofun, fun _ => .inl (hwait hs), nofun⟩ ⟨nofun, fun _ => h.lines_low (.inl hs)⟩
    ⟨Nat.zero_le _, fun _ _ => ⟨hpos, Nat.zero_le _⟩⟩

/-- A zero read counts, or times out (R164). -/
theorem State.Inv.onZeroRead {s : State} (h : s.Inv) (hp : s.pend = none) (hs : s.st = .rx) (hop : s.opl = 1) :
    (onZeroRead s).Inv := by
  obtain ⟨hidx, hzero⟩ := h.rx_range hs hop
  obtain ⟨-, -, hlimit, -⟩ := h.params
  have hnext : (s.zeroCnt + 1).toNat = s.zeroCnt.toNat + 1 := by
    rw [BitVec.toNat_add]
    exact Nat.mod_eq_of_lt (show s.zeroCnt.toNat + 1 < 2 ^ 8 by omega)
  have hle : (s.zeroCnt + 1).toNat ≤ s.params.zeroLimit + 1 := by omega
  unfold Machine.onZeroRead
  by_cases hout : s.params.zeroLimit < (s.zeroCnt + 1).toNat
  · simp only [if_pos hout]
    exact (h.raiseError hp .timedOut).withRx ⟨hle, nofun⟩
  · simp only [if_neg hout]
    have hcounted : ({ s with zeroCnt := s.zeroCnt + 1 } : State).Inv :=
      h.withRx ⟨hle, fun _ _ => ⟨hidx, Nat.not_lt.mp hout⟩⟩
    exact hcounted.goto hp (by rw [hs]; rfl) rfl nofun ⟨nofun, fun _ => .inl hop, nofun⟩
      ⟨nofun, fun _ => h.lines_low (.inr (.inl hs))⟩ ⟨hle, fun _ _ => ⟨hidx, Nat.not_lt.mp hout⟩⟩

/-- `max` of a READ's RX: what is left of the chunk (R163). -/
theorem State.Inv.rxMax_toNat {s : State} (h : s.Inv) (hs : s.st = .rx) (hop : s.opl = 1) :
    s.rxMax.toNat = s.csize.toNat - s.rxIdx.toNat := by
  obtain ⟨hidx, -⟩ := h.rx_range hs hop
  rw [State.rxMax, if_pos hop, BitVec.toNat_sub_of_le (BitVec.le_def.mpr hidx.le)]

/-- Received bytes move RX_IDX inside the chunk, and end it when it is whole (R163). -/
theorem State.Inv.received {s : State} {n : Word} (h : s.Inv) (hp : s.pend = none) (hs : s.st = .rx) (hop : s.opl = 1)
    (hn : n.toNat ≤ s.rxMax.toNat) : (s.received n).Inv := by
  rw [h.rxMax_toNat hs hop] at hn
  obtain ⟨hidx, -⟩ := h.rx_range hs hop
  have htx : s.st.inTransaction = true := by rw [hs]; rfl
  have hlow : s.dtr = false ∧ s.rts = false := h.lines_low (.inr (.inl hs))
  have hadd : (s.rxIdx + n).toNat = s.rxIdx.toNat + n.toNat := by
    have := s.csize.isLt
    rw [BitVec.toNat_add, Nat.mod_eq_of_lt (by omega)]
  unfold State.received
  by_cases hall : s.rxIdx + n = s.csize
  · simp only [if_pos hall]
    exact (h.chunkEnd hp htx (.inl hop) hlow).withRx ⟨Nat.zero_le _, nofun⟩
  · simp only [if_neg hall]
    have hne : (s.rxIdx + n).toNat ≠ s.csize.toNat := fun e => hall (BitVec.eq_of_toNat_eq e)
    have hin : (s.rxIdx + n).toNat < s.csize.toNat := by omega
    have hmoved : ({ s with rxIdx := s.rxIdx + n, zeroCnt := 0 } : State).Inv :=
      h.withRx ⟨Nat.zero_le _, fun _ _ => ⟨hin, Nat.zero_le _⟩⟩
    exact hmoved.goto hp htx rfl nofun ⟨nofun, fun _ => .inl hop, nofun⟩ ⟨nofun, fun _ => hlow⟩
      ⟨Nat.zero_le _, fun _ _ => ⟨hin, Nat.zero_le _⟩⟩

theorem readOk_iff {max : Word} {r : Resp} :
    readOk max r = true ↔ r.ok = true ∧ r.count.toNat ≤ max.toNat ∧ r.bytes.length = r.count.toNat := by
  simp only [readOk, Bool.and_eq_true, decide_eq_true_eq, and_assoc]

/-- An OK completion of RX (R163 to R165). -/
theorem State.Inv.onRead {s t : State} {r : Resp} (h : s.Inv) (hp : s.pend = none) (hs : s.st = .rx)
    (hok : readOk s.rxMax r = true) (ht : onRead r s = .next t) : t.Inv := by
  obtain ⟨-, hcount, -⟩ := readOk_iff.mp hok
  have hsend : s.st.sending = false := by rw [hs]; rfl
  rcases onRead_next ht with ⟨hop, -, rfl⟩ | ⟨hop, -, hfit, rfl⟩ | ⟨hop, hfit, rfl⟩
  · exact h.onZeroRead hp hs hop
  · exact (h.stored hsend hfit).received hp hs hop hcount
  · exact (h.stored hsend (by rw [Nat.zero_add]; exact hfit)).finish hp _

/-- The "on" clause of each state keeps the invariant (R154 to R167). -/
theorem State.Inv.onResp {s t : State} {r : Resp} (h : s.Inv) (hp : s.pend = none) (htx : s.st.inTransaction = true)
    (ht : onResp r s = .next t) : t.Inv := by
  obtain ⟨hzero, -⟩ := h.rx
  rcases onResp_next ht with ⟨-, rfl⟩ | ⟨hs, rfl⟩ | ⟨hs, rfl⟩ | ⟨hs, rfl⟩ | ⟨hs, hok, rfl⟩ | ⟨hs, rfl⟩ | ⟨hs, rfl⟩ |
    ⟨hs, hoff⟩ | ⟨hs, rfl⟩ | ⟨hs, hok, hread⟩
  · exact h.raiseError hp .io
  · exact h.gotoEarly hp htx (by decide) fun _ => by rw [hs]; rfl
  · have hdtr : ({ s with dtr := true } : State).Inv := h.withLines (by simp [State.GoodLines, hs])
    exact hdtr.gotoEarly hp htx (by decide) fun _ => by rw [hs]; rfl
  · have hrts : ({ s with rts := true } : State).Inv := h.withLines (by simp [State.GoodLines, hs])
    exact hrts.gotoEarly hp htx (by decide) fun _ => by rw [hs]; rfl
  · exact h.sent hp hs hok
  · exact h.gotoEarly hp htx (by decide) nofun
  · have hrts : ({ s with rts := false } : State).Inv := h.withLines (by simp [State.GoodLines, hs])
    exact hrts.goto hp htx rfl nofun ⟨nofun, nofun, nofun⟩ ⟨fun _ => rfl, by simp⟩ ⟨hzero, nofun⟩
  · exact h.onDtrOff hp hs hoff
  · exact h.enterRx hp hs
  · exact h.onRead hp hs hok hread

/-! ## The clock, reset, and every move -/

/-- NOW holds what an enabled clock step counts to (R22). -/
theorem clock_toNat {s : State} {n : Nat} (hend : s.now.toNat + n < s.timeEnd) :
    (BitVec.ofNat 64 (s.now.toNat + n)).toNat = s.now.toNat + n := by
  have hmax : s.timeEnd ≤ 2 ^ 64 := Nat.pow_le_pow_right (by decide) (Nat.min_le_right _ _)
  rw [BitVec.toNat_ofNat, Nat.mod_eq_of_lt (by omega)]

/-- With legal parameters the reset values are good, whatever the environment is (R50, R272). -/
theorem inv_resetStep {s : State} (hwf : s.params.wf) : (resetStep s).Inv where
  params := hwf
  data := ⟨rfl, rfl⟩
  port := ⟨rfl, .inl rfl⟩
  status := nofun
  time := Nat.zero_le _
  request := nofun
  chunk := fun _ => ⟨nofun, nofun, nofun⟩
  path := ⟨nofun, nofun, nofun⟩
  frame := ⟨rfl, Nat.zero_le _, nofun⟩
  lines := ⟨nofun, fun _ => ⟨rfl, rfl⟩⟩
  rx := ⟨Nat.zero_le _, nofun⟩

theorem State.Inv.moveEffect {a : Act} {s t : State} (h : s.Inv) (ht : MoveEffect s a t) : t.Inv := by
  cases ht with
  | disabled => exact h
  | judged _ hsame => exact h.of_sameBlock hsame
  | instr c rest i _ hprog hdec heff =>
    obtain ⟨u, hu, hsame⟩ := heff
    exact ((h.of_sameBlock (sameBlock_advanced s c rest)).instrEffect hu).of_sameBlock hsame
  | chunk _ hs ht => exact h.chunkStep hs ht
  | paced hs hp => exact h.afterPace hs
  | issue r hp hc hr => exact h.issued hr
  | completion r op _ hp hs ht => exact (h.settled _).onResp rfl (St.inTransaction_of_op hs) ht
  | clock n hn hend =>
    exact { h with time := (h.time.trans (Nat.le_add_right _ n)).trans_eq (clock_toNat hend).symm }
  | reset => exact inv_resetStep h.params

/-- Settles O51: a step is one move on the same block, every move has one of the effects of `MoveEffect`, and each of them
keeps the invariant. -/
theorem everyStepKeepsTheInvariant : Obligations.EveryStepKeepsTheInvariant := by
  unfold Obligations.EveryStepKeepsTheInvariant
  intro s t h hstep
  obtain ⟨a, s', hsame, hmove⟩ := step_runAct hstep
  exact (h.of_sameBlock hsame).moveEffect (runAct_effect hmove)

/-- Settles O50: the reset values are good with this hardware's parameters. -/
theorem goodAtReset : Obligations.GoodAtReset := by
  unfold Obligations.GoodAtReset
  have hreset : (resetStep State.reset).Inv := inv_resetStep (by decide)
  exact { hreset with }

end Sys2Proof.Machine
end

section
/-!
PROOFS, family 10_state.md: the rules of the whole machine. Each is read off the effects of the moves and their frame equations.
-/

namespace Sys2Proof.Machine

/-! ## NOW (R22) -/

theorem InstrEffect.now_eq {i : Instr} {s u : State} (h : InstrEffect i s u) : u.now = s.now := by
  rcases h.frame with ⟨r, -, -, -, rfl⟩ | hframe
  · rfl
  · rw [hframe]

/-- Only the clock changes NOW, by what it counts. -/
theorem MoveEffect.now_cases {a : Act} {s t : State} (h : MoveEffect s a t) :
    t.now = s.now ∨ ∃ n, a = .tick n ∧ 1 ≤ n ∧ t.now.toNat = s.now.toNat + n := by
  cases h with
  | disabled => exact .inl rfl
  | judged _ hsame => exact .inl hsame.now_eq
  | instr c rest i _ hprog hdec heff =>
    obtain ⟨u, hu, hsame⟩ := heff
    exact .inl (hsame.now_eq.trans hu.now_eq)
  | chunk _ hs ht => exact .inl (by rw [chunkStep_frame ht])
  | paced => exact .inl (by rw [afterPace_frame])
  | issue => exact .inl rfl
  | completion r op _ hp hs ht => exact .inl (by rw [onResp_frame ht]; rfl)
  | clock n hn hend => exact .inr ⟨n, rfl, hn, clock_toNat hend⟩
  | reset => exact .inl rfl

/-- Settles O46: `MoveEffect.now_cases`, and the clock step where it is enabled. -/
theorem nowNeverDecreases : Obligations.NowNeverDecreases := by
  unfold Obligations.NowNeverDecreases
  refine ⟨?mono, ?only, ?exact⟩
  case mono =>
    intro s t hstep
    obtain ⟨a, s', hsame, hmove⟩ := step_runAct hstep
    have hnow : s'.now = s.now := hsame.now_eq
    rw [← hnow]
    rcases (runAct_effect hmove).now_cases with h | ⟨n, -, -, h⟩
    · exact h ▸ le_rfl
    · exact h ▸ Nat.le_add_right _ _
  case only =>
    intro s t a hmove hne
    exact (runAct_effect hmove).now_cases.resolve_left hne
  case exact =>
    intro s n hn hend
    exact ⟨_, clock_toNat hend, congrArg Host.Outcome.next (clockStep_of_enabled hn hend)⟩

/-! ## The log (R23, R150) -/

/-- What a move adds to the log: nothing, the issue of ST's request where nothing was outstanding, a completion, or Reset. -/
theorem MoveEffect.log_cases {a : Act} {s t : State} (h : MoveEffect s a t) :
    t.log = s.log ∨
    (∃ r, s.pend = none ∧ s.request = some r ∧ t.pend = some r.op ∧ t.st = s.st ∧ t.log = s.log ++ [.issue r]) ∨
    (∃ op r, t.log = s.log ++ [.complete op r]) ∨ t.log = s.log ++ [.reset] := by
  cases h with
  | disabled => exact .inl rfl
  | judged _ hsame => exact .inl hsame.log_eq
  | instr c rest i _ hprog hdec heff =>
    obtain ⟨u, hu, hsame⟩ := heff
    have hlog : t.log = u.log := hsame.log_eq
    rcases hu.frame with ⟨r, hp, -, hr, rfl⟩ | hframe
    · exact .inr (.inl ⟨r, hp, hr, hsame.pend_eq, hsame.st_eq, hlog⟩)
    · exact .inl (hlog.trans (by rw [hframe]; rfl))
  | chunk _ hs ht => exact .inl (by rw [chunkStep_frame ht])
  | paced => exact .inl (by rw [afterPace_frame])
  | issue r hp hc hr => exact .inr (.inl ⟨r, hp, hr, rfl, rfl, rfl⟩)
  | completion r op _ hp hs ht => exact .inr (.inr (.inl ⟨op, r, by rw [onResp_frame ht]; rfl⟩))
  | clock => exact .inl rfl
  | reset => exact .inr (.inr (.inr rfl))

/-- Settles O54: each case of `MoveEffect.log_cases` adds at most one event. -/
theorem logIsAppendOnly : Obligations.LogIsAppendOnly := by
  unfold Obligations.LogIsAppendOnly
  intro s t hstep
  obtain ⟨a, s', hsame, hmove⟩ := step_runAct hstep
  have hlog : s'.log = s.log := hsame.log_eq
  rw [← hlog]
  rcases (runAct_effect hmove).log_cases with h | ⟨r, -, -, -, -, h⟩ | ⟨op, r, h⟩ | h
  · exact .inl h
  · exact .inr ⟨_, h⟩
  · exact .inr ⟨_, h⟩
  · exact .inr ⟨_, h⟩

/-- What ST asks of the transport is a function of the block. -/
theorem request_of_sameBlock {s s' : State} (h : s.SameBlock s') : s'.request = s.request := by
  rw [h]
  rfl

/-- Settles O55: of the cases of `MoveEffect.log_cases` only the issue adds an issue, and it is ST's. -/
theorem oneRequestOutstanding : Obligations.OneRequestOutstanding := by
  unfold Obligations.OneRequestOutstanding
  intro s t r hstep hissue
  obtain ⟨a, s', hsame, hmove⟩ := step_runAct hstep
  have hlog : s'.log = s.log := hsame.log_eq
  rcases (runAct_effect hmove).log_cases with h | ⟨q, hp, hr, hpend, hst, h⟩ | ⟨op, q, h⟩ | h
  · simp [hissue, hlog] at h
  · obtain rfl : r = q := by simpa [hissue, hlog] using h
    have hreq : s.request = some r := (request_of_sameBlock hsame).symm.trans hr
    exact ⟨hsame.pend_eq.symm.trans hp, hreq, hpend, request_op hreq,
      hst.trans hsame.st_eq⟩
  · simp [hissue, hlog] at h
  · simp [hissue, hlog] at h

/-! ## The registers of a running operation (R45, R41) -/

/-- No move of a running operation but reset changes what START has latched (R45). -/
theorem MoveEffect.latches_eq {a : Act} {s t : State} (h : MoveEffect s a t) (hb : s.st ≠ .idle) (ha : a ≠ .reset) :
    t.opl = s.opl ∧ t.al = s.al ∧ t.total = s.total ∧ t.minDur = s.minDur := by
  cases h with
  | disabled => exact ⟨rfl, rfl, rfl, rfl⟩
  | judged _ hsame => rw [hsame]; exact ⟨rfl, rfl, rfl, rfl⟩
  | instr c rest i _ hprog hdec heff =>
    obtain ⟨u, hu, hsame⟩ := heff
    rw [hsame, hu.frame_busy hb]
    exact ⟨rfl, rfl, rfl, rfl⟩
  | chunk _ hs ht => rw [chunkStep_frame ht]; exact ⟨rfl, rfl, rfl, rfl⟩
  | paced => rw [afterPace_frame]; exact ⟨rfl, rfl, rfl, rfl⟩
  | issue => exact ⟨rfl, rfl, rfl, rfl⟩
  | completion r op _ hp hs ht => rw [onResp_frame ht]; exact ⟨rfl, rfl, rfl, rfl⟩
  | clock => exact ⟨rfl, rfl, rfl, rfl⟩
  | reset => exact absurd rfl ha

/-- Settles O56, by `MoveEffect.latches_eq`. -/
theorem latchesHoldWhileBusy : Obligations.LatchesHoldWhileBusy := by
  unfold Obligations.LatchesHoldWhileBusy
  exact fun s t a hb ha hmove => (runAct_effect hmove).latches_eq hb ha

/-- While BUSY only a success sets XCOUNT (R41, R241, R242). -/
theorem MoveEffect.xcount_cases {a : Act} {s t : State} (h : MoveEffect s a t) (hb : s.st ≠ .idle) (ha : a ≠ .reset) :
    t.xcount = s.xcount ∨
      (t.st = .idle ∧ t.done = true ∧ t.err = .none ∧ (t.xcount = s.total ∨ s.opl = 0)) := by
  cases h with
  | disabled => exact .inl rfl
  | judged _ hsame => exact .inl hsame.xcount_eq
  | instr c rest i _ hprog hdec heff =>
    obtain ⟨u, hu, hsame⟩ := heff
    exact .inl (hsame.xcount_eq.trans (by rw [hu.frame_busy hb]; rfl))
  | chunk _ hs ht => exact .inl (by rw [chunkStep_frame ht])
  | paced =>
    unfold State.afterPace
    split_ifs
    · exact .inl rfl
    · exact .inr ⟨rfl, rfl, rfl, .inl rfl⟩
  | issue => exact .inl rfl
  | completion r op _ hp hs ht =>
    rcases onResp_cases ht with hframe | ⟨hop, bytes, v, rfl⟩
    · exact .inl (by rw [hframe]; rfl)
    · exact .inr ⟨rfl, rfl, rfl, .inr hop⟩
  | clock => exact .inl rfl
  | reset => exact absurd rfl ha

/-- Settles O60, by `MoveEffect.xcount_cases`. -/
theorem transferCountChangesOnlyAtOutcomes : Obligations.TransferCountChangesOnlyAtOutcomes := by
  unfold Obligations.TransferCountChangesOnlyAtOutcomes
  exact fun s t a hb ha hmove hne => ((runAct_effect hmove).xcount_cases hb ha).resolve_left hne

/-! ## The idle block (R274) -/

theorem request_of_op_none {s : State} (h : s.st.op = none) : s.request = none := by
  cases hr : s.request with
  | none => rfl
  | some r => rw [request_op hr] at h; cases h

/-- A START on an idle block leads to IDLE, or to CHUNK if the checks pass, which they do for no reserved OP (R201). -/
theorem accept_st (s : State) : s.accept.st = .idle ∨ (s.accept.st = .chunk ∧ s.op ≠ 3) := by
  rcases accept_cases s with ⟨hgo, e⟩ | ⟨-, e⟩ | ⟨code, -, e⟩
  · refine .inr ⟨congrArg State.st e, fun h3 => ?_⟩
    rw [h3, startCheck, if_pos rfl] at hgo
    cases hgo
  · exact .inl (congrArg State.st e)
  · exact .inl (congrArg State.st e)

/-- What an instruction does to an idle block: it leaves IDLE only as a START, and issues nothing. -/
theorem InstrEffect.of_idle {i : Instr} {s u : State} (h : InstrEffect i s u) (hs : s.st = .idle) :
    (u.st = .idle ∨ (u.st = .chunk ∧ startsOperation i = true)) ∧ u.pend = s.pend ∧ u.log = s.log := by
  cases h with
  | accepted op irqEn _ hi =>
    refine ⟨?_, by rw [accept_frame]; rfl, by rw [accept_frame]; rfl⟩
    rcases accept_st { s with op := op, irqEn := irqEn } with h | ⟨h, hop⟩
    · exact .inl h
    · exact .inr ⟨h, hi hop⟩
  | issued r hp hc hr => rw [request_of_op_none (by rw [hs]; rfl)] at hr; cases hr
  | nothing | register | status | control | dropped | stored | framed => exact ⟨.inl hs, rfl, rfl⟩

/-- Settles O59: on an idle block with nothing outstanding only the host, the clock and reset have a step, and of the
host's instructions only a START leaves IDLE. -/
theorem idleLeavesOnlyByStart : Obligations.IdleLeavesOnlyByStart := by
  unfold Obligations.IdleLeavesOnlyByStart
  intro s t a hs hp hmove
  have hreq : s.request = none := request_of_op_none (by rw [hs]; rfl)
  cases runAct_effect hmove with
  | disabled => exact ⟨.inl hs, hp, .inl rfl⟩
  | judged _ hsame =>
    exact ⟨.inl (hsame.st_eq.trans hs), hsame.pend_eq.trans hp, .inl hsame.log_eq⟩
  | instr c rest i _ hprog hdec heff =>
    obtain ⟨u, hu, hsame⟩ := heff
    obtain ⟨hst, hpend, hlog⟩ := hu.of_idle hs
    have hst' : t.st = u.st := hsame.st_eq
    refine ⟨?_, hsame.pend_eq.trans (hpend.trans hp), .inl (hsame.log_eq.trans hlog)⟩
    rcases hst with h | ⟨h, hstart⟩
    · exact .inl (hst'.trans h)
    · exact .inr ⟨hst'.trans h, rfl, c, rest, i, hprog, hdec, hstart⟩
  | chunk _ hs' => rw [hs] at hs'; cases hs'
  | paced hs' => rw [hs] at hs'; cases hs'
  | issue r _ _ hr => rw [hreq] at hr; cases hr
  | completion r op _ hp' => rw [hp] at hp'; cases hp'
  | clock => exact ⟨.inl hs, hp, .inl rfl⟩
  | reset => exact ⟨.inl rfl, rfl, .inr rfl⟩

/-! ## PACE under a fair clock (R22, R213) -/

theorem seqStep_of_pace {s : State} (hs : s.st = .pace) : seqStep s = .next (if s.paced then s.afterPace else s) := by
  rw [seqStep, hs]

/-- A move that stays in PACE keeps what PACE waits for. -/
theorem MoveEffect.pace_keeps {a : Act} {s t : State} (h : MoveEffect s a t) (hs : s.st = .pace) (ht : t.st = .pace) :
    t.tStart = s.tStart ∧ t.minDur = s.minDur := by
  have hb : s.st ≠ .idle := by rw [hs]; decide
  cases h with
  | disabled => exact ⟨rfl, rfl⟩
  | judged _ hsame => rw [hsame]; exact ⟨rfl, rfl⟩
  | instr c rest i _ hprog hdec heff =>
    obtain ⟨u, hu, hsame⟩ := heff
    rw [hsame, hu.frame_busy hb]
    exact ⟨rfl, rfl⟩
  | chunk _ hs' => rw [hs] at hs'; cases hs'
  | paced => exact absurd ht (afterPace_st_ne s)
  | issue => exact ⟨rfl, rfl⟩
  | completion r op _ hp ho => rw [hs] at ho; cases ho
  | clock => exact ⟨rfl, rfl⟩
  | reset => cases ht

/-- As long as a run stays in PACE, the end of the wait stays where it was. -/
theorem run_pace_keeps {run : Nat → State} (hrun : IsRun run) (hpace : ∀ n, (run n).st = .pace) (n : Nat) :
    (run n).tStart = (run 0).tStart ∧ (run n).minDur = (run 0).minDur := by
  induction n with
  | zero => exact ⟨rfl, rfl⟩
  | succ n ih =>
    obtain ⟨a, s', hsame, hmove⟩ := step_runAct (hrun n)
    obtain ⟨hstart, hdur⟩ := (runAct_effect hmove).pace_keeps (hsame.st_eq.trans (hpace n)) (hpace (n + 1))
    obtain ⟨ihstart, ihdur⟩ := ih
    rw [hstart, hdur, ← ihstart, ← ihdur]
    exact ⟨hsame.tStart_eq, hsame.minDur_eq⟩

/-- Settles O47: in a run that never left PACE, a fair clock would reach T_START + MIN_DUR, and there the sequencer's step
leaves PACE. -/
theorem fairClockOpensPace : Obligations.FairClockOpensPace := by
  unfold Obligations.FairClockOpensPace
  intro run hrun hfair _ hend
  by_cases hpace : ∀ n, (run n).st = .pace
  · obtain ⟨n, hn⟩ := hfair _ hend
    obtain ⟨hstart, hdur⟩ := run_pace_keeps hrun hpace n
    have hp : (run n).paced = true := by
      rw [State.paced, hstart, hdur]
      exact decide_eq_true hn
    refine ⟨n, .inr ⟨(run n).afterPace, ?_, afterPace_st_ne _⟩⟩
    rw [seqStep_of_pace (hpace n), if_pos hp]
  · obtain ⟨n, hn⟩ := not_forall.mp hpace
    exact ⟨n, .inl hn⟩

/-! ## What TX hands the transport (R157) -/

theorem request_write {s : State} {data : List Byte} (h : s.request = some (.write data)) :
    s.st = .tx ∧ data = s.unsent := by
  unfold State.request at h
  cases hs : s.st <;> simp [hs] at h
  exact ⟨rfl, h.symm⟩

theorem unsent_ne_nil_of_tx {s : State} (hs : s.st = .tx) (hc : s.cannotIssue = none) : s.unsent ≠ [] := by
  intro he
  simp [State.cannotIssue, hs, he] at hc

/-- Settles O42: T_WRITE issues what TX has not sent, and a good state has the chunk's frame in FRAME while it is sent. -/
theorem writeRequestsCarryTheChunkFrame : Obligations.WriteRequestsCarryTheChunkFrame := by
  unfold Obligations.WriteRequestsCarryTheChunkFrame
  intro s t data h hexec
  obtain ⟨-, hc, hr, -⟩ := issueRequest_next (r := .write data) hexec
  obtain ⟨hs, rfl⟩ := request_write hr
  obtain ⟨-, -, hsending⟩ := h.frame
  obtain ⟨hframe, -, -⟩ := hsending (by rw [hs]; rfl)
  refine ⟨hs, unsent_ne_nil_of_tx hs hc, ?_, hframe⟩
  rw [h.unsent_eq, List.take_append_drop]

end Sys2Proof.Machine
end

section
/-!
PROOFS, family 10_state.md: from a good state no move stops but a presented code, and that faults only on the reserved request
(R30, I15, I16).
-/

namespace Sys2Proof.Machine

/-! ## Every move but a fetch answers -/

theorem chunkStep_answers {s : State} (h : s.Inv) (hs : s.st = .chunk) : ∃ t, chunkStep s = .next t := by
  have hbusy : s.busy = true := busy_of_not_idle (by rw [hs]; decide)
  obtain ⟨-, -, -, hmax, -⟩ := h.params
  have hmore (hop : s.opl = 1 ∨ s.opl = 2) : s.count.toNat < s.total.toNat := by
    obtain ⟨hchunk, -, -⟩ := h.chunk hop
    exact hchunk hs
  unfold chunkStep
  rcases h.opl_cases hbusy with hop | hop | hop
  · have hlen : s.total.toNat ≤ s.params.chunkMax := h.test_range hbusy hop
    have hfit : 0 + s.total.toNat ≤ s.params.bufBytes := by omega
    rw [if_neg (by rw [hop]; decide), if_neg (by rw [hop]; decide), if_pos hop, chunkTest, readData, if_pos hfit]
    exact ⟨_, rfl⟩
  · rw [if_pos hop, chunkRead, if_pos (hmore (.inl hop))]
    exact ⟨_, rfl⟩
  · obtain ⟨-, -, hrange⟩ := chunkSize_range h.params (hmore (.inr hop))
    obtain ⟨hbuf, -⟩ := h.transfer_range hbusy (.inr hop)
    have hfit : s.count.toNat + s.chunkSize ≤ s.params.bufBytes := hrange.trans hbuf
    rw [if_neg (by rw [hop]; decide), if_pos hop, chunkWrite, if_pos (hmore (.inr hop)), readData]
    exact ⟨_, if_pos hfit⟩

/-- A good transport state has a request to issue (R157, R163). -/
theorem State.Inv.cannotIssue_none {s : State} (h : s.Inv) : s.cannotIssue = none := by
  unfold State.cannotIssue
  cases hs : s.st with
  | tx =>
    obtain ⟨-, -, hsending⟩ := h.frame
    obtain ⟨-, hleft, -⟩ := hsending (by rw [hs]; rfl)
    refine if_neg fun he => ?_
    have hlen := h.unsent_length
    rw [he, List.length_nil] at hlen
    omega
  | rx =>
    obtain ⟨-, hpath, -⟩ := h.path
    rcases hpath hs with hop | hop
    · obtain ⟨hidx, -⟩ := h.rx_range hs hop
      exact (if_pos hop).trans (if_pos hidx)
    · exact (if_neg (by rw [hop]; decide)).trans (if_pos hop)
  | idle | chunk | clear | dtrOn | rtsOn | flush | rtsOff | dtrOff | waitC | pace | unused => rfl

theorem issueStep_answers {s : State} (h : s.Inv) : ∃ t, issueStep s = .next t := by
  unfold issueStep
  rw [h.cannotIssue_none]
  split_ifs
  · cases s.request with
    | none => exact ⟨_, rfl⟩
    | some r => exact ⟨_, rfl⟩
  · exact ⟨_, rfl⟩

theorem seqStep_answers {s : State} (h : s.Inv) : ∃ t, seqStep s = .next t := by
  unfold seqStep
  cases hs : s.st with
  | idle | pace => exact ⟨_, rfl⟩
  | chunk => exact chunkStep_answers h hs
  | unused => have hused := h.used; rw [hs] at hused; cases hused
  | clear | dtrOn | rtsOn | tx | flush | rtsOff | dtrOff | waitC | rx => exact issueStep_answers h

theorem onDtrOff_answers {s : State} (h : s.Inv) (hs : s.st = .dtrOff) : ∃ t, onDtrOff s = .next t := by
  unfold onDtrOff
  rcases h.opl_cases (busy_of_not_idle (by rw [hs]; decide)) with hop | hop | hop
  · exact ⟨_, by rw [if_neg (by rw [hop]; decide), if_neg (by rw [hop]; decide), if_pos hop]⟩
  · exact ⟨_, by rw [if_pos hop]⟩
  · exact ⟨_, by rw [if_neg (by rw [hop]; decide), if_pos hop]⟩

/-- Received bytes fit the chunk, and so the buffer (R33, R163, R165). -/
theorem onRead_answers {s : State} {r : Resp} (h : s.Inv) (hs : s.st = .rx) (hok : readOk s.rxMax r = true) :
    ∃ t, onRead r s = .next t := by
  obtain ⟨-, hcount, hlen⟩ := readOk_iff.mp hok
  have hbusy : s.busy = true := busy_of_not_idle (by rw [hs]; decide)
  obtain ⟨-, hpath, -⟩ := h.path
  obtain ⟨-, -, -, hmax, -⟩ := h.params
  unfold onRead
  rcases hpath hs with hop | hop
  · rw [if_pos hop]
    split_ifs
    · exact ⟨_, rfl⟩
    · obtain ⟨-, -, hrange⟩ := h.chunk_range (.inl hop) (by rw [hs]; rfl)
      obtain ⟨hbuf, -⟩ := h.transfer_range hbusy (.inl hop)
      obtain ⟨hidx, -⟩ := h.rx_range hs hop
      rw [h.rxMax_toNat hs hop] at hcount
      have hfit : s.count.toNat + s.rxIdx.toNat + r.bytes.length ≤ s.params.bufBytes := by omega
      rw [storeData, if_pos hfit]
      exact ⟨_, rfl⟩
  · have hrx : s.rxMax = s.total := if_neg (by rw [hop]; decide)
    have htest : s.total.toNat ≤ s.params.chunkMax := h.test_range hbusy hop
    rw [hrx] at hcount
    have hfit : 0 + r.bytes.length ≤ s.params.bufBytes := by omega
    rw [if_neg (by rw [hop]; decide), if_pos hop, storeData, if_pos hfit]
    exact ⟨_, rfl⟩

theorem onResp_answers {s : State} {r : Resp} (h : s.Inv) (hs : s.st.op ≠ none) : ∃ t, onResp r s = .next t := by
  unfold onResp
  cases hst : s.st with
  | dtrOff =>
    by_cases hok : r.ok = true
    · simp only [hok, if_true]
      exact onDtrOff_answers h hst
    · exact ⟨_, if_neg hok⟩
  | rx =>
    by_cases hok : readOk s.rxMax r = true
    · simp only [hok, if_true]
      exact onRead_answers h hst hok
    · exact ⟨_, if_neg hok⟩
  | idle | chunk | pace | unused => exact absurd (by rw [hst]; rfl) hs
  | clear | dtrOn | rtsOn | tx | flush | rtsOff | waitC => exact ⟨_, rfl⟩

theorem completeStep_of_none {s : State} (h : s.pend = none) (r : Resp) : completeStep r s = .next s := by
  rw [completeStep, h]

theorem completeStep_answers {s : State} (h : s.Inv) (r : Resp) : ∃ t, completeStep r s = .next t := by
  cases hp : s.pend with
  | none => exact ⟨s, completeStep_of_none hp r⟩
  | some op =>
    obtain ⟨-, hpend | hpend⟩ := h.port
    · rw [hp] at hpend; cases hpend
    · have hop : s.st.op = some op := hpend.symm.trans hp
      have hne : s.st.op ≠ none := by rw [hop]; exact nofun
      obtain ⟨t, ht⟩ := onResp_answers (r := r) (h.settled (.complete op r)) hne
      refine ⟨t, ?_⟩
      rw [completeStep, hp]
      simp only [hop, if_true]
      exact ht

/-- From a good state every move but a fetch answers a next state. -/
theorem runAct_answers {s : State} {a : Act} (h : s.Inv) (ha : a ≠ .fetch) : ∃ t, runAct a s = .next t := by
  cases a with
  | fetch => exact absurd rfl ha
  | seq => exact seqStep_answers h
  | complete r => exact completeStep_answers h r
  | tick n => exact ⟨_, rfl⟩
  | reset => exact ⟨_, rfl⟩

/-- With a request outstanding the sequencer waits for the transport (R150, R256). -/
theorem seqStep_of_outstanding {s : State} (hp : s.pend ≠ none) (hs : s.st.op ≠ none) : seqStep s = .next s := by
  have hissue : issueStep s = .next s := if_neg hp
  rwa [seqStep_of_transport hs]

/-- Settles O52: `runAct_answers`, and the equation of each move that is not enabled. -/
theorem blockMovesNeverStop : Obligations.BlockMovesNeverStop := by
  unfold Obligations.BlockMovesNeverStop
  refine ⟨fun s a h ha => runAct_answers h ha, fun s => ⟨?completion, ?outstanding, ?idle, ?pace, ?clock, ?fetch⟩⟩
  case completion => exact fun hp r => completeStep_of_none hp r
  case outstanding => exact fun hp hs => seqStep_of_outstanding hp hs
  case idle =>
    intro hs
    rw [runAct, seqStep, hs]
  case pace =>
    intro hs hearly
    have hp : s.paced = false := decide_eq_false (Nat.not_le.mpr hearly)
    rw [runAct, seqStep_of_pace hs, hp]
    rfl
  case clock => exact fun n hn => congrArg Host.Outcome.next (clockStep_of_disabled hn)
  case fetch =>
    intro hprog
    rw [runAct, fetchStep, hprog]

/-! ## The faults of a presented code -/

/-- The payload that a frame instruction gives the codec (R132, R133): `exec_fault` ties it to the fault of I4. -/
def framePayload : Instr → List Byte
  | .frameTest p | .frameWrite _ p => p
  | _ => []

/-- An instruction faults only as the reserved request, or on a payload whose length does not fit its field (I4, I16). -/
theorem exec_fault {i : Instr} {s : State} {f : Fault} (h : exec i s = .fault f) :
    f = .reservedRequest ∨ 2 ^ 32 ≤ (framePayload i).length := by
  have hissue (r : Req) : issueRequest r s ≠ .fault f := by
    unfold issueRequest
    split_ifs <;> exact nofun
  cases i with
  | frameTest p => exact .inr (codeFrame_fault h).1
  | frameRead a l => exact absurd (codeFrame_fault h).1 (by decide)
  | frameWrite a p => exact .inr (codeFrame_fault h).1
  | tClear => exact absurd h (hissue _)
  | tSetDtr b => exact absurd h (hissue _)
  | tSetRts b => exact absurd h (hissue _)
  | tWrite d => exact absurd h (hissue _)
  | tFlush => exact absurd h (hissue _)
  | tRead m => exact absurd h (hissue _)
  | tWaitC => exact absurd h (hissue _)
  | tReserved => cases h; exact .inl rfl
  | load a bs =>
    match bs with
    | [] => cases h
    | [b] => cases h
    | b :: c :: rest => cases h
  | frameInvalidOpcode | frameInvalidPrefix | startTest | startRead | startWrite | startReserved | ctrlSet | statusW1c |
    wr32 | wr16 | wr8 | rd32 | rd16 | rd8 | start | starti | poll | waitdone | ack => cases h

/-- The payload of a verdict: `decodeWire_payload` ties it to the instruction that the verdict decodes to. -/
def verdictPayload : Verdict → List Byte
  | .test p | .write _ p => p
  | _ => []

/-- The first bytes that a u32 field counts are fewer than 2^32 (R103). -/
theorem take_length_lt (body : List Byte) (n : Word) : (body.take n.toNat).length < 2 ^ 32 :=
  (List.length_take_le _ _).trans_lt n.isLt

theorem decodeTestBody_payload (bs : List Byte) : (verdictPayload (decodeTestBody bs).1).length < 2 ^ 32 := by
  unfold decodeTestBody
  split
  · simp only
    split_ifs
    · decide
    · exact take_length_lt _ _
  · decide

theorem decodeReadBody_payload (bs : List Byte) : (verdictPayload (decodeReadBody bs).1).length < 2 ^ 32 := by
  unfold decodeReadBody
  split <;> exact Nat.zero_lt_succ _

theorem decodeWriteBody_payload (bs : List Byte) : (verdictPayload (decodeWriteBody bs).1).length < 2 ^ 32 := by
  unfold decodeWriteBody
  split
  · simp only
    split_ifs
    · decide
    · exact take_length_lt _ _
  · decide

/-- The reference decoder takes no payload that its length field cannot count (R135). -/
theorem decodeFrame_payload (bs : List Byte) : (verdictPayload (decodeFrame bs).1).length < 2 ^ 32 := by
  unfold decodeFrame
  split
  · split_ifs
    · decide
    · exact decodeTestBody_payload _
    · exact decodeReadBody_payload _
    · exact decodeWriteBody_payload _
    · decide
  · decide

theorem decodeWire_payload {bs : List Byte} {i : Instr} (h : decodeWire bs = .instr i) :
    (framePayload i).length < 2 ^ 32 := by
  have hlt := decodeFrame_payload bs
  unfold decodeWire at h
  split at h
  all_goals rename_i hv
  all_goals rw [hv] at hlt
  all_goals cases h
  all_goals exact hlt

theorem decodeCtrl_payload (w : Word) : framePayload (decodeCtrl w) = [] := by
  unfold decodeCtrl
  split_ifs <;> rfl

theorem decodeRequest_payload {top : BitVec 3} {val : Bool} {data : List Byte} {max : Word} {i : Instr}
    (h : decodeRequest top val data max = .instr i) : framePayload i = [] := by
  unfold decodeRequest at h
  split_ifs at h <;> cases h <;> rfl

theorem decodeStartLine_payload {mk : Op → Instr} {args : List Nat} {i : Instr} (hmk : ∀ op, framePayload (mk op) = [])
    (h : decodeStartLine mk args = .instr i) : framePayload i = [] := by
  unfold decodeStartLine at h
  split at h
  · split at h
    · cases h; exact hmk _
    · cases h
  · cases h

theorem decodeLine_payload {name : Pseudo} {args : List Nat} {i : Instr} (h : decodeLine name args = .instr i) :
    framePayload i = [] := by
  cases name with
  | start => exact decodeStartLine_payload (fun _ => rfl) h
  | starti => exact decodeStartLine_payload (fun _ => rfl) h
  | poll =>
    simp only [decodeLine, decodePollLine] at h
    split at h
    · split_ifs at h
      cases h; rfl
    · cases h
  | waitdone =>
    simp only [decodeLine] at h
    split_ifs at h
    cases h; rfl
  | ack =>
    simp only [decodeLine] at h
    split_ifs at h
    cases h; rfl
  | load =>
    simp only [decodeLine, decodeLoadLine] at h
    split at h
    · split at h
      · cases h; rfl
      · cases h
    · cases h

/-- No presented code carries a payload whose length does not fit its field (R103, R135). -/
theorem decode_payload {c : Code} {i : Instr} (h : decode c = .instr i) : (framePayload i).length < 2 ^ 32 := by
  have hnil : framePayload i = [] → (framePayload i).length < 2 ^ 32 := fun e => by rw [e]; decide
  cases c with
  | frame bytes => exact decodeWire_payload h
  | ctrl w => cases h; exact hnil (decodeCtrl_payload w)
  | status w => cases h; exact hnil rfl
  | request top val data max => exact hnil (decodeRequest_payload h)
  | busWrite off size value => cases h; cases size <;> exact hnil rfl
  | busRead off size => cases h; cases size <;> exact hnil rfl
  | line name args => exact hnil (decodeLine_payload h)

/-- A fetch faults only on the reserved request. -/
theorem fetchStep_fault {s : State} {f : Fault} (h : fetchStep s = .fault f) : f = .reservedRequest := by
  unfold fetchStep present at h
  split at h
  · cases h
  · split at h
    next hdec => exact (exec_fault h).resolve_right (Nat.not_le.mpr (decode_payload hdec))
    next => cases h
    next => cases h

/-- A fault of a step is the fault of a move on the same block, or of an unused ST (R30). -/
theorem step_fault {s : State} {f : Fault} (h : step s = .fault f) :
    s.st.isUnused = true ∨ ∃ a s', s.SameBlock s' ∧ runAct a s' = .fault f := by
  unfold step moveStep at h
  split_ifs at h with hst
  · exact .inl hst
  · right
    split at h
    next a rest _ => exact ⟨a, _, sameBlock_scheduled s rest, h⟩
    next => exact ⟨_, _, sameBlock_drew s 1, h⟩

/-- Settles O53: only a fetch can stop a good state (`runAct_answers`), and it faults only on the reserved request. -/
theorem noDefectFromGoodState : Obligations.NoDefectFromGoodState := by
  unfold Obligations.NoDefectFromGoodState
  intro s f h hstep
  rcases step_fault hstep with hst | ⟨a, s', hsame, hmove⟩
  · exact absurd (h.used.symm.trans hst) (by decide)
  · by_cases ha : a = .fetch
    · rw [ha] at hmove
      rw [fetchStep_fault hmove]
      rfl
    · obtain ⟨t, ht⟩ := runAct_answers (h.of_sameBlock hsame) ha
      rw [ht] at hmove
      cases hmove

end Sys2Proof.Machine
end

section
/-!
PROOFS, family 20_memory.md: host accesses that are not admitted (R63, R64), reads and writes of DATA on an idle and on a busy block
(R67 to R72), and who changes DATA while BUSY (R77).
-/

namespace Sys2Proof.Machine

/-! ## Accesses that are not admitted (R64) -/

theorem busWrite_of_unadmitted {s : State} {off n : Nat} {v : Word} (hreg : n = 4 → ¬(off ≤ 0x24 ∧ off % 4 = 0))
    (hdata : ¬(0x100 ≤ off ∧ off + n ≤ 0x100 + s.params.bufBytes ∧ off % n = 0)) :
    s.busWrite off n v = { s with answers := s.answers ++ [.busErrWrite] } := by
  rw [State.busWrite, placeAt_of_nowhere hreg hdata]
  rfl

theorem busRead_of_unadmitted {s : State} {off n : Nat} (hreg : n = 4 → ¬(off ≤ 0x24 ∧ off % 4 = 0))
    (hdata : ¬(0x100 ≤ off ∧ off + n ≤ 0x100 + s.params.bufBytes ∧ off % n = 0)) :
    s.busRead off n = { s with
      answers := s.answers ++ [.busErrRead (fromLE (freeBytes s.draws n))], draws := s.draws + n } := by
  rw [busRead_eq, State.readDraws, State.readAnswer, placeAt_of_nowhere hreg hdata]
  rfl

/-- Settles O14: at each size, an offset that R63 does not admit is no place of the block. -/
theorem unadmittedAccessIsBuserr : Obligations.UnadmittedAccessIsBuserr := by
  unfold Obligations.UnadmittedAccessIsBuserr
  intro s off
  refine ⟨fun hreg hdata => ?word, fun hdata => ?half, fun hdata => ?byte⟩
  case word =>
    exact ⟨fun _ => congrArg Host.Outcome.next (busWrite_of_unadmitted (fun _ => hreg) hdata),
      _, congrArg Host.Outcome.next (busRead_of_unadmitted (fun _ => hreg) hdata)⟩
  case half =>
    exact ⟨fun _ => congrArg Host.Outcome.next (busWrite_of_unadmitted nofun hdata),
      _, congrArg Host.Outcome.next (busRead_of_unadmitted nofun hdata)⟩
  case byte =>
    have hdata' : ¬(0x100 ≤ off.toNat ∧ off.toNat + 1 ≤ 0x100 + s.params.bufBytes ∧ off.toNat % 1 = 0) :=
      fun ⟨hlow, hhigh, _⟩ => hdata ⟨hlow, hhigh⟩
    exact ⟨fun _ => congrArg Host.Outcome.next (busWrite_of_unadmitted nofun hdata'),
      _, congrArg Host.Outcome.next (busRead_of_unadmitted nofun hdata')⟩

/-! ## DATA on a busy block (R69) -/

theorem busWrite_of_busy {s : State} {off n : Nat} {v : Word} (hs : s.st ≠ .idle) (hlow : 0x100 ≤ off)
    (hhigh : off + n ≤ 0x100 + s.params.bufBytes) (halign : off % n = 0) :
    s.busWrite off n v = { s with answers := s.answers ++ [.written] } := by
  simp only [State.busWrite, placeAt_of_data hlow hhigh halign, busy_of_not_idle hs, if_true]
  rfl

theorem busRead_of_busy {s : State} {off n : Nat} (hs : s.st ≠ .idle) (hlow : 0x100 ≤ off)
    (hhigh : off + n ≤ 0x100 + s.params.bufBytes) (halign : off % n = 0) :
    s.busRead off n = { s with
      answers := s.answers ++ [.value (fromLE (freeBytes s.draws n))], draws := s.draws + n } := by
  simp only [busRead_eq, State.readDraws, State.readAnswer, placeAt_of_data hlow hhigh halign, State.hostBytes,
    busy_of_not_idle hs, if_true]
  rfl

/-- Settles O17, by `busWrite_of_busy` and `busRead_of_busy` at each size. -/
theorem dataAccessWhileBusyHasNoEffect : Obligations.DataAccessWhileBusyHasNoEffect := by
  unfold Obligations.DataAccessWhileBusyHasNoEffect
  intro s off hs hlow
  refine ⟨fun hhigh halign => ?word, fun hhigh halign => ?half, fun hhigh => ?byte⟩
  case word =>
    exact ⟨fun _ => congrArg Host.Outcome.next (busWrite_of_busy hs hlow hhigh halign),
      _, congrArg Host.Outcome.next (busRead_of_busy hs hlow hhigh halign)⟩
  case half =>
    exact ⟨fun _ => congrArg Host.Outcome.next (busWrite_of_busy hs hlow hhigh halign),
      _, congrArg Host.Outcome.next (busRead_of_busy hs hlow hhigh halign)⟩
  case byte =>
    exact ⟨fun _ => congrArg Host.Outcome.next (busWrite_of_busy hs hlow hhigh (Nat.mod_one _)),
      _, congrArg Host.Outcome.next (busRead_of_busy hs hlow hhigh (Nat.mod_one _))⟩

/-! ## Writes of DATA on an idle block (R68) -/

/-- The bytes of a halfword are the low bytes of the word that the bus carries. -/
theorem extractLsb'_setWidth_word (v : BitVec 16) (i : Nat) : (v.setWidth 32).extractLsb' i 8 = v.extractLsb' i 8 := by
  apply BitVec.eq_of_toNat_eq
  rw [BitVec.extractLsb'_toNat, BitVec.extractLsb'_toNat, BitVec.toNat_setWidth_of_le (by decide)]

/-- WR8 on an idle block writes one byte of DATA. -/
theorem exec_wr8_of_idle {s : State} {off : Word} {a : Nat} {b : Byte} (hs : s.st = .idle)
    (hoff : off.toNat = 0x100 + a) (ha : a < s.params.bufBytes) :
    exec (.wr8 off b) s = .next { s with data := s.data.set a b, answers := s.answers ++ [.written] } := by
  have hwrite : s.busWrite off.toNat 1 (b.setWidth 32) = (s.stored a [b]).answered .written := by
    rw [busWrite_of_idle hs (by omega) (by omega) (Nat.mod_one _), leBytes_one, hoff, Nat.add_sub_cancel_left]
  exact congrArg Host.Outcome.next hwrite

/-- Settles O15: the bytes of MemWrite, by `stored_leBytes_get`. -/
theorem dataWriteStoresLittleEndian : Obligations.DataWriteStoresLittleEndian := by
  unfold Obligations.DataWriteStoresLittleEndian
  intro s off hs hlow
  refine ⟨fun v hhigh halign => ?word, fun v hhigh halign => ?half, fun v hhigh => ?byte⟩
  case word =>
    refine ⟨_, congrArg Host.Outcome.next (busWrite_of_idle hs hlow hhigh halign), rfl, fun a => ?_⟩
    exact stored_leBytes_get s (off.toNat - 0x100) 4 v a
  case half =>
    refine ⟨_, congrArg Host.Outcome.next (busWrite_of_idle hs hlow hhigh halign), rfl, fun a => ?_⟩
    rw [← extractLsb'_setWidth_word]
    exact stored_leBytes_get s (off.toNat - 0x100) 2 (v.setWidth 32) a
  case byte =>
    have hoff : off.toNat = 0x100 + (off.toNat - 0x100) := (Nat.add_sub_cancel' hlow).symm
    exact ⟨_, exec_wr8_of_idle hs hoff (by omega), rfl, fun a => Memory.get_set s.data _ a v⟩

/-! ## Reads of DATA on an idle block (R67, R71) -/

/-- A defined byte of DATA stands in its place in the value of a read. -/
theorem fromLE_dataBytes_extract {m : Memory} {d a n j : Nat} {b : Byte} (hn : n ≤ 4) (hj : j < n)
    (hb : m.get (a + j) = some b) : (fromLE (dataBytes m d a n)).extractLsb' (8 * j) 8 = b := by
  have hlen : j < (dataBytes m d a n).length := by rwa [dataBytes_length]
  have hbyte : dataByte m (d + j) (a + j) = b := by rw [dataByte, hb, Option.getD_some]
  have hget := dataBytes_getElem? m d a n j hj
  rw [hbyte, List.getElem?_eq_getElem hlen] at hget
  rw [fromLE_extract _ (by rwa [dataBytes_length]) j hlen]
  exact Option.some.inj hget

/-- An admitted read of `n` bytes on an idle block: its value is of `n` bytes and holds each defined byte in its place. -/
theorem busRead_value_of_idle {s : State} {off n : Nat} (hn : n ≤ 4) (hs : s.st = .idle) (hlow : 0x100 ≤ off)
    (hhigh : off + n ≤ 0x100 + s.params.bufBytes) (halign : off % n = 0) :
    ∃ v, s.busRead off n = { s with answers := s.answers ++ [.value v], draws := s.draws + n } ∧
      v.toNat < 2 ^ (8 * n) ∧ ∀ j < n, ∀ b, s.data.get (off - 0x100 + j) = some b → v.extractLsb' (8 * j) 8 = b := by
  refine ⟨_, busRead_of_idle hs hlow hhigh halign, ?bound, fun j hj b hb => fromLE_dataBytes_extract hn hj hb⟩
  have hlt := fromLE_lt (dataBytes s.data s.draws (off - 0x100) n) (by rwa [dataBytes_length])
  rw [dataBytes_length] at hlt
  rwa [Nat.pow_mul]

/-- Settles O16, by `busRead_value_of_idle` at each size. -/
theorem dataReadIsLittleEndian : Obligations.DataReadIsLittleEndian := by
  unfold Obligations.DataReadIsLittleEndian
  intro s off hs hlow
  refine ⟨fun hhigh halign => ?word, fun hhigh halign => ?half, fun hhigh => ?byte⟩
  case word =>
    obtain ⟨v, hread, -, hbytes⟩ := busRead_value_of_idle (by decide) hs hlow hhigh halign
    exact ⟨v, congrArg Host.Outcome.next hread, hbytes⟩
  case half =>
    obtain ⟨v, hread, hlt, hbytes⟩ := busRead_value_of_idle (by decide) hs hlow hhigh halign
    exact ⟨v, congrArg Host.Outcome.next hread, hlt, hbytes⟩
  case byte =>
    obtain ⟨v, hread, hlt, hbytes⟩ := busRead_value_of_idle (by decide) hs hlow hhigh (Nat.mod_one _)
    refine ⟨v, congrArg Host.Outcome.next hread, hlt, fun b hb => ?_⟩
    have hbyte : v.extractLsb' 0 8 = b := hbytes 0 Nat.zero_lt_one b (by rwa [Nat.add_zero])
    rw [← hbyte, BitVec.extractLsb'_toNat, Nat.shiftRight_zero, Nat.mod_eq_of_lt hlt]

/-- MemRead after MemWrite of the same range (R10). -/
theorem dataBytes_setMany (m : Memory) (d a : Nat) (bs : List Byte) :
    dataBytes (m.setMany a bs) d a bs.length = bs := by
  refine dataBytes_of_defined _ d a bs fun j hj => ?_
  rw [Memory.get_setMany, if_pos ⟨Nat.le_add_right a j, Nat.add_lt_add_left hj a⟩, Nat.add_sub_cancel_left]

/-- `fromLE32` is concatenation with the first byte lowest (R9). -/
theorem fromLE_four (b0 b1 b2 b3 : Byte) : fromLE [b0, b1, b2, b3] = b3 ++ b2 ++ b1 ++ b0 := by
  apply BitVec.eq_of_toNat_eq
  rw [fromLE_cons _ _ (by simp), fromLE_cons _ _ (by simp), fromLE_cons _ _ (by simp), fromLE_cons _ _ (by simp),
    toNat_append_eq, toNat_append_eq, toNat_append_eq]
  simp only [fromLE, BitVec.toNat_ofNat, BitVec.ofNat_eq_ofNat]
  omega

/-- RD32 of DATA on an idle block answers the little-endian value of its four bytes. -/
theorem exec_rd32_of_idle {s : State} {off v : Word} {a : Nat} (hs : s.st = .idle) (hoff : off.toNat = 0x100 + a)
    (ha : a + 4 ≤ s.params.bufBytes) (halign : off.toNat % 4 = 0) (hv : fromLE (dataBytes s.data s.draws a 4) = v) :
    exec (.rd32 off) s = .next { s with answers := s.answers ++ [.value v], draws := s.draws + 4 } := by
  have hread : s.busRead off.toNat 4 = (s.drew 4).answered (.value v) := by
    rw [busRead_of_idle hs (by omega) (by omega) halign, hoff, Nat.add_sub_cancel_left, hv]
  exact congrArg Host.Outcome.next hread

/-- Settles O18: the four byte writes are MemWrite of the four bytes, which the read finds by `dataBytes_setMany`. -/
theorem wordReadSeesFourByteWrites : Obligations.WordReadSeesFourByteWrites := by
  unfold Obligations.WordReadSeesFourByteWrites
  intro s off b0 b1 b2 b3 hs hlow hhigh hwrap halign
  obtain ⟨a, hoff⟩ : ∃ a, off.toNat = 0x100 + a := Nat.exists_eq_add_of_le hlow
  have hnext : ∀ k < 4, (off + BitVec.ofNat 32 k).toNat = 0x100 + (a + k) := by
    intro k hk
    rw [BitVec.toNat_add, BitVec.toNat_ofNat]
    omega
  have hin : a + 4 ≤ s.params.bufBytes := by omega
  have hbuf : ∀ k < 4, a + k < s.params.bufBytes := by omega
  refine ⟨_, _, _, _, exec_wr8_of_idle hs hoff (hbuf 0 (by decide)),
    exec_wr8_of_idle hs (hnext 1 (by decide)) (hbuf 1 (by decide)),
    exec_wr8_of_idle hs (hnext 2 (by decide)) (hbuf 2 (by decide)),
    exec_wr8_of_idle hs (hnext 3 (by decide)) (hbuf 3 (by decide)),
    exec_rd32_of_idle hs hoff hin halign ?value⟩
  calc fromLE (dataBytes (s.data.setMany a [b0, b1, b2, b3]) s.draws a [b0, b1, b2, b3].length)
      = fromLE [b0, b1, b2, b3] := congrArg fromLE (dataBytes_setMany s.data s.draws a [b0, b1, b2, b3])
    _ = b3 ++ b2 ++ b1 ++ b0 := fromLE_four b0 b1 b2 b3

/-! ## Who changes DATA while BUSY (R69, R77, R285) -/

theorem State.SameBlock.data_eq {s t : State} (h : s.SameBlock t) : t.data = s.data := by rw [h]

/-- Of the "on" clauses only RX's stores in DATA, and only on OK (R163, R165). -/
theorem onResp_data {r : Resp} {s t : State} (h : onResp r s = .next t) :
    t.data = s.data ∨ (s.st = .rx ∧ r.ok = true) := by
  rcases onResp_next h with ⟨-, rfl⟩ | ⟨-, rfl⟩ | ⟨-, rfl⟩ | ⟨-, rfl⟩ | ⟨-, -, rfl⟩ | ⟨-, rfl⟩ | ⟨-, rfl⟩ | ⟨-, hoff⟩ |
    ⟨-, rfl⟩ | ⟨hrx, hok, -⟩
  · exact .inl rfl
  · exact .inl rfl
  · exact .inl rfl
  · exact .inl rfl
  · exact .inl rfl
  · exact .inl rfl
  · exact .inl rfl
  · rcases onDtrOff_next hoff with ⟨-, rfl⟩ | ⟨-, rfl⟩ | ⟨-, rfl⟩ <;> exact .inl rfl
  · exact .inl rfl
  · obtain ⟨hrok, -⟩ := readOk_iff.mp hok
    exact .inr ⟨hrx, hrok⟩

/-- While BUSY a move leaves DATA alone, or is reset or the OK completion of a READ in RX. -/
theorem MoveEffect.data_cases {a : Act} {s t : State} (h : MoveEffect s a t) (hb : s.st ≠ .idle) :
    t.data = s.data ∨ a = .reset ∨ ∃ r, a = .complete r ∧ s.pend = some .read ∧ s.st = .rx ∧ r.ok = true := by
  cases h with
  | disabled => exact .inl rfl
  | judged _ hsame => exact .inl hsame.data_eq
  | instr c rest i _ hprog hdec heff =>
    obtain ⟨u, hu, hsame⟩ := heff
    exact .inl (hsame.data_eq.trans (by rw [hu.frame_busy hb]; rfl))
  | chunk _ hs ht => exact .inl (by rw [chunkStep_frame ht])
  | paced => exact .inl (by rw [afterPace_frame])
  | issue => exact .inl rfl
  | completion r op _ hp hs ht =>
    rcases onResp_data ht with hdata | ⟨hrx, hok⟩
    · exact .inl hdata
    · have hrx' : s.st = .rx := hrx
      have hop : op = .read := by rw [hrx'] at hs; exact (Option.some.inj hs).symm
      exact .inr (.inr ⟨r, rfl, hop ▸ hp, hrx', hok⟩)
  | clock => exact .inl rfl
  | reset => exact .inr (.inl rfl)

/-- Settles O57, by `MoveEffect.data_cases`. -/
theorem dataIsOwnedWhileBusy : Obligations.DataIsOwnedWhileBusy := by
  unfold Obligations.DataIsOwnedWhileBusy
  exact fun s t a hb hmove hne => ((runAct_effect hmove).data_cases hb).resolve_left hne

end Sys2Proof.Machine
end

section
/-!
PROOFS, family 30_encoding.md: the decoder inverts the encoder at each encoded interface (R101 to R112), the verdicts on reserved
frames (R107), and what the pseudo-instructions (R111) and the transport requests (R108) do.
-/

namespace Sys2Proof.Machine

/-! ## Frames (R101, R135) -/

@[simp] theorem decodeTestBody_le32 (n : Word) (body : List Byte) :
    decodeTestBody (le32 n ++ body) =
      if body.length < n.toNat then (.incomplete, 0) else (.test (body.take n.toNat), 6 + n.toNat) := by
  obtain ⟨b0, b1, b2, b3, hbytes, hval⟩ := le32_bytes n
  rw [hbytes, ← hval]
  rfl

@[simp] theorem decodeReadBody_le32 (a l : Word) (rest : List Byte) :
    decodeReadBody (le32 a ++ (le32 l ++ rest)) = (.read a l, 10) := by
  obtain ⟨a0, a1, a2, a3, habytes, haval⟩ := le32_bytes a
  obtain ⟨l0, l1, l2, l3, hlbytes, hlval⟩ := le32_bytes l
  rw [habytes, hlbytes, ← haval, ← hlval]
  rfl

@[simp] theorem decodeWriteBody_le32 (a n : Word) (body : List Byte) :
    decodeWriteBody (le32 a ++ (le32 n ++ body)) =
      if body.length < n.toNat then (.incomplete, 0) else (.write a (body.take n.toNat), 10 + n.toNat) := by
  obtain ⟨a0, a1, a2, a3, habytes, haval⟩ := le32_bytes a
  obtain ⟨l0, l1, l2, l3, hlbytes, hlval⟩ := le32_bytes n
  rw [habytes, hlbytes, ← haval, ← hlval]
  rfl

/-- A length that its u32 field holds is read back (R103). -/
theorem lengthField_toNat {n : Nat} (h : n < 2 ^ 32) : (BitVec.ofNat 32 n).toNat = n := by
  rw [BitVec.toNat_ofNat, Nat.mod_eq_of_lt h]

/-- The payload of a frame stands in front of the bytes that follow the frame (R135). -/
theorem payload_of_append (p rest : List Byte) :
    ¬(p ++ rest).length < p.length ∧ (p ++ rest).take p.length = p := by
  rw [List.length_append]
  exact ⟨by omega, List.take_left⟩

/-- DECODE inverts ENC_TEST, whatever follows the frame (R135, R137). -/
theorem decodeFrame_encTest {p : List Byte} (h : p.length < 2 ^ 32) (rest : List Byte) :
    decodeFrame (encTest p ++ rest) = (.test p, 6 + p.length) := by
  obtain ⟨hlen, htake⟩ := payload_of_append p rest
  calc decodeFrame (encTest p ++ rest)
      = decodeTestBody (le32 (BitVec.ofNat 32 p.length) ++ (p ++ rest)) := by
        simp only [encTest, List.append_assoc]; rfl
    _ = (.test p, 6 + p.length) := by
        rw [decodeTestBody_le32, lengthField_toNat h, if_neg hlen, htake]

/-- DECODE inverts ENC_READ, whatever follows the frame (R135, R137). -/
theorem decodeFrame_encRead (a l : Word) (rest : List Byte) :
    decodeFrame (encRead a l ++ rest) = (.read a l, 10) := by
  calc decodeFrame (encRead a l ++ rest)
      = decodeReadBody (le32 a ++ (le32 l ++ rest)) := by
        simp only [encRead, List.append_assoc]; rfl
    _ = (.read a l, 10) := decodeReadBody_le32 a l rest

/-- DECODE inverts ENC_WRITE, whatever follows the frame (R135, R137). -/
theorem decodeFrame_encWrite (a : Word) {p : List Byte} (h : p.length < 2 ^ 32) (rest : List Byte) :
    decodeFrame (encWrite a p ++ rest) = (.write a p, 10 + p.length) := by
  obtain ⟨hlen, htake⟩ := payload_of_append p rest
  calc decodeFrame (encWrite a p ++ rest)
      = decodeWriteBody (le32 a ++ (le32 (BitVec.ofNat 32 p.length) ++ (p ++ rest))) := by
        simp only [encWrite, List.append_assoc]; rfl
    _ = (.write a p, 10 + p.length) := by
        rw [decodeWriteBody_le32, lengthField_toNat h, if_neg hlen, htake]

/-- The first byte alone decides INVALID_PREFIX (R136). -/
theorem decodeFrame_of_cls {b0 : Byte} (h : b0 ≠ 0) (b1 : Byte) (rest : List Byte) :
    decodeFrame (b0 :: b1 :: rest) = (.invalidPrefix, 0) := if_pos h

/-- The first two bytes alone decide INVALID_OPCODE (R136). -/
theorem decodeFrame_of_opcode {b1 : Byte} (h : 3 ≤ b1.toNat) (rest : List Byte) :
    decodeFrame (0x00 :: b1 :: rest) = (.invalidOpcode, 0) := by
  have h0 : b1 ≠ 0x00 := by rintro rfl; exact absurd h (by decide)
  have h1 : b1 ≠ 0x01 := by rintro rfl; exact absurd h (by decide)
  have h2 : b1 ≠ 0x02 := by rintro rfl; exact absurd h (by decide)
  rw [decodeFrame, if_neg (not_not.mpr rfl), if_neg h0, if_neg h1, if_neg h2]

/-! ## CTRL and STATUS words (R36, R105, R106) -/

/-- The fields of a start word are those it was made of (R106). -/
theorem startWord_fields (op : BitVec 2) (irqEn : Bool) :
    ctrlOp (startWord op irqEn) = op ∧ ctrlIrqEn (startWord op irqEn) = irqEn ∧
      ctrlStart (startWord op irqEn) = true := by
  revert op irqEn
  decide

/-- The fields of a CTRL word without START are those it was made of (R106). -/
theorem setWord_fields (op : BitVec 2) (irqEn : Bool) :
    ctrlOp (setWord op irqEn) = op ∧ ctrlIrqEn (setWord op irqEn) = irqEn ∧ ctrlStart (setWord op irqEn) = false := by
  revert op irqEn
  decide

/-- The W1C bits of a STATUS word are those it was made of (R36). -/
theorem w1cWord_fields (done cmdrej : Bool) :
    (w1cWord done cmdrej).getLsbD 1 = done ∧ (w1cWord done cmdrej).getLsbD 2 = cmdrej := by
  revert done cmdrej
  decide

/-- OP selects the START row of a start word (R106). -/
theorem decodeCtrl_startWord (op : BitVec 2) (irqEn : Bool) :
    decodeCtrl (startWord op irqEn) =
      if op = 0 then .startTest irqEn else if op = 1 then .startRead irqEn
      else if op = 2 then .startWrite irqEn else .startReserved irqEn := by
  obtain ⟨hop, hirq, hstart⟩ := startWord_fields op irqEn
  rw [decodeCtrl, hop, hirq, hstart, if_pos rfl]

theorem decodeCtrl_setWord (op : BitVec 2) (irqEn : Bool) : decodeCtrl (setWord op irqEn) = .ctrlSet op irqEn := by
  obtain ⟨hop, hirq, hstart⟩ := setWord_fields op irqEn
  rw [decodeCtrl, hop, hirq, hstart, if_neg Bool.false_ne_true]

theorem decodeStatus_w1cWord (done cmdrej : Bool) : decodeStatus (w1cWord done cmdrej) = .statusW1c done cmdrej := by
  obtain ⟨hdone, hcmdrej⟩ := w1cWord_fields done cmdrej
  rw [decodeStatus, hdone, hcmdrej]

/-! ## Requests, script tuples and lines (R108, R111, R112) -/

/-- A WRITE request carries its data, of at least one byte (R108). -/
theorem decodeRequest_write {data : List Byte} (h : 1 ≤ data.length) (val : Bool) (max : Word) :
    decodeRequest 3 val data max = .instr (.tWrite data) :=
  if_neg (List.ne_nil_of_length_pos h)

/-- A narrow value's own bits are the low bits of the word that carries it (R68). -/
theorem extractLsb'_of_setWidth {n : Nat} (h : n ≤ 32) (v : BitVec n) : (v.setWidth 32).extractLsb' 0 n = v := by
  rw [← BitVec.setWidth_eq_extractLsb' h, BitVec.setWidth_setWidth_of_le v h, BitVec.setWidth_eq]

/-- The number of an operation names it (R111). -/
theorem opOfNat_code (op : Op) : opOfNat op.code.toNat = some op := by cases op <;> rfl

theorem decodeStartLine_code (mk : Op → Instr) (op : Op) : decodeStartLine mk [op.code.toNat] = .instr (mk op) := by
  rw [decodeStartLine, opOfNat_code]

theorem decodePollLine_toNat (off mask v : Word) :
    decodePollLine [off.toNat, mask.toNat, v.toNat] = .instr (.poll off mask v) := by
  rw [decodePollLine, if_pos ⟨off.isLt, mask.isLt, v.isLt⟩]
  simp only [BitVec.ofNat_toNat, BitVec.setWidth_eq]

/-! ## Every interface (R137) -/

/-- The decoder inverts the encoder on what an encoding can carry. -/
theorem decode_encode {p : Params} {i : Instr} (h : i.wellFormed p = true) : decode (encode i) = .instr i := by
  cases i with
  | frameTest payload =>
    have hv := decodeFrame_encTest (of_decide_eq_true h) []
    rw [List.append_nil] at hv
    rw [encode, decode, decodeWire, hv]
  | frameRead addr len =>
    have hv := decodeFrame_encRead addr len []
    rw [List.append_nil] at hv
    rw [encode, decode, decodeWire, hv]
  | frameWrite addr payload =>
    have hv := decodeFrame_encWrite addr (of_decide_eq_true h) []
    rw [List.append_nil] at hv
    rw [encode, decode, decodeWire, hv]
  | frameInvalidOpcode opc =>
    rw [encode, decode, decodeWire, decodeFrame_of_opcode (of_decide_eq_true h)]
    rfl
  | frameInvalidPrefix cls opc =>
    rw [encode, decode, decodeWire, decodeFrame_of_cls (of_decide_eq_true h)]
    rfl
  | startTest irqEn => exact congrArg Decoded.instr (decodeCtrl_startWord 0 irqEn)
  | startRead irqEn => exact congrArg Decoded.instr (decodeCtrl_startWord 1 irqEn)
  | startWrite irqEn => exact congrArg Decoded.instr (decodeCtrl_startWord 2 irqEn)
  | startReserved irqEn => exact congrArg Decoded.instr (decodeCtrl_startWord 3 irqEn)
  | ctrlSet op irqEn => exact congrArg Decoded.instr (decodeCtrl_setWord op irqEn)
  | statusW1c done cmdrej => exact congrArg Decoded.instr (decodeStatus_w1cWord done cmdrej)
  | tWrite data =>
    obtain ⟨hone, -⟩ := (Bool.and_eq_true_iff).mp h
    exact decodeRequest_write (of_decide_eq_true hone) false 0
  | tClear | tSetDtr val | tSetRts val | tFlush | tRead max | tWaitC | tReserved => rfl
  | wr32 off value | rd32 off | rd16 off | rd8 off => rfl
  | wr16 off value => rw [encode, decode, decodeBusWrite, extractLsb'_of_setWidth (by decide)]
  | wr8 off value => rw [encode, decode, decodeBusWrite, extractLsb'_of_setWidth (by decide)]
  | start op => exact decodeStartLine_code .start op
  | starti op => exact decodeStartLine_code .starti op
  | poll off mask v => exact decodePollLine_toNat off mask v
  | waitdone | ack => rfl
  | load idx bytes =>
    cases bytes with
    | nil => exact absurd h Bool.false_ne_true
    | cons b bs => exact decode_load idx b bs

/-- A code that is the encoding of a well-formed instruction decodes to it. -/
theorem decode_of_encode_eq {i : Instr} {c : Code} (hwf : i.wellFormed Params.srwp = true) (henc : encode i = c) :
    decode c = .instr i :=
  henc ▸ decode_encode hwf

/-- Settles O2: `decode_encode`, one lemma for each interface. -/
theorem decodeOfEncodeIsTheInstruction : Obligations.DecodeOfEncodeIsTheInstruction := by
  unfold Obligations.DecodeOfEncodeIsTheInstruction
  exact fun p i h => decode_encode h

/-- Settles O3: each written word is the encoding of a well-formed instruction, which `decode_of_encode_eq` gives back. -/
theorem writtenWordsDecode : Obligations.WrittenWordsDecode := by
  unfold Obligations.WrittenWordsDecode
  refine ⟨?read, ?test, ?start, ?set, ?status, ?request, ?tuple⟩
  case read => exact decode_of_encode_eq rfl rfl
  case test => exact decode_of_encode_eq rfl rfl
  case start => exact decode_of_encode_eq rfl rfl
  case set => exact decode_of_encode_eq rfl rfl
  case status => exact decode_of_encode_eq rfl rfl
  case request => exact decode_of_encode_eq rfl rfl
  case tuple => exact decode_of_encode_eq rfl rfl

/-! ## Reserved frames (R107, R136) -/

/-- Settles O21: the verdict recorded is that of `decodeFrame_of_opcode` and `decodeFrame_of_cls`. -/
theorem reservedFramesAreJudged : Obligations.ReservedFramesAreJudged := by
  unfold Obligations.ReservedFramesAreJudged
  intro s b0 b1
  refine ⟨?opcode, ?cls, fun h => decodeFrame_of_cls h b1, decodeFrame_of_opcode⟩
  case opcode =>
    intro _ h
    have hexec : exec (.frameInvalidOpcode b1) s = .next (s.judged (decodeFrame [0x00, b1]).1) := rfl
    rw [hexec, decodeFrame_of_opcode h]
    rfl
  case cls =>
    intro h
    have hexec : exec (.frameInvalidPrefix b0 b1) s = .next (s.judged (decodeFrame [b0, b1]).1) := rfl
    rw [hexec, decodeFrame_of_cls h]
    rfl

/-! ## Pseudo-instructions (R111) -/

/-- START is the write of its operation's start word to CTRL. -/
theorem exec_start_is_write (op : Op) (s : State) :
    ∃ t, exec (.start op) s = .next t ∧ exec (.wr32 0x000 (startWord op.code false)) s = .next t := ⟨_, rfl, rfl⟩

/-- STARTI is the write of its operation's start word with IRQ_EN to CTRL. -/
theorem exec_starti_is_write (op : Op) (s : State) :
    ∃ t, exec (.starti op) s = .next t ∧ exec (.wr32 0x000 (startWord op.code true)) s = .next t := ⟨_, rfl, rfl⟩

/-- ACK is the STATUS row that clears DONE only (R36). -/
theorem exec_ack_eq_statusW1c (s : State) : exec .ack s = exec (.statusW1c true false) s :=
  exec_wr32_of_reg (off := 0x004) (r := .status) rfl 0x2

/-- Settles O24: the three words of each are `startWord` of the operation, and ACK is the STATUS row of O12. -/
theorem pseudoWritesAreTheirExpansions : Obligations.PseudoWritesAreTheirExpansions := by
  unfold Obligations.PseudoWritesAreTheirExpansions
  intro s
  refine ⟨?writes, ?ack, rfl⟩
  case writes =>
    intro p hp
    simp only [List.mem_cons, List.not_mem_nil, or_false] at hp
    rcases hp with rfl | rfl | rfl
    · exact ⟨exec_start_is_write .test s, exec_starti_is_write .test s⟩
    · exact ⟨exec_start_is_write .read s, exec_starti_is_write .read s⟩
    · exact ⟨exec_start_is_write .write s, exec_starti_is_write .write s⟩
  case ack =>
    obtain ⟨-, hstatus⟩ := ctrlSetAndStatusClear s
    exact (exec_ack_eq_statusW1c s).trans (hstatus true false)

/-- One read of a POLL is the read that RD32 makes, with the line in front of the program unless its value is seen. -/
theorem pollOnce_eq (s : State) (off : Nat) (mask v : Word) (c : Code) :
    s.pollOnce off mask v c =
      if (s.readAnswer off 4).word &&& mask = v then
        { s with answers := s.answers ++ [s.readAnswer off 4], draws := s.draws + s.readDraws off 4 }
      else
        { s with
          answers := s.answers ++ [s.readAnswer off 4], draws := s.draws + s.readDraws off 4, prog := c :: s.prog } := by
  rcases pollOnce_cases s off mask v c with ⟨hseen, hpoll⟩ | ⟨hunseen, hpoll⟩
  · rw [hpoll, if_pos hseen]; rfl
  · rw [hpoll, if_neg hunseen]; rfl

/-- DONE stands at bit 1 of STATUS (R36). -/
theorem statusWord_and_done (s : State) : s.statusWord &&& 0x2 = 0x2 ↔ s.done = true := by
  have hbit : s.statusWord.getLsbD 1 = s.done := by
    rw [State.statusWord, BitVec.getLsbD_append, BitVec.getLsbD_append]
    simp
  have hand : s.statusWord &&& 0x2 = if s.statusWord.getLsbD 1 = true then 0x2 else 0 :=
    BitVec.and_twoPow s.statusWord 1
  rw [hand, hbit]
  cases s.done <;> decide

/-- One read of WAITDONE's line answers STATUS and ends when DONE is 1. -/
theorem pollOnce_status (s : State) (c : Code) :
    s.pollOnce 0x004 0x2 0x2 c =
      if s.done then { s with answers := s.answers ++ [.value s.statusWord] }
      else { s with answers := s.answers ++ [.value s.statusWord], prog := c :: s.prog } := by
  have hread : s.busRead 0x004 4 = s.answered (.value s.statusWord) := busRead_of_reg (r := .status) rfl
  rcases pollOnce_cases s 0x004 0x2 0x2 c with ⟨hseen, hpoll⟩ | ⟨hunseen, hpoll⟩
  · have hdone : s.done = true := (statusWord_and_done s).mp hseen
    rw [hpoll, hread, if_pos hdone]
    rfl
  · have hdone : ¬s.done = true := fun h => hunseen ((statusWord_and_done s).mpr h)
    rw [hpoll, hread, if_neg hdone]
    rfl

/-- Settles O25: `pollOnce_eq` with what the read answers and draws, and `pollOnce_status`. -/
theorem pollRepeatsUntilItsValue : Obligations.PollRepeatsUntilItsValue := by
  unfold Obligations.PollRepeatsUntilItsValue
  intro s
  refine ⟨fun off mask v => ?poll, ?waitdone⟩
  case poll =>
    exact ⟨s.readAnswer off.toNat 4, s.draws + s.readDraws off.toNat 4, rfl,
      congrArg Host.Outcome.next (pollOnce_eq s off.toNat mask v (encode (.poll off mask v)))⟩
  case waitdone => exact congrArg Host.Outcome.next (pollOnce_status s (encode .waitdone))

/-! ## Requests that are issued (R108, R150) -/

/-- The T_ instruction of the request that a state issues sets PEND and logs the issue, and does no more (R150). -/
theorem exec_issues {s : State} {r : Req} (hp : s.pend = none) (hc : s.cannotIssue = none) (hr : s.request = some r) :
    exec r.instr s = .next { s with pend := some r.op, log := s.log ++ [.issue r] } := by
  rw [exec_request, issueRequest_of hp hc hr]
  rfl

/-- Only TX and RX can lack what their request needs (R157, R163). -/
theorem cannotIssue_of_ne {s : State} (htx : s.st ≠ .tx) (hrx : s.st ≠ .rx) : s.cannotIssue = none := by
  unfold State.cannotIssue
  split
  case h_1 h => exact absurd h htx
  case h_2 h => exact absurd h hrx
  case h_3 => rfl

/-- A state other than TX and RX issues the request of its ST. -/
theorem exec_issues_of_ne {s : State} {q : St} {r : Req} (hp : s.pend = none) (hs : s.st = q) (htx : q ≠ .tx)
    (hrx : q ≠ .rx) (hr : (s.goto q).request = some r) :
    exec r.instr s = .next { s with pend := some r.op, log := s.log ++ [.issue r] } := by
  subst hs
  exact exec_issues hp (cannotIssue_of_ne htx hrx) hr

/-- What TX hands over is FRAME from TX_IDX on, where FRAME is FLEN bytes (R34, R157). -/
theorem unsent_of_length {s : State} (h : s.frame.length = s.flen.toNat) : s.unsent = s.frame.drop s.txIdx.toNat := by
  rw [State.unsent, ← h, List.take_length]

/-- TX issues its WRITE while bytes are left to send (R157). -/
theorem exec_tWrite_issues {s : State} (hp : s.pend = none) (hs : s.st = .tx) (hlen : s.frame.length = s.flen.toNat)
    (hidx : s.txIdx.toNat < s.flen.toNat) : exec (.tWrite (s.frame.drop s.txIdx.toNat)) s = .next { s with
      pend := some .write, log := s.log ++ [.issue (.write (s.frame.drop s.txIdx.toNat))] } := by
  have hunsent := unsent_of_length hlen
  have hne : s.unsent ≠ [] := by
    rw [hunsent, Ne, List.drop_eq_nil_iff, hlen]
    omega
  have hc : s.cannotIssue = none := by rw [State.cannotIssue, hs]; exact if_neg hne
  have hr : s.request = some (.write s.unsent) := by rw [State.request, hs]
  exact exec_issues hp hc (hunsent ▸ hr)

/-- RX of a READ issues its READ of the bytes still missing (R163). -/
theorem exec_tRead_issues_missing {s : State} (hp : s.pend = none) (hs : s.st = .rx) (hopl : s.opl = 1)
    (hidx : s.rxIdx.toNat < s.csize.toNat) : exec (.tRead (s.csize - s.rxIdx)) s = .next { s with
      pend := some .read, log := s.log ++ [.issue (.read (s.csize - s.rxIdx))] } := by
  have hc : s.cannotIssue = none := by rw [State.cannotIssue, hs]; exact (if_pos hopl).trans (if_pos hidx)
  have hr : s.request = some (.read (s.csize - s.rxIdx)) := by rw [State.request, hs, State.rxMax, if_pos hopl]
  exact exec_issues hp hc hr

/-- RX of a TEST issues its READ of the whole payload (R165). -/
theorem exec_tRead_issues_total {s : State} (hp : s.pend = none) (hs : s.st = .rx) (hopl : s.opl = 0) :
    exec (.tRead s.total) s = .next { s with pend := some .read, log := s.log ++ [.issue (.read s.total)] } := by
  have hread : s.opl ≠ 1 := by rw [hopl]; decide
  have hc : s.cannotIssue = none := by rw [State.cannotIssue, hs]; exact (if_neg hread).trans (if_pos hopl)
  have hr : s.request = some (.read s.total) := by rw [State.request, hs, State.rxMax, if_neg hread]
  exact exec_issues hp hc hr

/-- Settles O28: `exec_issues_of_ne` in the seven states whose request needs nothing, and the lemmas of TX and RX. -/
theorem eachStateIssuesItsRequest : Obligations.EachStateIssuesItsRequest := by
  unfold Obligations.EachStateIssuesItsRequest
  intro s hp
  refine ⟨?clear, ?dtrOn, ?rtsOn, exec_tWrite_issues hp, ?flush, ?rtsOff, ?dtrOff, ?waitC, ?missing,
    exec_tRead_issues_total hp⟩
  case clear => exact fun hs => exec_issues_of_ne (r := .clear) hp hs nofun nofun rfl
  case dtrOn => exact fun hs => exec_issues_of_ne (r := .setDtr true) hp hs nofun nofun rfl
  case rtsOn => exact fun hs => exec_issues_of_ne (r := .setRts true) hp hs nofun nofun rfl
  case flush => exact fun hs => exec_issues_of_ne (r := .flush) hp hs nofun nofun rfl
  case rtsOff => exact fun hs => exec_issues_of_ne (r := .setRts false) hp hs nofun nofun rfl
  case dtrOff => exact fun hs => exec_issues_of_ne (r := .setDtr false) hp hs nofun nofun rfl
  case waitC => exact fun hs => exec_issues_of_ne (r := .waitC) hp hs nofun nofun rfl
  case missing =>
    intro hs hopl hidx
    exact ⟨s.csize - s.rxIdx, BitVec.toNat_sub_of_le (Nat.le_of_lt hidx), exec_tRead_issues_missing hp hs hopl hidx⟩

end Sys2Proof.Machine
end

section
/-!
PROOFS, family 40_frame_codec.md: the reference decoder inverts the encoders (R137), what CHUNK builds for each operation (R208 to R210,
R217), and the range of the frames it builds (R138).
-/

namespace Sys2Proof.Machine

/-! ## DECODE after the encoders (R137) -/

/-- Settles O1: `decodeFrame_encRead`, `decodeFrame_encWrite` and `decodeFrame_encTest`. -/
theorem frameDecoderInvertsEncoders : Obligations.FrameDecoderInvertsEncoders := by
  unfold Obligations.FrameDecoderInvertsEncoders
  exact fun rest => ⟨fun a l => decodeFrame_encRead a l rest, fun a p hp => decodeFrame_encWrite a hp rest,
    fun p hp => decodeFrame_encTest hp rest⟩

/-! ## The window of a chunk (R204, R205, R208, R209) -/

theorem busy_of_chunk {s : State} (hs : s.st = .chunk) : s.busy = true := busy_of_not_idle (by rw [hs]; decide)

/-- In CHUNK of a READ or a WRITE bytes are left to move (R208). -/
theorem State.Inv.chunk_left {s : State} (h : s.Inv) (hs : s.st = .chunk) (hop : s.opl = 1 ∨ s.opl = 2) :
    s.count.toNat < s.total.toNat := by
  obtain ⟨hleft, -, -⟩ := h.chunk hop
  exact hleft hs

/-- The chunk that CHUNK begins is not empty, at most CHUNK_MAX, and lies in the buffer and in the device's address space. -/
theorem State.Inv.chunk_window {s : State} (h : s.Inv) (hs : s.st = .chunk) (hop : s.opl = 1 ∨ s.opl = 2) :
    1 ≤ s.chunkSize ∧ s.chunkSize ≤ s.params.chunkMax ∧ s.count.toNat + s.chunkSize ≤ s.params.bufBytes ∧
      s.al.toNat + s.count.toNat + s.chunkSize ≤ 2 ^ 32 := by
  obtain ⟨hpos, hmax, hend⟩ := chunkSize_range h.params (h.chunk_left hs hop)
  obtain ⟨hbuf, haddr⟩ := h.transfer_range (busy_of_chunk hs) hop
  exact ⟨hpos, hmax, hend.trans hbuf, by omega⟩

/-- AL + COUNT does not wrap (R205, R209). -/
theorem State.Inv.chunkAddr_toNat {s : State} (h : s.Inv) (hs : s.st = .chunk) (hop : s.opl = 1 ∨ s.opl = 2) :
    (s.al + s.count).toNat = s.al.toNat + s.count.toNat := by
  obtain ⟨hpos, -, -, haddr⟩ := h.chunk_window hs hop
  exact BitVec.toNat_add_of_lt (by omega)

/-- The payload of a TEST fits the FRAME buffer and DATA (R6, R203). -/
theorem State.Inv.test_window {s : State} (h : s.Inv) (hs : s.st = .chunk) (hop : s.opl = 0) :
    s.total.toNat ≤ s.params.chunkMax ∧ s.total.toNat ≤ s.params.bufBytes := by
  have hmax : s.total.toNat ≤ s.params.chunkMax := h.test_range (busy_of_chunk hs) hop
  obtain ⟨-, -, -, hbuf, -⟩ := h.params
  exact ⟨hmax, hmax.trans hbuf⟩

/-! ## CHUNK of each operation (R208) -/

theorem seqStep_of_chunk {s : State} (hs : s.st = .chunk) : seqStep s = chunkStep s := by
  rw [seqStep, hs]

theorem chunkStep_of_read {s : State} (hop : s.opl = 1) : chunkStep s = chunkRead s := if_pos hop

theorem chunkStep_of_write {s : State} (hop : s.opl = 2) : chunkStep s = chunkWrite s := by
  rw [chunkStep, if_neg (by rw [hop]; decide), if_pos hop]

theorem chunkStep_of_test {s : State} (hop : s.opl = 0) : chunkStep s = chunkTest s := by
  rw [chunkStep, if_neg (by rw [hop]; decide), if_neg (by rw [hop]; decide), if_pos hop]

/-- The next state for a frame of `m` bytes that the FRAME buffer holds (R130, R208). -/
theorem sendFrame_of_fits {bs : List Byte} {m : Nat} {s : State} (hm : bs.length = m) (hfit : m ≤ s.params.frameMax) :
    sendFrame bs s = .next { s with frame := bs, flen := BitVec.ofNat 8 m, txIdx := 0, st := .clear } := by
  subst hm
  rw [sendFrame, fillFrame_of_fits hfit]
  rfl

/-- MemRead inside the buffer (R10, R33). -/
theorem readData_of_fits {a n : Nat} {s : State} (f : List Byte → State → Out) (hfit : a + n ≤ s.params.bufBytes) :
    readData a n s f = f (dataBytes s.data s.draws a n) (s.drew n) := if_pos hfit

theorem chunkRead_of_left {s : State} (hleft : s.count.toNat < s.total.toNat) :
    chunkRead s = sendFrame (encRead (s.al + s.count) (BitVec.ofNat 32 s.chunkSize)) s.chunkBegun := if_pos hleft

theorem chunkWrite_of_left {s : State} (hleft : s.count.toNat < s.total.toNat) :
    chunkWrite s = readData s.count.toNat s.chunkSize s.chunkBegun fun bytes u =>
      sendFrame (encWrite (u.al + u.count) bytes) u := if_pos hleft

/-- CHUNK of a READ (R131, R209). -/
theorem State.Inv.seqStep_read {s : State} (h : s.Inv) (hs : s.st = .chunk) (hop : s.opl = 1) :
    seqStep s = .next { s with
      csize := BitVec.ofNat 32 s.chunkSize, tStart := s.now
      frame := encRead (s.al + s.count) (BitVec.ofNat 32 s.chunkSize), flen := 10, txIdx := 0, st := .clear } := by
  rw [seqStep_of_chunk hs, chunkStep_of_read hop, chunkRead_of_left (h.chunk_left hs (.inl hop))]
  exact sendFrame_of_fits (encRead_length _ _) (Nat.le_add_right 10 _)

/-- CHUNK of a WRITE (R132, R209, R210). -/
theorem State.Inv.seqStep_write {s : State} (h : s.Inv) (hs : s.st = .chunk) (hop : s.opl = 2) :
    seqStep s = .next { s with
      csize := BitVec.ofNat 32 s.chunkSize, tStart := s.now
      frame := encWrite (s.al + s.count) (dataBytes s.data s.draws s.count.toNat s.chunkSize)
      flen := BitVec.ofNat 8 (10 + s.chunkSize), txIdx := 0, st := .clear, draws := s.draws + s.chunkSize } := by
  obtain ⟨-, hmax, hbuf, -⟩ := h.chunk_window hs (.inr hop)
  rw [seqStep_of_chunk hs, chunkStep_of_write hop, chunkWrite_of_left (h.chunk_left hs (.inr hop)),
    readData_of_fits (s := s.chunkBegun) _ hbuf]
  exact sendFrame_of_fits (by rw [encWrite_length, dataBytes_length]) (Nat.add_le_add_left hmax 10)

/-- CHUNK of a TEST (R133, R217). -/
theorem State.Inv.seqStep_test {s : State} (h : s.Inv) (hs : s.st = .chunk) (hop : s.opl = 0) :
    seqStep s = .next { s with
      csize := s.total, frame := encTest (dataBytes s.data s.draws 0 s.total.toNat)
      flen := BitVec.ofNat 8 (6 + s.total.toNat), txIdx := 0, st := .clear, draws := s.draws + s.total.toNat } := by
  obtain ⟨hmax, hbuf⟩ := h.test_window hs hop
  rw [seqStep_of_chunk hs, chunkStep_of_test hop, Machine.chunkTest,
    readData_of_fits (s := { s with csize := s.total }) _ ((Nat.zero_add _).trans_le hbuf)]
  exact sendFrame_of_fits (by rw [encTest_length, dataBytes_length]) (Nat.add_le_add (by decide) hmax)

/-- MemRead answers each defined byte in its place (R10, R208). -/
theorem dataBytes_of_get {m : Memory} {d a n j : Nat} {b : Byte} (hj : j < n) (hb : m.get (a + j) = some b) :
    (dataBytes m d a n)[j]? = some b := by
  rw [dataBytes_getElem? m d a n j hj, dataByte, hb]
  rfl

/-- Settles O38: `State.Inv.seqStep_read`, with CSIZE and the address as numbers. -/
theorem readChunkBuildsItsFrame : Obligations.ReadChunkBuildsItsFrame := by
  unfold Obligations.ReadChunkBuildsItsFrame
  exact fun s h hs hop => ⟨_, _, chunkSize_toNat h.params, h.chunkAddr_toNat hs (.inl hop), h.seqStep_read hs hop⟩

/-- Settles O39: `State.Inv.seqStep_write`, with CSIZE and the address as numbers. -/
theorem writeChunkBuildsItsFrame : Obligations.WriteChunkBuildsItsFrame := by
  unfold Obligations.WriteChunkBuildsItsFrame
  intro s h hs hop
  have hsize := chunkSize_toNat h.params
  have hlen : (dataBytes s.data s.draws s.count.toNat s.chunkSize).length = s.chunkSize := dataBytes_length _ _ _ _
  refine ⟨_, _, dataBytes s.data s.draws s.count.toNat s.chunkSize, hsize, h.chunkAddr_toNat hs (.inr hop),
    hlen.trans hsize.symm, fun j hj b hb => dataBytes_of_get (hlen ▸ hj) hb, ?_⟩
  rw [hlen]
  exact h.seqStep_write hs hop

/-- Settles O40: `State.Inv.seqStep_test`. -/
theorem testChunkBuildsItsFrame : Obligations.TestChunkBuildsItsFrame := by
  unfold Obligations.TestChunkBuildsItsFrame
  intro s h hs hop
  have hlen : (dataBytes s.data s.draws 0 s.total.toNat).length = s.total.toNat := dataBytes_length _ _ _ _
  refine ⟨dataBytes s.data s.draws 0 s.total.toNat, hlen, fun j hj b hb => ?_, ?_⟩
  · exact dataBytes_of_get (hlen ▸ hj) (by rwa [Nat.zero_add])
  · rw [hlen]
    exact h.seqStep_test hs hop

/-! ## The range of emitted frames (R138) -/

theorem emitted_read_iff {p : Params} {a l : Word} : (Verdict.read a l).emitted p = true ↔
    1 ≤ l.toNat ∧ l.toNat ≤ p.chunkMax ∧ a.toNat + l.toNat ≤ 2 ^ 32 := by
  simp only [Verdict.emitted, Bool.and_eq_true, decide_eq_true_eq, and_assoc]

theorem emitted_write_iff {p : Params} {a : Word} {bs : List Byte} : (Verdict.write a bs).emitted p = true ↔
    1 ≤ bs.length ∧ bs.length ≤ p.chunkMax ∧ a.toNat + bs.length ≤ 2 ^ 32 := by
  simp only [Verdict.emitted, Bool.and_eq_true, decide_eq_true_eq, and_assoc]

theorem emitted_test_iff {p : Params} {bs : List Byte} : (Verdict.test bs).emitted p = true ↔ bs.length ≤ p.testMax :=
  decide_eq_true_iff

/-- A frame decodes whole to a verdict in the range of R138. -/
def DecodesInRange (p : Params) (bs : List Byte) : Prop :=
  (decodeFrame bs).1.emitted p = true ∧ (decodeFrame bs).2 = bs.length

theorem encRead_inRange {p : Params} {a l : Word} (hpos : 1 ≤ l.toNat) (hmax : l.toNat ≤ p.chunkMax)
    (haddr : a.toNat + l.toNat ≤ 2 ^ 32) : DecodesInRange p (encRead a l) := by
  have hdec := decodeFrame_encRead a l []
  rw [List.append_nil] at hdec
  rw [DecodesInRange, hdec, encRead_length]
  exact ⟨emitted_read_iff.mpr ⟨hpos, hmax, haddr⟩, rfl⟩

theorem encWrite_inRange {p : Params} {a : Word} {bs : List Byte} (hpos : 1 ≤ bs.length) (hmax : bs.length ≤ p.chunkMax)
    (haddr : a.toNat + bs.length ≤ 2 ^ 32) (hlen : bs.length < 2 ^ 32) : DecodesInRange p (encWrite a bs) := by
  have hdec := decodeFrame_encWrite a hlen []
  rw [List.append_nil] at hdec
  rw [DecodesInRange, hdec, encWrite_length]
  exact ⟨emitted_write_iff.mpr ⟨hpos, hmax, haddr⟩, rfl⟩

theorem encTest_inRange {p : Params} {bs : List Byte} (hmax : bs.length ≤ p.testMax) (hlen : bs.length < 2 ^ 32) :
    DecodesInRange p (encTest bs) := by
  have hdec := decodeFrame_encTest hlen []
  rw [List.append_nil] at hdec
  rw [DecodesInRange, hdec, encTest_length]
  exact ⟨emitted_test_iff.mpr hmax, rfl⟩

/-- Settles O41: the frame of each operation, as `seqStep_read`, `seqStep_write` and `seqStep_test` give it, in its window. -/
theorem emittedFramesAreInRange : Obligations.EmittedFramesAreInRange := by
  unfold Obligations.EmittedFramesAreInRange
  intro s t h hs ht
  have hchunk : s.params.chunkMax < 2 ^ 32 := by
    obtain ⟨-, hframe, -⟩ := h.params
    omega
  rcases h.opl_cases (busy_of_chunk hs) with hop | hop | hop
  · obtain ⟨hmax, -⟩ := h.test_window hs hop
    cases (h.seqStep_test hs hop).symm.trans ht
    refine encTest_inRange ?_ ?_ <;> rw [dataBytes_length]
    · exact hmax
    · omega
  · obtain ⟨hpos, hmax, -, haddr⟩ := h.chunk_window hs (.inl hop)
    cases (h.seqStep_read hs hop).symm.trans ht
    have hsize := chunkSize_toNat h.params
    refine encRead_inRange ?_ ?_ ?_ <;> rw [hsize]
    · exact hpos
    · exact hmax
    · rwa [h.chunkAddr_toNat hs (.inl hop)]
  · obtain ⟨hpos, hmax, -, haddr⟩ := h.chunk_window hs (.inr hop)
    cases (h.seqStep_write hs hop).symm.trans ht
    refine encWrite_inRange ?_ ?_ ?_ ?_ <;> rw [dataBytes_length]
    · exact hpos
    · exact hmax
    · rwa [h.chunkAddr_toNat hs (.inr hop)]
    · omega

end Sys2Proof.Machine
end

section
/-!
PROOFS, family 41_transaction_executor.md: the completion of a request (R150, R151) in each transport state (R154 to
R168), and who moves the lines (R169).
-/

namespace Sys2Proof.Machine

/-! ## One request and its completion (R150) -/

/-- The state in which the "on" clause of ST runs: the completion is logged and nothing is outstanding (R150). -/
def State.completed (s : State) (op : TOp) (r : Resp) : State := { s with pend := none, log := s.log ++ [.complete op r] }

theorem completed_eq (s : State) (op : TOp) (r : Resp) : (s.logged (.complete op r)).settled = s.completed op r := rfl

theorem State.Inv.completed {s : State} (h : s.Inv) (op : TOp) (r : Resp) : (s.completed op r).Inv := h.settled _

/-- The completion of the outstanding request is the "on" clause of ST. -/
theorem completeStep_of_pend {s : State} {op : TOp} (r : Resp) (hp : s.pend = some op) (hop : s.st.op = some op) :
    completeStep r s = onResp r (s.completed op r) := by
  rw [completeStep, hp]
  simp only [hop, if_true, completed_eq]

/-- In a state whose ST is known, the "on" clause is read off. -/
theorem completeStep_of_st {s : State} {q : St} {op : TOp} {r : Resp} {o : Out} (hs : s.st = q) (hp : s.pend = some op)
    (hop : q.op = some op) (ho : onResp r ((s.goto q).completed op r) = o) : completeStep r s = o := by
  subst hs
  exact (completeStep_of_pend r hp hop).trans ho

/-- The sequencer issues ST's request (R150). -/
theorem seqStep_issues {s : State} {r : Req} (hp : s.pend = none) (hc : s.cannotIssue = none) (hr : s.request = some r) :
    seqStep s = .next (s.issued r) := by
  obtain ⟨-, hseq⟩ := sequencerStepIsItsRequest s r hp hc hr
  exact hseq

/-- In a state other than TX and RX whose ST is known, the request is read off. -/
theorem seqStep_of_st {s : State} {q : St} {r : Req} (hs : s.st = q) (hp : s.pend = none) (htx : q ≠ .tx) (hrx : q ≠ .rx)
    (hr : (s.goto q).request = some r) : seqStep s = .next (s.issued r) := by
  subst hs
  exact seqStep_issues hp (cannotIssue_of_ne htx hrx) hr

/-! ## The classification of a completion (R151) -/

/-- Whether a completion is OK in the state that awaits it: the `ok` bit, and the counts of TX and RX. -/
def State.accepts (s : State) (r : Resp) : Bool :=
  match s.st with
  | .tx => writeOk s.unsent.length r
  | .rx => readOk s.rxMax r
  | _ => r.ok

theorem writeOk_iff {m : Nat} {r : Resp} :
    writeOk m r = true ↔ r.ok = true ∧ 1 ≤ r.count.toNat ∧ r.count.toNat ≤ m := by
  simp only [writeOk, Bool.and_eq_true, decide_eq_true_eq, and_assoc]

theorem accepts_of_tx {s : State} (hs : s.st = .tx) (r : Resp) : s.accepts r = writeOk s.unsent.length r := by
  rw [State.accepts, hs]

theorem accepts_of_rx {s : State} (hs : s.st = .rx) (r : Resp) : s.accepts r = readOk s.rxMax r := by
  rw [State.accepts, hs]

theorem accepts_of_not_ok {s : State} {r : Resp} (h : r.ok = false) : s.accepts r = false := by
  unfold State.accepts
  split
  · rw [writeOk, h]; rfl
  · rw [readOk, h]; rfl
  · exact h

/-- An ERR completion raises IO, whatever the transport state (R167). -/
theorem onResp_of_rejected {s : State} {r : Resp} (hop : s.st.op ≠ none) (h : s.accepts r = false) :
    onResp r s = .next (s.raiseError .io) := by
  unfold State.accepts at h
  unfold onResp
  cases hs : s.st with
  | idle | chunk | pace | unused => exact absurd (by rw [hs]; rfl) hop
  | clear | dtrOn | rtsOn | tx | flush | rtsOff | dtrOff | waitC | rx =>
    simp only [hs] at h
    simp only [h, Bool.false_eq_true, if_false]

/-- The whole next state of an ERR completion (R167, R168, R242). -/
theorem completeStep_of_rejected {s : State} {op : TOp} {r : Resp} (hp : s.pend = some op) (hop : s.st.op = some op)
    (h : s.accepts r = false) : completeStep r s = .next { s with
      pend := none, log := s.log ++ [.complete op r], err := .io, done := true, st := .idle } := by
  rw [completeStep_of_pend r hp hop]
  exact onResp_of_rejected (s := s.completed op r) (by rw [State.completed, hop]; exact nofun) h

/-- Settles O37: each of the causes is an ERR of R151. -/
theorem errorCompletionRaisesIo : Obligations.ErrorCompletionRaisesIo := by
  unfold Obligations.ErrorCompletionRaisesIo
  intro s r op hp hop hcause
  refine completeStep_of_rejected hp hop ?_
  rcases hcause with hok | ⟨hs, hcount⟩
  · exact accepts_of_not_ok hok
  · rw [accepts_of_rx hs, ← Bool.not_eq_true, readOk_iff]
    rintro ⟨-, hmax, hlen⟩
    rcases hcount with hmore | hne
    · omega
    · exact hne hlen

/-! ## The states whose request has no count (R154 to R161) -/

/-- The rule of a transport state other than TX and RX: its request, and its "on" clause. -/
theorem control_rule {s : State} {q : St} {req : Req} {r : Resp} {o : Out} (hs : s.st = q) (htx : q ≠ .tx) (hrx : q ≠ .rx)
    (hq : (s.goto q).request = some req) (ho : onResp r ((s.goto q).completed req.op r) = o) :
    (s.pend = none → seqStep s = .next (s.issued req)) ∧ (s.pend = some req.op → completeStep r s = o) :=
  ⟨fun hp => seqStep_of_st hs hp htx hrx hq, fun hp => completeStep_of_st hs hp (request_op (s := s.goto q) hq) ho⟩

/-- Settles O30, by `control_rule` in each of the six states. -/
theorem controlLineStatesFollowTheirRules : Obligations.ControlLineStatesFollowTheirRules := by
  unfold Obligations.ControlLineStatesFollowTheirRules
  intro s r
  refine ⟨?clear, ?dtrOn, ?rtsOn, ?flush, ?rtsOff, ?waitC⟩
  case clear => exact fun hs => control_rule (req := .clear) hs nofun nofun rfl rfl
  case dtrOn => exact fun hs => control_rule (req := .setDtr true) hs nofun nofun rfl rfl
  case rtsOn => exact fun hs => control_rule (req := .setRts true) hs nofun nofun rfl rfl
  case flush => exact fun hs => control_rule (req := .flush) hs nofun nofun rfl rfl
  case rtsOff => exact fun hs => control_rule (req := .setRts false) hs nofun nofun rfl rfl
  case waitC => exact fun hs => control_rule (req := .waitC) hs nofun nofun rfl rfl

/-! ## DTR_OFF (R160, R166) -/

theorem onDtrOff_of_read {s : State} (hop : s.opl = 1) : onDtrOff s = .next { s with dtr := false, st := .waitC } :=
  if_pos hop

theorem onDtrOff_of_write {s : State} (hop : s.opl = 2) :
    onDtrOff s = .next { s with dtr := false, count := s.count + s.csize, st := .pace } := by
  rw [onDtrOff, if_neg (by rw [hop]; decide), if_pos hop]
  rfl

theorem onDtrOff_of_test {s : State} (hop : s.opl = 0) : onDtrOff s = .next { s with dtr := false, st := .rx } := by
  rw [onDtrOff, if_neg (by rw [hop]; decide), if_neg (by rw [hop]; decide), if_pos hop]
  rfl

/-- Wherever the operation goes, DTR is lowered and RTS stays (R160). -/
theorem onDtrOff_lines {s t : State} (h : onDtrOff s = .next t) : t.dtr = false ∧ t.rts = s.rts := by
  rcases onDtrOff_next h with ⟨-, rfl⟩ | ⟨-, rfl⟩ | ⟨-, rfl⟩ <;> exact ⟨rfl, rfl⟩

theorem onResp_of_dtrOff {s : State} {r : Resp} (hs : s.st = .dtrOff) (hok : r.ok = true) : onResp r s = onDtrOff s := by
  rw [onResp, hs]
  exact if_pos hok

theorem completeStep_of_dtrOff {s : State} {r : Resp} (hs : s.st = .dtrOff) (hp : s.pend = some .setDtr)
    (hok : r.ok = true) : completeStep r s = onDtrOff (s.completed .setDtr r) :=
  (completeStep_of_pend r hp (by rw [hs]; rfl)).trans (onResp_of_dtrOff hs hok)

theorem linesWord_of_low {s : State} (hdtr : s.dtr = false) (hrts : s.rts = false) : s.linesWord = 0 := by
  rw [State.linesWord, hdtr, hrts]
  rfl

/-- In DTR_OFF of a good state RTS is low already (R159). -/
theorem State.Inv.rts_low {s : State} (h : s.Inv) (hs : s.st = .dtrOff) : s.rts = false := by
  obtain ⟨hrts, -⟩ := h.lines
  exact hrts hs

/-- Settles O31: the three operations of `onDtrOff`; in a good state RTS is low already. -/
theorem dtrOffDispatchesOnTheOperation : Obligations.DtrOffDispatchesOnTheOperation := by
  unfold Obligations.DtrOffDispatchesOnTheOperation
  intro s r hs hp t
  refine ⟨?err, ?read, ?write, ?test, ?lines⟩
  case err => exact fun hok => completeStep_of_rejected hp (by rw [hs]; rfl) (accepts_of_not_ok hok)
  case read => exact fun hok hop => (completeStep_of_dtrOff hs hp hok).trans (onDtrOff_of_read (s := t) hop)
  case write => exact fun hok hop => (completeStep_of_dtrOff hs hp hok).trans (onDtrOff_of_write (s := t) hop)
  case test => exact fun hok hop => (completeStep_of_dtrOff hs hp hok).trans (onDtrOff_of_test (s := t) hop)
  case lines =>
    intro h hok
    obtain ⟨u, hu⟩ := onDtrOff_answers (h.completed .setDtr r) hs
    obtain ⟨hdtr, hkept⟩ := onDtrOff_lines hu
    have hrts : u.rts = false := hkept.trans (h.rts_low hs)
    exact ⟨u, (completeStep_of_dtrOff hs hp hok).trans hu, hdtr, hrts, linesWord_of_low hdtr hrts⟩

/-! ## TX (R157) -/

theorem onResp_of_tx {s : State} {r : Resp} (hs : s.st = .tx) (hok : writeOk s.unsent.length r = true) :
    onResp r s = .next (s.sent r.count) := by
  rw [onResp, hs]
  exact congrArg Host.Outcome.next (if_pos hok)

/-- Settles O32: OK(k) is `State.sent`, whose TX_IDX does not wrap in a good state; every other answer is an ERR. -/
theorem partialWriteIsResumed : Obligations.PartialWriteIsResumed := by
  unfold Obligations.PartialWriteIsResumed
  intro s r h hs hp m t
  have hop : s.st.op = some .write := by rw [hs]; rfl
  have hm : s.unsent.length = m := h.unsent_length
  refine ⟨fun hok hpos hmax => ?sent, fun hbad => ?err⟩
  case sent =>
    have hwrite : writeOk s.unsent.length r = true := writeOk_iff.mpr ⟨hok, hpos, hm ▸ hmax⟩
    obtain ⟨hadd, -⟩ := h.txIdx_add hwrite
    exact ⟨_, hadd, (completeStep_of_pend r hp hop).trans (onResp_of_tx (s := t) hs hwrite)⟩
  case err =>
    refine completeStep_of_rejected hp hop ?_
    rw [accepts_of_tx hs, ← Bool.not_eq_true, writeOk_iff, hm]
    rintro ⟨hok, hpos, hmax⟩
    rcases hbad with hbad | hbad | hbad
    · exact absurd (hbad.symm.trans hok) (by decide)
    · omega
    · omega

/-! ## RX (R163 to R165) -/

theorem onResp_of_rx {s : State} {r : Resp} (hs : s.st = .rx) (hok : readOk s.rxMax r = true) : onResp r s = onRead r s := by
  rw [onResp, hs]
  exact if_pos hok

theorem completeStep_of_rx {s : State} {r : Resp} (hs : s.st = .rx) (hp : s.pend = some .read)
    (hok : readOk s.rxMax r = true) : completeStep r s = onRead r (s.completed .read r) :=
  (completeStep_of_pend r hp (by rw [hs]; rfl)).trans (onResp_of_rx (s := s.completed .read r) hs hok)

/-- In a good state an OK completion of RX answers: the bytes fit DATA. -/
theorem State.Inv.completeStep_rx {s : State} {r : Resp} (h : s.Inv) (hs : s.st = .rx) (hp : s.pend = some .read)
    (hok : readOk s.rxMax r = true) : ∃ t, completeStep r s = .next t ∧ Machine.onRead r (s.completed .read r) = .next t := by
  obtain ⟨t, ht⟩ := onRead_answers (h.completed .read r) hs hok
  exact ⟨t, (completeStep_of_rx hs hp hok).trans ht, ht⟩

/-- A non-zero read, once its bytes are stored, in one update (R163, R212). -/
theorem received_eq (s : State) (n : Word) : s.received n = { s with
    rxIdx := s.rxIdx + n, zeroCnt := 0
    count := if s.rxIdx + n = s.csize then s.count + s.csize else s.count
    st := if s.rxIdx + n = s.csize then .pace else .rx } := by
  unfold State.received
  simp only
  split_ifs <;> rfl

/-- Settles O33: the answered state stores the bytes and is `State.received`. -/
theorem readStoresReceivedBytes : Obligations.ReadStoresReceivedBytes := by
  unfold Obligations.ReadStoresReceivedBytes
  intro s r h hs hop hp hok hpos hmax hlen
  have hread : readOk s.rxMax r = true := readOk_iff.mpr ⟨hok, by rwa [h.rxMax_toNat hs hop], hlen⟩
  obtain ⟨t, hstep, ht⟩ := h.completeStep_rx hs hp hread
  refine ⟨t, hstep, ?_⟩
  rcases onRead_next ht with ⟨-, hzero, -⟩ | ⟨-, -, -, rfl⟩ | ⟨htest, -, -⟩
  · rw [hzero] at hpos
    cases hpos
  · rw [received_eq]
    exact ⟨rfl, fun a => Memory.get_setMany _ _ a _⟩
  · exact absurd (hop.symm.trans htest) (by decide)

/-- Settles O36: the answered state stores the bytes from DATA[0] and finishes with their count. -/
theorem testReadCompletesWithItsCount : Obligations.TestReadCompletesWithItsCount := by
  unfold Obligations.TestReadCompletesWithItsCount
  intro s r h hs hop hp hok hmax hlen
  have hnot : s.opl ≠ 1 := by rw [hop]; decide
  have hrx : s.rxMax = s.total := if_neg hnot
  have hread : readOk s.rxMax r = true := readOk_iff.mpr ⟨hok, by rwa [hrx], hlen⟩
  obtain ⟨t, hstep, ht⟩ := h.completeStep_rx hs hp hread
  refine ⟨t, hstep, ?_⟩
  rcases onRead_next ht with ⟨hone, -, -⟩ | ⟨hone, -, -, -⟩ | ⟨-, -, rfl⟩
  · exact absurd hone hnot
  · exact absurd hone hnot
  · refine ⟨rfl, fun a => ?_⟩
    have hget := Memory.get_setMany s.data 0 a r.bytes
    simp only [Nat.zero_le, true_and, Nat.zero_add, Nat.sub_zero] at hget
    exact hget

/-- In the receive loop of a good READ the zero-read counter has room for one more (R164). -/
theorem State.Inv.zeroCnt_add {s : State} {k : Nat} (h : s.Inv) (hk : s.zeroCnt.toNat + k ≤ s.params.zeroLimit + 1) :
    (s.zeroCnt + BitVec.ofNat 8 k).toNat = s.zeroCnt.toNat + k := by
  obtain ⟨-, -, hlimit, -⟩ := h.params
  rw [BitVec.toNat_add, BitVec.toNat_ofNat]
  omega

theorem onRead_of_zero {s : State} {r : Resp} (hop : s.opl = 1) (hn : r.count = 0) : onRead r s = .next (onZeroRead s) := by
  rw [onRead, if_pos hop, if_pos hn]

/-- A zero read in a good receive loop, in one update (R164). -/
theorem State.Inv.onZeroRead_eq {s : State} (h : s.Inv) (hs : s.st = .rx) (hop : s.opl = 1) :
    Machine.onZeroRead s = if s.params.zeroLimit < s.zeroCnt.toNat + 1
      then { s with zeroCnt := s.zeroCnt + 1, err := .timedOut, done := true, st := .idle }
      else { s with zeroCnt := s.zeroCnt + 1 } := by
  obtain ⟨-, hzero⟩ := h.rx_range hs hop
  have hadd : (s.zeroCnt + 1).toNat = s.zeroCnt.toNat + 1 := h.zeroCnt_add (k := 1) (by omega)
  simp only [Machine.onZeroRead, hadd, State.raiseError, State.goto, ← hs]

/-- Settles O34: `State.Inv.onZeroRead_eq`. -/
theorem zeroReadCountsOrTimesOut : Obligations.ZeroReadCountsOrTimesOut := by
  unfold Obligations.ZeroReadCountsOrTimesOut
  intro s r h hs hop hp hok hn hbytes t
  have hread : readOk s.rxMax r = true := readOk_iff.mpr ⟨hok, by rw [hn]; exact Nat.zero_le _, by rw [hn, hbytes]; rfl⟩
  rw [completeStep_of_rx hs hp hread, onRead_of_zero (s := s.completed .read r) hop hn,
    (h.completed .read r).onZeroRead_eq hs hop]
  rfl

/-! ## Who moves the lines (R169) -/

/-- RX moves no line (R163 to R165). -/
theorem onRead_lines {r : Resp} {s t : State} (h : onRead r s = .next t) : t.dtr = s.dtr ∧ t.rts = s.rts := by
  rcases onRead_next h with ⟨-, -, rfl⟩ | ⟨-, -, -, rfl⟩ | ⟨-, -, rfl⟩
  · rw [onZeroRead_frame]
    exact ⟨rfl, rfl⟩
  · rw [received_frame]
    exact ⟨rfl, rfl⟩
  · exact ⟨rfl, rfl⟩

/-- Of the "on" clauses only the OK ones of the four SET states move a line, each its own and to its request's value (R155, R156, R159,
R160). -/
theorem onResp_lines {r : Resp} {s t : State} (hop : s.st.op ≠ none) (h : onResp r s = .next t) :
    (t.dtr = s.dtr ∧ t.rts = s.rts) ∨
    (r.ok = true ∧ t.rts = s.rts ∧ (s.st = .dtrOn ∧ t.dtr = true ∨ s.st = .dtrOff ∧ t.dtr = false)) ∨
    (r.ok = true ∧ t.dtr = s.dtr ∧ (s.st = .rtsOn ∧ t.rts = true ∨ s.st = .rtsOff ∧ t.rts = false)) := by
  cases hok : r.ok with
  | false =>
    cases (onResp_of_rejected hop (accepts_of_not_ok hok)).symm.trans h
    exact .inl ⟨rfl, rfl⟩
  | true =>
    rcases onResp_next h with ⟨-, rfl⟩ | ⟨-, rfl⟩ | ⟨hs, rfl⟩ | ⟨hs, rfl⟩ | ⟨-, -, rfl⟩ | ⟨-, rfl⟩ | ⟨hs, rfl⟩ | ⟨hs, hoff⟩ |
      ⟨-, rfl⟩ | ⟨-, -, hread⟩
    · exact .inl ⟨rfl, rfl⟩
    · exact .inl ⟨rfl, rfl⟩
    · exact .inr (.inl ⟨rfl, rfl, .inl ⟨hs, rfl⟩⟩)
    · exact .inr (.inr ⟨rfl, rfl, .inl ⟨hs, rfl⟩⟩)
    · exact .inl ⟨rfl, rfl⟩
    · exact .inl ⟨rfl, rfl⟩
    · exact .inr (.inr ⟨rfl, rfl, .inr ⟨hs, rfl⟩⟩)
    · obtain ⟨hdtr, hrts⟩ := onDtrOff_lines hoff
      exact .inr (.inl ⟨rfl, hrts, .inr ⟨hs, hdtr⟩⟩)
    · exact .inl ⟨rfl, rfl⟩
    · exact .inl (onRead_lines hread)

theorem State.SameBlock.lines_eq {s t : State} (h : s.SameBlock t) : t.dtr = s.dtr ∧ t.rts = s.rts := by
  rw [h]
  exact ⟨rfl, rfl⟩

theorem InstrEffect.lines_eq {i : Instr} {s u : State} (h : InstrEffect i s u) : u.dtr = s.dtr ∧ u.rts = s.rts := by
  rcases h.frame with ⟨r, -, -, -, rfl⟩ | hframe
  · exact ⟨rfl, rfl⟩
  · rw [hframe]
    exact ⟨rfl, rfl⟩

/-- A move but reset leaves both lines alone, or is the OK completion of a SET request that moves its own line. -/
theorem MoveEffect.lines_cases {a : Act} {s t : State} (h : MoveEffect s a t) (ha : a ≠ .reset) :
    (t.dtr = s.dtr ∧ t.rts = s.rts) ∨
    ∃ r, a = .complete r ∧ r.ok = true ∧ s.pend = s.st.op ∧
      (t.rts = s.rts ∧ (s.st = .dtrOn ∧ t.dtr = true ∨ s.st = .dtrOff ∧ t.dtr = false) ∨
        t.dtr = s.dtr ∧ (s.st = .rtsOn ∧ t.rts = true ∨ s.st = .rtsOff ∧ t.rts = false)) := by
  cases h with
  | disabled => exact .inl ⟨rfl, rfl⟩
  | judged _ hsame => exact .inl hsame.lines_eq
  | instr c rest i _ hprog hdec heff =>
    obtain ⟨u, hu, hsame⟩ := heff
    obtain ⟨hdtr, hrts⟩ := hu.lines_eq
    obtain ⟨hdtr', hrts'⟩ := hsame.lines_eq
    exact .inl ⟨hdtr'.trans hdtr, hrts'.trans hrts⟩
  | chunk _ hs ht =>
    rw [chunkStep_frame ht]
    exact .inl ⟨rfl, rfl⟩
  | paced =>
    rw [afterPace_frame]
    exact .inl ⟨rfl, rfl⟩
  | issue => exact .inl ⟨rfl, rfl⟩
  | completion r op _ hp hs ht =>
    have hne : s.st.op ≠ none := by rw [hs]; exact nofun
    rcases onResp_lines (s := s.completed op r) hne ht with hkept | ⟨hok, hrts, hdtr⟩ | ⟨hok, hdtr, hrts⟩
    · exact .inl hkept
    · exact .inr ⟨r, rfl, hok, hp.trans hs.symm, .inl ⟨hrts, hdtr⟩⟩
    · exact .inr ⟨r, rfl, hok, hp.trans hs.symm, .inr ⟨hdtr, hrts⟩⟩
  | clock => exact .inl ⟨rfl, rfl⟩
  | reset => exact absurd rfl ha

/-- Settles O58, by `MoveEffect.lines_cases`: the request outstanding is the one that the state awaits. -/
theorem linesChangeOnlyAtSetCompletions : Obligations.LinesChangeOnlyAtSetCompletions := by
  unfold Obligations.LinesChangeOnlyAtSetCompletions
  intro s t a ha hmove
  rcases (runAct_effect hmove).lines_cases ha with ⟨hdtr, hrts⟩ | ⟨r, rfl, hok, hpend, ⟨hrts, hset⟩ | ⟨hdtr, hset⟩⟩
  · exact ⟨fun hne => absurd hdtr hne, fun hne => absurd hrts hne⟩
  · have hp : s.pend = some .setDtr := by
      rcases hset with ⟨hs, -⟩ | ⟨hs, -⟩ <;> rw [hpend, hs] <;> rfl
    exact ⟨fun _ => ⟨r, rfl, hok, hp, hset⟩, fun hne => absurd hrts hne⟩
  · have hp : s.pend = some .setRts := by
      rcases hset with ⟨hs, -⟩ | ⟨hs, -⟩ <;> rw [hpend, hs] <;> rfl
    exact ⟨fun hne => absurd hdtr hne, fun _ => ⟨r, rfl, hok, hp, hset⟩⟩

end Sys2Proof.Machine
end

section
/-!
PROOFS, family 41_transaction_executor.md: runs of requests, each with its completion (R150, R153): the zero reads of the receive loop
(R164) and the Write transaction (R170).
-/

namespace Sys2Proof.Machine

/-! ## Runs of requests (R150, R153) -/

/-- An OK completion that carries neither a count nor bytes. -/
abbrev okResp : Resp := ⟨true, 0, []⟩

/-- The moves of `k` requests that are completed so, one after the other. -/
def okMoves (k : Nat) : List Act := (List.replicate k [Act.seq, .complete okResp]).flatten

theorem flatten_replicate_succ_last {α : Type} (l : List α) (k : Nat) :
    (List.replicate (k + 1) l).flatten = (List.replicate k l).flatten ++ l := by
  simp only [List.replicate_succ', List.flatten_append, List.flatten_singleton]

theorem core_step (s : State) : Sys2Proof.core.step s = step s := rfl

theorem core_run_succ_next {n : Nat} {s t : State} (h : Sys2Proof.core.run (n + 1) s = .next t) :
    ∃ u, step s = .next u ∧ Sys2Proof.core.run n u = .next t := by
  cases hstep : step s with
  | next u => exact ⟨u, rfl, (core_run_of_step hstep).symm.trans h⟩
  | fault | refused =>
    have hstop := hstep
    rw [← core_step] at hstop
    simp only [Host.Core.run, hstop] at h
    cases h

/-- A good state stays good along a run. -/
theorem State.Inv.run {n : Nat} {s t : State} (h : s.Inv) (hrun : Sys2Proof.core.run n s = .next t) : t.Inv := by
  induction n generalizing s with
  | zero => cases hrun; exact h
  | succ n ih =>
    obtain ⟨u, hstep, hrest⟩ := core_run_succ_next hrun
    exact ih (everyStepKeepsTheInvariant s u h hstep) hrest

/-- The state in which the "on" clause runs when a request and its completion were the two moves taken. -/
def State.exchanged (s : State) (q : Req) (r : Resp) (rest : List Act) : State :=
  { s with pend := none, sched := rest, log := s.log ++ [.issue q, .complete q.op r] }

theorem exchanged_eq (s : State) (q : Req) (r : Resp) (rest : List Act) :
    ((s.issued q).scheduled rest).completed q.op r = s.exchanged q r rest := by
  simp only [State.completed, State.exchanged, State.issued, State.pending, State.logged, State.scheduled,
    List.append_assoc, List.singleton_append]

theorem State.Inv.exchanged {s : State} (h : s.Inv) (q : Req) (r : Resp) (rest : List Act) : (s.exchanged q r rest).Inv :=
  { h with port := ⟨h.used, .inl rfl⟩ }

/-- A request and its completion, scheduled one after the other, are two steps (R150). -/
theorem run_of_exchange {s t : State} {q : Req} {r : Resp} {rest : List Act} (n : Nat) (hp : s.pend = none)
    (hc : s.cannotIssue = none) (hq : s.request = some q) (hsched : s.sched = .seq :: .complete r :: rest)
    (ht : onResp r (s.exchanged q r rest) = .next t) : Sys2Proof.core.run (n + 2) s = Sys2Proof.core.run n t := by
  have hop : s.st.op = some q.op := request_op hq
  have hused : s.st.isUnused = false := St.used_of_inTransaction (St.inTransaction_of_op hop)
  have hissue : step s = .next ((s.scheduled (.complete r :: rest)).issued q) := by
    rw [step_of_sched hused hsched]
    exact seqStep_issues (s := s.scheduled (.complete r :: rest)) hp hc hq
  have hcomplete : step ((s.scheduled (.complete r :: rest)).issued q) = .next t := by
    calc step ((s.scheduled (.complete r :: rest)).issued q)
        = completeStep r ((s.issued q).scheduled rest) :=
          step_of_sched (s := (s.scheduled (.complete r :: rest)).issued q) hused rfl
      _ = onResp r (((s.issued q).scheduled rest).completed q.op r) := completeStep_of_pend r rfl hop
      _ = .next t := by rw [exchanged_eq, ht]
  rw [core_run_of_step hissue, core_run_of_step hcomplete]

/-- The exchange of a state other than TX and RX, whose ST is known. -/
theorem run_of_control {s t : State} {x : St} {q : Req} {r : Resp} {rest : List Act} (n : Nat) (hs : s.st = x)
    (hp : s.pend = none) (htx : x ≠ .tx) (hrx : x ≠ .rx) (hq : (s.goto x).request = some q)
    (hsched : s.sched = .seq :: .complete r :: rest) (ht : onResp r ((s.goto x).exchanged q r rest) = .next t) :
    Sys2Proof.core.run (n + 2) s = Sys2Proof.core.run n t := by
  subst hs
  exact run_of_exchange n hp (cannotIssue_of_ne htx hrx) hq hsched ht

/-! ## The receive loop's zero reads (R164) -/

/-- The READ of a READ's receive loop and its completion. -/
theorem State.Inv.run_of_read {s t : State} {r : Resp} {rest : List Act} (n : Nat) (h : s.Inv) (hs : s.st = .rx)
    (hop : s.opl = 1) (hp : s.pend = none) (hsched : s.sched = .seq :: .complete r :: rest)
    (ht : Machine.onResp r (s.exchanged (.read (s.csize - s.rxIdx)) r rest) = .next t) :
    Sys2Proof.core.run (n + 2) s = Sys2Proof.core.run n t := by
  have hq : s.request = some (.read (s.csize - s.rxIdx)) := by rw [State.request, hs, State.rxMax, if_pos hop]
  exact run_of_exchange n hp h.cannotIssue_none hq hsched ht

/-- The "on" clause of a zero read (R164). -/
theorem State.Inv.onResp_zero {s : State} (h : s.Inv) (hs : s.st = .rx) (hop : s.opl = 1) :
    Machine.onResp okResp s = .next (if s.params.zeroLimit < s.zeroCnt.toNat + 1
      then { s with zeroCnt := s.zeroCnt + 1, err := .timedOut, done := true, st := .idle }
      else { s with zeroCnt := s.zeroCnt + 1 }) := by
  rw [onResp_of_rx hs (readOk_iff.mpr ⟨rfl, Nat.zero_le _, rfl⟩), onRead_of_zero hop rfl, h.onZeroRead_eq hs hop]

/-- The log of `k` zero reads that each ask for `max` bytes. -/
def zeroReadEvents (max : Word) (k : Nat) : List Event :=
  (List.replicate k [Event.issue (.read max), .complete .read okResp]).flatten

/-- The receive loop after `k` zero reads, none of which timed out. -/
def State.polled (s : State) (k : Nat) (rest : List Act) : State := { s with
  pend := none, zeroCnt := s.zeroCnt + BitVec.ofNat 8 k, sched := rest
  log := s.log ++ zeroReadEvents (s.csize - s.rxIdx) k }

theorem polled_zero {s : State} (hp : s.pend = none) : s.polled 0 s.sched = s := by
  simp only [State.polled, zeroReadEvents, List.replicate_zero, List.flatten_nil, List.append_nil, BitVec.add_zero, ← hp]

theorem polled_succ (s : State) (k : Nat) (rest acts : List Act) :
    (s.polled 1 rest).polled k acts = s.polled (k + 1) acts := by
  have hcount : s.zeroCnt + BitVec.ofNat 8 1 + BitVec.ofNat 8 k = s.zeroCnt + BitVec.ofNat 8 (k + 1) := by
    rw [Nat.add_comm k 1, BitVec.ofNat_add, BitVec.add_assoc]
  have hlog : (s.polled 1 rest).log ++ zeroReadEvents (s.csize - s.rxIdx) k =
      s.log ++ zeroReadEvents (s.csize - s.rxIdx) (k + 1) := List.append_assoc _ _ _
  simp only [State.polled] at hlog ⊢
  rw [hcount, hlog]

/-- One zero read that does not time out. -/
theorem State.Inv.run_of_poll {s : State} {rest : List Act} (n : Nat) (h : s.Inv) (hs : s.st = .rx) (hop : s.opl = 1)
    (hp : s.pend = none) (hzero : s.zeroCnt.toNat + 1 ≤ s.params.zeroLimit)
    (hsched : s.sched = .seq :: .complete okResp :: rest) :
    Sys2Proof.core.run (n + 2) s = Sys2Proof.core.run n (s.polled 1 rest) := by
  refine h.run_of_read n hs hop hp hsched ?_
  rw [(h.exchanged _ _ _).onResp_zero hs hop]
  exact congrArg Host.Outcome.next (if_neg (Nat.not_lt.mpr hzero))

/-- The zero read past ZERO_LIMIT. -/
theorem State.Inv.run_of_timeout {s : State} {rest : List Act} (n : Nat) (h : s.Inv) (hs : s.st = .rx) (hop : s.opl = 1)
    (hp : s.pend = none) (hfull : s.zeroCnt.toNat = s.params.zeroLimit)
    (hsched : s.sched = .seq :: .complete okResp :: rest) :
    Sys2Proof.core.run (n + 2) s =
      Sys2Proof.core.run n { s.polled 1 rest with err := .timedOut, done := true, st := .idle } := by
  refine h.run_of_read n hs hop hp hsched ?_
  rw [(h.exchanged _ _ _).onResp_zero hs hop]
  exact congrArg Host.Outcome.next (if_pos (Nat.lt_add_one_of_le hfull.ge))

/-- An ERR in the place of a zero read (R167). -/
theorem State.Inv.run_of_rejectedRead {s : State} {r : Resp} {rest : List Act} (n : Nat) (h : s.Inv) (hs : s.st = .rx)
    (hop : s.opl = 1) (hp : s.pend = none) (hok : r.ok = false) (hsched : s.sched = .seq :: .complete r :: rest) :
    Sys2Proof.core.run (n + 2) s =
      Sys2Proof.core.run n ((s.exchanged (.read (s.csize - s.rxIdx)) r rest).raiseError .io) := by
  have hne : s.st.op ≠ none := by rw [hs]; exact nofun
  exact h.run_of_read n hs hop hp hsched (onResp_of_rejected (s := s.exchanged _ r rest) hne (accepts_of_not_ok hok))

/-- As many zero reads as ZERO_LIMIT leaves room for are polled through. -/
theorem State.Inv.run_of_polls {s : State} {k : Nat} {acts : List Act} (n : Nat) (h : s.Inv) (hs : s.st = .rx)
    (hop : s.opl = 1) (hp : s.pend = none) (hk : s.zeroCnt.toNat + k ≤ s.params.zeroLimit)
    (hsched : s.sched = okMoves k ++ acts) :
    Sys2Proof.core.run (2 * k + n) s = Sys2Proof.core.run n (s.polled k acts) := by
  induction k generalizing s with
  | zero =>
    have hacts : acts = s.sched := hsched.symm
    rw [hacts, polled_zero hp, Nat.mul_zero, Nat.zero_add]
  | succ k ih =>
    have hpoll (m : Nat) := h.run_of_poll m hs hop hp (by omega) hsched
    have hzero : (s.polled 1 (okMoves k ++ acts)).zeroCnt.toNat = s.zeroCnt.toNat + 1 := h.zeroCnt_add (by omega)
    have hinv : (s.polled 1 (okMoves k ++ acts)).Inv := h.run (hpoll 0)
    calc Sys2Proof.core.run (2 * (k + 1) + n) s
        = Sys2Proof.core.run (2 * k + n + 2) s := by rw [Nat.mul_add_one, Nat.add_right_comm]
      _ = Sys2Proof.core.run (2 * k + n) (s.polled 1 (okMoves k ++ acts)) := hpoll (2 * k + n)
      _ = Sys2Proof.core.run n ((s.polled 1 (okMoves k ++ acts)).polled k acts) :=
          ih hinv hs hop rfl (by rw [hzero]; exact (Nat.add_right_comm _ _ _).trans_le hk) rfl
      _ = Sys2Proof.core.run n (s.polled (k + 1) acts) := by rw [polled_succ]

/-- Settles O35: `run_of_polls`, and one more exchange where the READ ends: the zero read past ZERO_LIMIT, or an ERR. -/
theorem timeoutAfterExactlyElevenZeroReads : Obligations.TimeoutAfterExactlyElevenZeroReads := by
  unfold Obligations.TimeoutAfterExactlyElevenZeroReads
  intro s k acts h hs hop hp hzero hsched
  have hstart : s.zeroCnt.toNat = 0 := by rw [hzero]; rfl
  have hpolls {j : Nat} {rest : List Act} (n : Nat) (hj : j ≤ s.params.zeroLimit)
      (hmoves : s.sched = okMoves j ++ rest) :
      Sys2Proof.core.run (2 * j + n) s = Sys2Proof.core.run n (s.polled j rest) :=
    h.run_of_polls n hs hop hp (by omega) hmoves
  have hcount {j : Nat} (rest : List Act) (hj : j ≤ s.params.zeroLimit) : (s.polled j rest).zeroCnt.toNat = j :=
    (h.zeroCnt_add (by omega)).trans (by omega)
  refine ⟨fun hk => ?polls, fun hk => ?timeout, fun hk r rest hok hacts => ?err⟩
  case polls => exact ⟨_, hpolls 0 hk hsched, hs, hcount acts hk, rfl, rfl, rfl, rfl, rfl⟩
  case timeout =>
    subst hk
    have hmoves : s.sched = okMoves s.params.zeroLimit ++ (.seq :: .complete okResp :: acts) := by
      rw [hsched, flatten_replicate_succ_last, List.append_assoc]
      rfl
    have hlast := (h.run (hpolls 0 le_rfl hmoves)).run_of_timeout 0 hs hop rfl (hcount _ le_rfl) rfl
    refine ⟨_, (hpolls 2 le_rfl hmoves).trans hlast, rfl, rfl, rfl, rfl, rfl, rfl, rfl, rfl, ?_⟩
    rw [flatten_replicate_succ_last, ← List.append_assoc]
    rfl
  case err =>
    subst hacts
    have hlast := (h.run (hpolls 0 hk hsched)).run_of_rejectedRead 0 hs hop rfl hok rfl
    exact ⟨_, (hpolls 2 hk hsched).trans hlast, rfl, rfl, rfl, rfl⟩

/-! ## The control-line states (R154 to R160) -/

/-- An exchange of CLEAR (R154). -/
theorem run_of_clear {s : State} {rest : List Act} (n : Nat) (hs : s.st = .clear) (hp : s.pend = none)
    (hsched : s.sched = .seq :: .complete okResp :: rest) :
    Sys2Proof.core.run (n + 2) s = Sys2Proof.core.run n ((s.exchanged .clear okResp rest).goto .dtrOn) :=
  run_of_control n hs hp nofun nofun rfl hsched rfl

/-- An exchange of DTR_ON (R155). -/
theorem run_of_dtrOn {s : State} {rest : List Act} (n : Nat) (hs : s.st = .dtrOn) (hp : s.pend = none)
    (hsched : s.sched = .seq :: .complete okResp :: rest) : Sys2Proof.core.run (n + 2) s =
      Sys2Proof.core.run n { s.exchanged (.setDtr true) okResp rest with dtr := true, st := .rtsOn } :=
  run_of_control n hs hp nofun nofun rfl hsched rfl

/-- An exchange of RTS_ON (R156). -/
theorem run_of_rtsOn {s : State} {rest : List Act} (n : Nat) (hs : s.st = .rtsOn) (hp : s.pend = none)
    (hsched : s.sched = .seq :: .complete okResp :: rest) : Sys2Proof.core.run (n + 2) s =
      Sys2Proof.core.run n { s.exchanged (.setRts true) okResp rest with rts := true, st := .tx } :=
  run_of_control n hs hp nofun nofun rfl hsched rfl

/-- An exchange of FLUSH (R158). -/
theorem run_of_flush {s : State} {rest : List Act} (n : Nat) (hs : s.st = .flush) (hp : s.pend = none)
    (hsched : s.sched = .seq :: .complete okResp :: rest) :
    Sys2Proof.core.run (n + 2) s = Sys2Proof.core.run n ((s.exchanged .flush okResp rest).goto .rtsOff) :=
  run_of_control n hs hp nofun nofun rfl hsched rfl

/-- An exchange of RTS_OFF (R159). -/
theorem run_of_rtsOff {s : State} {rest : List Act} (n : Nat) (hs : s.st = .rtsOff) (hp : s.pend = none)
    (hsched : s.sched = .seq :: .complete okResp :: rest) : Sys2Proof.core.run (n + 2) s =
      Sys2Proof.core.run n { s.exchanged (.setRts false) okResp rest with rts := false, st := .dtrOff } :=
  run_of_control n hs hp nofun nofun rfl hsched rfl

/-- An exchange of a WRITE's DTR_OFF (R160, R166). -/
theorem run_of_dtrOff {s : State} {rest : List Act} (n : Nat) (hs : s.st = .dtrOff) (hop : s.opl = 2) (hp : s.pend = none)
    (hsched : s.sched = .seq :: .complete okResp :: rest) : Sys2Proof.core.run (n + 2) s = Sys2Proof.core.run n
      { s.exchanged (.setDtr false) okResp rest with dtr := false, count := s.count + s.csize, st := .pace } :=
  run_of_control n hs hp nofun nofun rfl hsched
    (onDtrOff_of_write (s := (s.goto .dtrOff).exchanged (.setDtr false) okResp rest) hop)

/-! ## A Write transaction (R153, R157, R166, R170) -/

/-- TX is reached from CLEAR, by CLEAR, SET_DTR(1) and SET_RTS(1). -/
def State.toTx (s : State) (rest : List Act) : State := { s with
  pend := none, sched := rest, dtr := true, rts := true, st := .tx
  log := s.log ++ [.issue .clear, .complete .clear okResp, .issue (.setDtr true), .complete .setDtr okResp,
    .issue (.setRts true), .complete .setRts okResp] }

/-- TX goes on after a WRITE of which the transport took `k` bytes. -/
def State.wrote (s : State) (k : Word) (rest : List Act) : State := { s with
  pend := none, sched := rest, txIdx := s.txIdx + k.setWidth 8, st := .tx
  log := s.log ++ [.issue (.write s.unsent), .complete .write ⟨true, k, []⟩] }

/-- FLUSH is reached from TX, by the WRITEs of `ks` that send what is left of FRAME. -/
def State.toFlush (s : State) (ks : List Word) (rest : List Act) : State := { s with
  pend := none, sched := rest, txIdx := s.flen, st := .flush, log := s.log ++ writeEvents s.unsent ks }

/-- PACE of a WRITE is reached from FLUSH, by FLUSH, SET_RTS(0) and SET_DTR(0). -/
def State.toPace (s : State) (rest : List Act) : State := { s with
  pend := none, sched := rest, rts := false, dtr := false, count := s.count + s.csize, st := .pace
  log := s.log ++ [.issue .flush, .complete .flush okResp, .issue (.setRts false), .complete .setRts okResp,
    .issue (.setDtr false), .complete .setDtr okResp] }

theorem run_to_tx {s : State} {rest : List Act} (n : Nat) (hs : s.st = .clear) (hp : s.pend = none)
    (hsched : s.sched = okMoves 3 ++ rest) : Sys2Proof.core.run (n + 6) s = Sys2Proof.core.run n (s.toTx rest) := by
  rw [run_of_clear (n + 4) hs hp hsched, run_of_dtrOn (n + 2) rfl rfl rfl, run_of_rtsOn n rfl rfl rfl]
  simp only [State.toTx, State.exchanged, State.goto, List.append_assoc, List.cons_append, List.nil_append]
  rfl

theorem run_to_pace {s : State} {rest : List Act} (n : Nat) (hs : s.st = .flush) (hop : s.opl = 2) (hp : s.pend = none)
    (hsched : s.sched = okMoves 3 ++ rest) : Sys2Proof.core.run (n + 6) s = Sys2Proof.core.run n (s.toPace rest) := by
  rw [run_of_flush (n + 4) hs hp hsched, run_of_rtsOff (n + 2) rfl rfl rfl, run_of_dtrOff n rfl (by exact hop) rfl rfl]
  simp only [State.toPace, State.exchanged, State.goto, List.append_assoc, List.cons_append, List.nil_append]
  rfl

/-- In TX of a good state a byte of the frame is left (R157). -/
theorem State.Inv.tx_left {s : State} (h : s.Inv) (hs : s.st = .tx) : s.txIdx.toNat < s.flen.toNat := by
  obtain ⟨-, -, hsending⟩ := h.frame
  obtain ⟨-, hleft, -⟩ := hsending (by rw [hs]; rfl)
  exact hleft

/-- An OK WRITE of TX. -/
theorem State.Inv.run_of_write {s t : State} {k : Word} {rest : List Act} (n : Nat) (h : s.Inv) (hs : s.st = .tx)
    (hp : s.pend = none) (hok : writeOk s.unsent.length ⟨true, k, []⟩ = true)
    (hsched : s.sched = .seq :: .complete ⟨true, k, []⟩ :: rest)
    (ht : (s.exchanged (.write s.unsent) ⟨true, k, []⟩ rest).sent k = t) :
    Sys2Proof.core.run (n + 2) s = Sys2Proof.core.run n t := by
  have hq : s.request = some (.write s.unsent) := by rw [State.request, hs]
  have hsent := onResp_of_tx (s := s.exchanged (.write s.unsent) ⟨true, k, []⟩ rest) hs hok
  exact run_of_exchange n hp h.cannotIssue_none hq hsched (hsent.trans (congrArg Host.Outcome.next ht))

/-- A WRITE that takes the rest of FRAME is the last. -/
theorem sent_of_whole {s : State} {k : Word} (acts : List Act) (h : s.txIdx + k.setWidth 8 = s.flen) :
    (s.exchanged (.write s.unsent) ⟨true, k, []⟩ acts).sent k = s.toFlush [k] acts := by
  simp only [State.sent, State.exchanged, h, if_true]
  rfl

theorem sent_of_part {s : State} {k : Word} (rest : List Act) (h : s.txIdx + k.setWidth 8 ≠ s.flen) :
    (s.exchanged (.write s.unsent) ⟨true, k, []⟩ rest).sent k = s.wrote k rest := by
  simp only [State.sent, State.exchanged, h, if_false]
  rfl

/-- After a WRITE in part the others send what it left. -/
theorem toFlush_wrote {s : State} {k : Word} (ks : List Word) (rest acts : List Act)
    (hadd : (s.txIdx + k.setWidth 8).toNat = s.txIdx.toNat + k.toNat) :
    (s.wrote k rest).toFlush ks acts = s.toFlush (k :: ks) acts := by
  have hunsent : (s.wrote k rest).unsent = s.unsent.drop k.toNat := by
    simp only [State.unsent, State.wrote, hadd, List.drop_drop]
  rw [State.toFlush, hunsent]
  simp only [State.toFlush, State.wrote, writeEvents, List.append_assoc, List.cons_append, List.nil_append]

/-- A transport that takes at least a byte each time takes none when nothing is left. -/
theorem eq_nil_of_sum_eq_zero {ks : List Word} (hpos : ∀ k ∈ ks, 1 ≤ k.toNat) (hsum : (ks.map BitVec.toNat).sum = 0) :
    ks = [] := by
  cases ks with
  | nil => rfl
  | cons k ks =>
    have hk := hpos k List.mem_cons_self
    rw [List.map_cons, List.sum_cons] at hsum
    omega

/-- The WRITEs of TX, however the transport splits what is left of the frame, lead to FLUSH (R157). -/
theorem State.Inv.run_to_flush {s : State} {ks : List Word} {acts : List Act} (n : Nat) (h : s.Inv) (hs : s.st = .tx)
    (hp : s.pend = none) (hpos : ∀ k ∈ ks, 1 ≤ k.toNat)
    (hsum : (ks.map BitVec.toNat).sum = s.flen.toNat - s.txIdx.toNat) (hsched : s.sched = writeMoves ks ++ acts) :
    Sys2Proof.core.run (2 * ks.length + n) s = Sys2Proof.core.run n (s.toFlush ks acts) := by
  induction ks generalizing s with
  | nil =>
    have hleft := h.tx_left hs
    rw [List.map_nil, List.sum_nil] at hsum
    omega
  | cons k ks ih =>
    obtain ⟨hk, hks⟩ := List.forall_mem_cons.mp hpos
    rw [List.map_cons, List.sum_cons] at hsum
    have hok : writeOk s.unsent.length ⟨true, k, []⟩ = true :=
      writeOk_iff.mpr ⟨rfl, hk, by rw [h.unsent_length]; exact hsum ▸ Nat.le_add_right _ _⟩
    have hadd : (s.txIdx + k.setWidth 8).toNat = s.txIdx.toNat + k.toNat := (h.txIdx_add hok).left
    by_cases hall : s.txIdx + k.setWidth 8 = s.flen
    · have hdone : ks = [] := eq_nil_of_sum_eq_zero hks (by rw [← hall, hadd] at hsum; omega)
      subst hdone
      rw [Nat.add_comm]
      exact h.run_of_write n hs hp hok hsched (sent_of_whole acts hall)
    · have hwrite (m : Nat) := h.run_of_write m hs hp hok hsched (sent_of_part (writeMoves ks ++ acts) hall)
      have hlen : 2 * (k :: ks).length + n = 2 * ks.length + n + 2 := by rw [List.length_cons]; omega
      have hleft : (ks.map BitVec.toNat).sum = s.flen.toNat - (s.txIdx + k.setWidth 8).toNat := by rw [hadd]; omega
      rw [hlen, hwrite, ih (h.run (hwrite 0)) rfl rfl hks hleft rfl, toFlush_wrote ks _ acts hadd]

/-- Settles O45: `run_to_tx`, `run_to_flush` and `run_to_pace`, one after the other. -/
theorem writeTransactionIssuesItsRequests : Obligations.WriteTransactionIssuesItsRequests := by
  unfold Obligations.WriteTransactionIssuesItsRequests
  intro s ks acts h hs hop hp hidx hpos hsum ok hsched
  have hmoves : s.sched = okMoves 3 ++ (writeMoves ks ++ (okMoves 3 ++ acts)) := by
    rw [hsched, List.append_assoc, List.append_assoc]
    rfl
  have htx (n : Nat) := run_to_tx n hs hp hmoves
  have hflush := (h.run (htx 0)).run_to_flush 6 rfl rfl hpos (hsum.trans (by rw [State.toTx, hidx]; rfl)) rfl
  have hpace := run_to_pace (s := (s.toTx (writeMoves ks ++ (okMoves 3 ++ acts))).toFlush ks (okMoves 3 ++ acts)) 0
    rfl hop rfl rfl
  have hunsent : s.unsent = s.frame := by rw [h.unsent_eq, hidx]; rfl
  refine ⟨_, (htx _).trans (hflush.trans hpace), rfl, rfl, rfl, rfl, rfl, rfl, rfl, ?_⟩
  rw [← hunsent]
  rfl

end Sys2Proof.Machine
end

section
/-!
PROOFS, family 42_chunked_engine.md: the two ends of the chunk loop, a START that has nothing to transfer (R202) and pacing (R213,
R214).
-/

namespace Sys2Proof.Machine

/-! ## A START of length zero (R202) -/

/-- Of the acceptance checks only the second applies to a READ or a WRITE of length zero: ADDR and THROUGHPUT are checked after it
(R201, R202). -/
theorem startCheck_zeroLength {opl : BitVec 2} (hop : opl = 1 ∨ opl = 2) (p : Params) (al throughput : Word) :
    startCheck p opl al 0 throughput = .nothing := by
  have hne3 : opl ≠ 3 := by rcases hop with rfl | rfl <;> decide
  have hne0 : opl ≠ 0 := by rcases hop with rfl | rfl <;> decide
  rw [startCheck_eq, if_neg hne3, if_pos ⟨hne0, rfl⟩]

/-- A zero-length START of an idle block latches and sets DONE, and no more. -/
theorem accept_zeroLength {s : State} (hs : s.st = .idle) (hop : s.op = 1 ∨ s.op = 2) (hlen : s.len = 0) :
    s.accept = { s.latched with done := true } := by
  rw [accept_of_idle hs, hlen, startCheck_zeroLength hop]
  rfl

/-- The START rows of READ and WRITE with LEN = 0, as whole next states (R106, R202). -/
theorem exec_startTransfer_zeroLength {s : State} {irqEn : Bool} {r : BitVec 2 × Instr} (hs : s.st = .idle)
    (hlen : s.len = 0) (hr : r ∈ [((1 : BitVec 2), Instr.startRead irqEn), (2, .startWrite irqEn)]) :
    exec r.2 s =
      .next (State.answered { State.latched { s with op := r.1, irqEn := irqEn } with done := true } .written) := by
  have hop : r.1 = 1 ∨ r.1 = 2 := by
    simp only [List.mem_cons, List.not_mem_nil, or_false] at hr
    exact hr.imp (congrArg Prod.fst) (congrArg Prod.fst)
  have hrow : r ∈ [((0 : BitVec 2), Instr.startTest irqEn), (1, .startRead irqEn), (2, .startWrite irqEn),
      (3, .startReserved irqEn)] :=
    List.mem_cons_of_mem _ (List.mem_append_left [(3, Instr.startReserved irqEn)] hr)
  have hstart : s.writeCtrl r.1 irqEn true = State.accept { s with op := r.1, irqEn := irqEn } :=
    requestStart_of_idle (s := { s with op := r.1, irqEn := irqEn }) hs
  rw [exec_startRow hrow, hstart, accept_zeroLength (s := { s with op := r.1, irqEn := irqEn }) hs hop hlen]

/-- Settles O23: the latch clears ERR and XCOUNT, and what it leaves alone holds ST, the log, PEND and DATA. -/
theorem zeroLengthTransferIsNoOp : Obligations.ZeroLengthTransferIsNoOp := by
  unfold Obligations.ZeroLengthTransferIsNoOp
  intro s irqEn hs hlen i hi
  have hrow : ∃ op, (op, i) ∈ [((1 : BitVec 2), Instr.startRead irqEn), (2, .startWrite irqEn)] := by
    simp only [List.mem_cons, List.not_mem_nil, or_false] at hi
    rcases hi with rfl | rfl
    · exact ⟨1, List.mem_cons_self⟩
    · exact ⟨2, List.mem_cons_of_mem _ List.mem_cons_self⟩
  obtain ⟨op, hop⟩ := hrow
  exact ⟨_, exec_startTransfer_zeroLength hs hlen hop, hs, rfl, rfl, rfl, rfl, rfl, rfl⟩

/-! ## PACE (R213, R214) -/

theorem paced_iff (s : State) : s.paced = true ↔ s.tStart.toNat + s.minDur.toNat ≤ s.now.toNat := decide_eq_true_iff

/-- PACE holds before its time (R213). -/
theorem seqStep_of_pace_early {s : State} (hs : s.st = .pace) (h : s.now.toNat < s.tStart.toNat + s.minDur.toNat) :
    seqStep s = .next s := by
  rw [seqStep_of_pace hs, if_neg fun hp => absurd ((paced_iff s).mp hp) (Nat.not_le.mpr h)]

/-- From its time on PACE goes on (R213). -/
theorem seqStep_of_pace_due {s : State} (hs : s.st = .pace) (h : s.tStart.toNat + s.minDur.toNat ≤ s.now.toNat) :
    seqStep s = .next s.afterPace := by
  rw [seqStep_of_pace hs, if_pos ((paced_iff s).mpr h)]

/-- Bytes are left: the next chunk (R214). -/
theorem afterPace_of_lt {s : State} (h : s.count.toNat < s.total.toNat) : s.afterPace = s.goto .chunk := if_pos h

/-- Nothing is left: success (R214, R241). -/
theorem afterPace_of_le {s : State} (h : s.total.toNat ≤ s.count.toNat) : s.afterPace = s.finish s.total :=
  if_neg (Nat.not_lt.mpr h)

/-- Settles O43: the two cases of the sequencer's step in PACE, and the two ways on. -/
theorem paceHoldsThenMovesOn : Obligations.PaceHoldsThenMovesOn := by
  unfold Obligations.PaceHoldsThenMovesOn
  intro s hs
  refine ⟨seqStep_of_pace_early hs, fun hdue hleft => ?next, fun hdue hall => ?success⟩
  case next => rw [seqStep_of_pace_due hs hdue, afterPace_of_lt hleft]; rfl
  case success => rw [seqStep_of_pace_due hs hdue, afterPace_of_le hall]; rfl

/-- No instruction moves ST of a busy block (R201). -/
theorem InstrEffect.st_eq_of_busy {i : Instr} {s u : State} (h : InstrEffect i s u) (hb : s.st ≠ .idle) : u.st = s.st := by
  rw [h.frame_busy hb]

/-- Of all moves but reset only PACE's own exit leaves PACE: instructions keep ST, and PACE has no request that could complete. -/
theorem MoveEffect.paced_of_leaves {a : Act} {s t : State} (h : MoveEffect s a t) (hs : s.st = .pace) (ha : a ≠ .reset)
    (ht : t.st ≠ .pace) : s.paced = true := by
  cases h with
  | paced _ hp => exact hp
  | disabled => exact absurd hs ht
  | judged _ hsame => exact absurd (hsame.st_eq.trans hs) ht
  | instr c rest i _ hprog hdec heff =>
    obtain ⟨u, hu, hsame⟩ := heff
    have hbusy : s.st ≠ .idle := by rw [hs]; decide
    have hst : t.st = s.st := hsame.st_eq.trans (hu.st_eq_of_busy hbusy)
    exact absurd (hst.trans hs) ht
  | chunk _ hs' => rw [hs] at hs'; cases hs'
  | issue => exact absurd hs ht
  | completion r op _ hp ho => rw [hs] at ho; cases ho
  | clock => exact absurd hs ht
  | reset => exact absurd rfl ha

/-- Settles O44: what leaves PACE is PACE's exit, which is enabled at T_START + MIN_DUR. -/
theorem paceIsNeverCutShort : Obligations.PaceIsNeverCutShort := by
  unfold Obligations.PaceIsNeverCutShort
  intro s t a hs ha hmove ht
  exact (paced_iff s).mp ((runAct_effect hmove).paced_of_leaves hs ha ht)

end Sys2Proof.Machine
end

section
/-!
PROOFS, family 60_exceptions.md: the IRQ output, which DONE and IRQ_EN make (R249).
-/

namespace Sys2Proof.Machine

/-! ## What makes IRQ, and what keeps it low -/

theorem irq_iff (s : State) : s.irq = true ↔ s.done = true ∧ s.irqEn = true := Bool.and_eq_true_iff

theorem irq_of_enabled {s : State} (h : s.irqEn = true) : s.irq = s.done := by rw [State.irq, h, Bool.and_true]

theorem irq_of_disabled {s : State} (h : s.irqEn = false) : s.irq = false := by rw [State.irq, h, Bool.and_false]

theorem irq_of_not_done {s : State} (h : s.done = false) : s.irq = false := by rw [State.irq, h, Bool.false_and]

/-! ## DONE and IRQ_EN after the operations that R249 names -/

/-- A W1C of DONE clears it, whatever the word says of CMDREJ (R36). -/
theorem done_of_statusW1c {s t : State} {c : Bool} (h : exec (.statusW1c true c) s = .next t) : t.done = false := by
  obtain ⟨-, hstatus⟩ := ctrlSetAndStatusClear s
  cases (hstatus true c).symm.trans h
  rfl

/-- ACK is the W1C of DONE alone (R111). -/
theorem done_of_ack {s t : State} (h : exec .ack s = .next t) : t.done = false :=
  done_of_statusW1c ((exec_ack_eq_statusW1c s).symm.trans h)

/-- CTRL_SET sets IRQ_EN to its bit and does not touch DONE (R35). -/
theorem irqEn_done_of_ctrlSet {s t : State} {op : BitVec 2} {e : Bool} (h : exec (.ctrlSet op e) s = .next t) :
    t.irqEn = e ∧ t.done = s.done := by
  obtain ⟨hctrl, -⟩ := ctrlSetAndStatusClear s
  cases (hctrl op e).symm.trans h
  exact ⟨rfl, rfl⟩

/-- An accepted START that runs has cleared DONE at its latch; one that ends at once leaves the block idle (R200, R201). -/
theorem done_of_accept_busy {s : State} (h : s.accept.busy = true) : s.accept.done = false := by
  rcases accept_cases s with ⟨-, hgo⟩ | ⟨-, hnothing⟩ | ⟨e, -, hrefuse⟩
  · rw [hgo, State.goto_done, State.latched_done]
  · rw [hnothing, busy_of_idle (State.finish_st _ _)] at h
    exact absurd h Bool.false_ne_true
  · rw [hrefuse, busy_of_idle (State.raiseError_st _ _)] at h
    exact absurd h Bool.false_ne_true

/-- With IRQ_EN set, each end of an operation raises IRQ: both ends set DONE (R241, R242). -/
theorem irq_of_end {s : State} (h : s.irqEn = true) (v : Word) (e : ErrCode) :
    (s.finish v).irq = true ∧ (s.raiseError e).irq = true :=
  ⟨irq_of_enabled (s := s.finish v) h, irq_of_enabled (s := s.raiseError e) h⟩

theorem done_of_resetStep (s : State) : (resetStep s).done = false := rfl

/-- Settles O13: what each operation leaves in DONE and IRQ_EN decides IRQ. -/
theorem interruptFollowsDoneAndEnable : Obligations.InterruptFollowsDoneAndEnable := by
  unfold Obligations.InterruptFollowsDoneAndEnable
  intro s
  refine ⟨irq_iff s, fun t h => ?ack, fun c t h => ?statusW1c, fun op t h => ?disable, fun op t h => ?enable,
    fun h => ?start, fun h v e => irq_of_end h v e, irq_of_not_done (done_of_resetStep s)⟩
  case ack => exact irq_of_not_done (done_of_ack h)
  case statusW1c => exact irq_of_not_done (done_of_statusW1c h)
  case disable =>
    obtain ⟨hdisabled, -⟩ := irqEn_done_of_ctrlSet h
    exact irq_of_disabled hdisabled
  case enable =>
    obtain ⟨henabled, hdone⟩ := irqEn_done_of_ctrlSet h
    exact (irq_of_enabled henabled).trans hdone
  case start => exact irq_of_not_done (done_of_accept_busy h)

end Sys2Proof.Machine
end

section
/-!
PROOFS, family 70_reset_and_hazards.md: what the host reads after reset (R271).
-/

namespace Sys2Proof.Machine

/-! ## The words of a quiet block -/

/-- STATUS of an idle block with no outcome reads 0 (R36). -/
theorem statusWord_of_quiet {s : State} (hst : s.st = .idle) (hdone : s.done = false) (hrej : s.cmdrej = false)
    (herr : s.err = .none) : s.statusWord = 0 := by
  rw [State.statusWord, busy_of_idle hst, hdone, hrej, herr]
  rfl

/-- CTRL reads 0 with OP 0 and the interrupt disabled (R35). -/
theorem ctrlWord_of_clear {s : State} (hop : s.op = 0) (hirq : s.irqEn = false) : s.ctrlWord = 0 := by
  rw [State.ctrlWord, hop, hirq]
  rfl

/-! ## The states after reset -/

/-- The state the model starts from is itself an answer of reset, from the same state before its Reset event (R23, R270). -/
theorem reset_eq_resetStep : State.reset = resetStep { State.reset with log := [] } := rfl

/-- Whatever is called "after reset" comes from the reset step, which keeps the parameters. -/
theorem exists_resetStep_of_afterReset {s t : State} (hp : s.params = Params.srwp)
    (h : t = State.reset ∨ runAct .reset s = .next t) : ∃ u : State, u.params = Params.srwp ∧ t = resetStep u := by
  rcases h with rfl | hmove
  · exact ⟨_, rfl, reset_eq_resetStep⟩
  · cases hmove
    exact ⟨s, hp, rfl⟩

/-- Settles O49: every "after reset" state is an answer of the reset step, and its words follow from its fields. -/
theorem afterResetWords : Obligations.AfterResetWords := by
  unfold Obligations.AfterResetWords
  intro s t hp h
  obtain ⟨u, hu, rfl⟩ := exists_resetStep_of_afterReset hp h
  obtain ⟨-, -, -, hmarker, -, -, -, -, hparams⟩ := registerWordsHoldTheirFields (resetStep u)
  obtain ⟨hparamsWord, hbufsizeWord⟩ := hparams hu
  have hstatus : (resetStep u).statusWord = 0 := statusWord_of_quiet rfl rfl rfl rfl
  have hminDur : (resetStep u).minDurWord = 0xFFFFFFFF := hmarker rfl
  have hirq : (resetStep u).irq = false := irq_of_not_done (done_of_resetStep u)
  have hctrl : (resetStep u).ctrlWord = 0 := ctrlWord_of_clear rfl rfl
  have hlines : (resetStep u).linesWord = 0 := linesWord_of_low rfl rfl
  exact ⟨hstatus, hminDur, hirq, hctrl, rfl, rfl, rfl, rfl, hlines, hparamsWord, hbufsizeWord, rfl, rfl⟩

end Sys2Proof.Machine
end
